-- ==== Sys2Proof/Word.lean ====
section
/-! DEFINITION. The data sizes of the machine (10_state.md R20, 20_memory.md R54; decision D1): a byte is
8 bits, a word 16, a longword 32. Bit 0 is the least significant bit (00_scope.md R7, decision D2). -/

namespace Sys2Proof

/-- A byte, the unit of memory (R50). -/
abbrev Byte := BitVec 8

/-- A 16-bit word: the operand of CHMx and BISPSW, an entry mask, a compatibility-mode instruction (R54). -/
abbrev Word := BitVec 16

/-- A 32-bit longword: a register, an address, a stack entry, the PSL as pushed (R6, R24). -/
abbrev Longword := BitVec 32

/-- The widest operand the table has (an H-type floating value, 16 bytes). A narrower operand stands in
its low-order bits. -/
abbrev Octaword := BitVec 128

end Sys2Proof
end

