-- ==== Sys2Proof/Machine/Bytes.lean ====
section
/-! DEFINITION. Byte order (20_memory.md R51, decision D3): little-endian, the least significant byte at the lowest
address. -/

namespace Sys2Proof

/-- The value of a list of bytes, the first one least significant (R51). -/
def leNat : List Byte → Nat
  | [] => 0
  | b :: bs => b.toNat + 256 * leNat bs

/-- The low-order `n` bytes of a number, least significant first (R51). -/
def leBytes : Nat → Nat → List Byte
  | 0, _ => []
  | n + 1, v => BitVec.ofNat 8 v :: leBytes n (v / 256)

/-- The longword of a list of bytes. -/
def leLong (bs : List Byte) : Longword := BitVec.ofNat 32 (leNat bs)

/-- The word of a list of bytes. -/
def leWord (bs : List Byte) : Word := BitVec.ofNat 16 (leNat bs)

/-- The octaword of a list of bytes. -/
def leOcta (bs : List Byte) : Octaword := BitVec.ofNat 128 (leNat bs)

/-- The bits of a byte from `i` up, `w` of them. -/
def bitsFrom (b : Byte) (i w : Nat) : BitVec w := b.extractLsb' i w

/-- The address `n` bytes after `a`, modulo 2^32 (10_state.md R22, decision D17). -/
def addrAdd (a : Longword) (n : Nat) : Longword := a + BitVec.ofNat 32 n

end Sys2Proof
end

