-- ==== Sys2Proof/Syntax.lean ====
section
/-! DEFINITION. Instructions as syntax: one constructor of `Instr` per row of `spec/opcode_table.json`, and the
operand specifiers of 30_encoding.md R75. -/

namespace Sys2Proof

/-- The number of a general register, 0 to 15 (10_state.md R20: 14 is the stack pointer, 15 the PC). -/
abbrev Reg := Fin 16

/-- An operand's data type: the second letter of an operand in 30_encoding.md R83
(`b`, `w`, `l` and the four floating types `f`, `d`, `g`, `h`). -/
inductive OpType where
  | byte | word | long | ffloat | dfloat | gfloat | hfloat
deriving DecidableEq, Repr, Inhabited

/-- What an instruction does with an operand: the first letter of an operand in R83
(`r` read, `w` written, `m` modified, `a` address taken). -/
inductive OpAccess where
  | read | write | modify | address
deriving DecidableEq, Repr, Inhabited

/-- An operand position of an instruction, such as `sum.ml`. -/
structure OperandKind where
  access : OpAccess
  type : OpType
deriving DecidableEq, Repr, Inhabited

/-- An operand specifier without an index byte before it, mode by mode of R75. R76 admits the first three;
the others are R75's table, supplied there from general knowledge (PRESUMED, log 13). -/
inductive BaseSpec where
  /-- Modes 0 to 3: a short literal, 0 to 63. -/
  | literal (v : BitVec 6)
  /-- Mode 5: the operand is the register. -/
  | register (r : Reg)
  /-- Mode 6: the operand is at the address in the register. -/
  | deferred (r : Reg)
  /-- Mode 7: the register is decremented by the operand's size, then holds the address. -/
  | autodecrement (r : Reg)
  /-- Mode 8 with a register other than 15: the register holds the address, then is incremented. -/
  | autoincrement (r : Reg)
  /-- Mode 8 with register 15: the operand follows in the instruction stream. -/
  | immediate (v : Octaword)
  /-- Mode 9 with a register other than 15: the register holds the address of the operand's address. -/
  | autoincrementDeferred (r : Reg)
  /-- Mode 9 with register 15: a longword address follows. -/
  | absolute (a : Longword)
  /-- Mode A. -/
  | byteDisp (r : Reg) (d : Byte)
  /-- Mode B. -/
  | byteDispDeferred (r : Reg) (d : Byte)
  /-- Mode C. -/
  | wordDisp (r : Reg) (d : Word)
  /-- Mode D. -/
  | wordDispDeferred (r : Reg) (d : Word)
  /-- Mode E. -/
  | longDisp (r : Reg) (d : Longword)
  /-- Mode F. -/
  | longDispDeferred (r : Reg) (d : Longword)
deriving DecidableEq, Repr, Inhabited

/-- An operand specifier: a base form, a base form after one index byte (mode 4), or an index byte followed by
another index byte, which R78 lists among the disallowed forms. -/
inductive Specifier where
  | plain (b : BaseSpec)
  | indexed (x : Reg) (b : BaseSpec)
  | indexedTwice (x y : Reg)
deriving DecidableEq, Repr, Inhabited

/-- The native opcodes of the table (30_encoding.md R83). -/
inductive Opcode where
  | reservedFFFF | xfc | nop | rei | bpt | ret | index | polyf | polyd | polyg | polyh | bispsw
  | chmk | chme | chms | chmu | addl2 | divl2 | callg | calls
deriving DecidableEq, Repr, Inhabited

/-- An instruction: one constructor per row of `spec/opcode_table.json`, operands in the order of R83. -/
inductive Instr where
  | reservedFFFF
  | xfc
  | nop
  | rei
  | bpt
  | ret
  | index (subscript low high size indexin indexout : Specifier)
  | polyf (arg degree tbladdr : Specifier)
  | polyd (arg degree tbladdr : Specifier)
  | polyg (arg degree tbladdr : Specifier)
  | polyh (arg degree tbladdr : Specifier)
  | bispsw (mask : Specifier)
  | chmk (code : Specifier)
  | chme (code : Specifier)
  | chms (code : Specifier)
  | chmu (code : Specifier)
  | addl2 (add sum : Specifier)
  | divl2 (divr quo : Specifier)
  | callg (arglist dst : Specifier)
  | calls (numarg dst : Specifier)
  /-- The four compatibility-mode instructions of Table E-2; EMT and TRAP carry the low byte of their word. -/
  | bptCompat
  | iotCompat
  | emtCompat (code : Byte)
  | trapCompat (code : Byte)
deriving DecidableEq, Repr, Inhabited

end Sys2Proof
end

