-- ==== Sys2Proof/Config.lean ====
section
/-! DEFINITION. What an implementation fixes and what the spec leaves open.

The parameters of 00_scope.md R6 that are OPEN and are plain data form the structure `Config`, which `State` carries and
no step changes, so that a statement about every state is a statement about every value of them (log 1). The
parameters and oracles that are functions, and the free values, are uninterpreted constants: `opaque`, with no body. -/

namespace Sys2Proof

/-- The four access modes, most privileged first (10_state.md R33, 60_exceptions.md R247, decision D27). -/
inductive Mode where
  | kernel | executive | supervisor | user
deriving DecidableEq, Repr, Inhabited

/-- The kinds of reference `Translate` distinguishes (20_memory.md R56). An instruction fetch is a read. -/
inductive Access where
  | read | write
deriving DecidableEq, Repr, Inhabited

/-- The two memory management faults (41_memory_and_operand_exceptions.md R140). -/
inductive MemFault where
  | accessControlViolation | translationNotValid
deriving DecidableEq, Repr, Inhabited

/-- What the page table says of one reference: whether it is allowed at the current access mode, whether the page
is valid, and the physical address (10_state.md R36). -/
structure PageEntry where
  allowed : Bool
  valid : Bool
  physical : Longword
deriving DecidableEq, Repr, Inhabited

/-- A stretch of virtual addresses with one page table entry, as plain data. The page size and the entry's format are
not in the source (R36), so a stretch has any first and last address and names the modes that may read and write it. -/
structure PageRegion where
  first : Longword
  last : Longword
  readers : List Mode
  writers : List Mode
  valid : Bool
  base : Longword
deriving DecidableEq, Repr, Inhabited

/-- The `Translate` of 20_memory.md R56: either given by regions (an address in none of them is allowed, valid and
maps to itself), or uninterpreted. -/
inductive Translation where
  | regions (l : List PageRegion)
  | uninterpreted
deriving DecidableEq, Repr, Inhabited

/-- FLOAT_STYLE (40_arithmetic_exceptions.md R116, decision D11). -/
inductive FloatStyle where
  | trap | fault
deriving DecidableEq, Repr, Inhabited

/-- MM_PARAMS, what a memory management fault pushes besides PC and PSL (R141, decision D30): the default (virtual
address, then a fault parameter word on top), nothing, or an uninterpreted list. -/
inductive MmParams where
  | addressAndFaultWord | nothing | uninterpreted
deriving DecidableEq, Repr, Inhabited

/-- The SCB offsets of 60_exceptions.md R235, all parameters (decision D6, D24). `V_EMUL_FAULT` is not one of them: the
source fixes it. -/
structure VectorOffsets where
  respriv : Longword
  xfc : Longword
  resop : Longword
  resaddr : Longword
  acv : Longword
  tnv : Longword
  trace : Longword
  bpt : Longword
  compat : Longword
  arith : Longword
  chmk : Longword
  chme : Longword
  chms : Longword
  chmu : Longword
  emulTrap : Longword
deriving DecidableEq, Repr, Inhabited

/-- The six instruction classes of 40_arithmetic_exceptions.md R118 to R124. -/
inductive ClassKind where
  | int | idiv | flt | fdiv | dec | ddiv
deriving DecidableEq, Repr, Inhabited

/-- A source operand of a class instruction: one specifier of a type, or a decimal string, given by a length word and
an address (log 35, 36). -/
inductive ClassSource where
  | scalar (t : OpType)
  | string
deriving DecidableEq, Repr, Inhabited

/-- An opcode that the configuration makes a member of an instruction class (R118: which opcodes belong to which class
is not in the source). The sources come first, then the destination: a specifier of type `dest` for INT, IDIV, FLT and
FDIV, a string for DEC and DDIV; `modify` says that the destination's old value is an input too. -/
structure ClassOp where
  opcode : Word
  kind : ClassKind
  sources : List ClassSource
  dest : OpType
  modify : Bool
deriving DecidableEq, Repr, Inhabited

/-- The OPEN parameters of 00_scope.md R6 that are plain data. -/
structure Config where
  floatStyle : FloatStyle
  vectors : VectorOffsets
  /-- SUBSET_OPS: opcodes of omitted string instructions, numbered as `op0 + 256 * op1` (R166, R167). -/
  subsetOps : List Word
  classOps : List ClassOp
  /-- XFC_MICROCODE (R164, decision D40). -/
  xfcMicrocode : Bool
  mmParams : MmParams
deriving DecidableEq, Repr, Inhabited

/-- A floating type of POLYx and of classes FLT and FDIV (40_arithmetic_exceptions.md R105, R115). -/
inductive FloatType where
  | f | d | g | h
deriving DecidableEq, Repr, Inhabited

/-- The four condition codes as one value an oracle answers. -/
structure CondCodes where
  n : Bool
  z : Bool
  v : Bool
  c : Bool
deriving DecidableEq, Repr, Inhabited

/-- `PolyEval.step(k)` of R115: the step's result, or that it overflowed or underflowed. -/
inductive PolyStep where
  | normal (r : Octaword) | overflow | underflow
deriving DecidableEq, Repr, Inhabited

/-- The oracle's outcome for class INT: the exact result and the carry the instruction defines (R119). -/
structure IntOutcome where
  correct : Int
  carry : Bool
deriving DecidableEq, Repr, Inhabited

/-- The oracle's outcome for classes FLT and FDIV (R121, R122). -/
inductive FloatOutcome where
  | normal (bits : Octaword) (cc : CondCodes) | overflow | underflow | reserved
deriving DecidableEq, Repr, Inhabited

/-- The oracle's outcome for class DEC: the exact decimal result and the instruction's own N, Z and C (R123). -/
structure DecOutcome where
  negative : Bool
  magnitude : Nat
  n : Bool
  z : Bool
  c : Bool
deriving DecidableEq, Repr, Inhabited

/-- A decimal string operand's value: its length in digits and its bytes, lowest address first (10_state.md R37; log 36). -/
structure DecimalString where
  len : Nat
  bytes : List Byte
deriving DecidableEq, Repr, Inhabited

/-- The spec's `draw` (R8, R10): the free value of the k-th occurrence. Nothing constrains it (log 9). -/
opaque Config.draw : Nat → Longword

/-- What a register operand has where it reaches the PC and beyond: the free value of the operand whose specifier ends at an
address, once the given number of draws has been made (30_encoding.md R78, U5; log 14). -/
opaque Config.pcOperand : (draws : Nat) → (next : Longword) → Octaword

/-- The page table of the uninterpreted `Translate` (R36, R56). -/
opaque Config.pageEntry : Longword → Access → Mode → PageEntry

/-- The fault parameter word of MM_PARAMS's default; its format is not in the spec (R141, G23; log 20). -/
opaque Config.faultParameterWord : MemFault → Longword → Access → Mode → Longword

/-- MM_PARAMS where it is left uninterpreted (R141, decision D30). -/
opaque Config.mmParamList : MemFault → Longword → Access → Mode → List Longword

/-- EMUL_FRAME, the subset emulation trap frame, in push order: opaque, fresh at each occurrence (R168, decision D26). -/
opaque Config.emulFrame : Nat → List Longword

/-- The oracle `PolyEval`, one step of the evaluation: the argument, the value so far, the next coefficient (R115). -/
opaque Config.polyStep : FloatType → Octaword → Octaword → Octaword → PolyStep

/-- The oracle `PolyEval`, the condition codes of the final result (R115; log 31). -/
opaque Config.polyFlags : FloatType → Octaword → CondCodes

/-- The oracles of R118. Each depends on the opcode and the operand values alone: the values of the specifiers, then the
decimal strings, each with its length; for class DEC the length of the destination too (R123; log 35). -/
opaque Config.intOutcome : Word → List Octaword → List DecimalString → IntOutcome
opaque Config.floatOutcome : Word → List Octaword → List DecimalString → FloatOutcome
opaque Config.decOutcome : Word → List Octaword → List DecimalString → (destination : Nat) → DecOutcome

/-- Whether a decimal string's value is zero, of either sign; the string format is not in the source (R37, R107, R124). -/
opaque Config.decimalIsZero : DecimalString → Bool

/-- Whether a decimal string has an invalid digit or sign nibble (41_memory_and_operand_exceptions.md R149); which have is not
in the source (R37; log 36). -/
opaque Config.decimalIsInvalid : DecimalString → Bool

/-- Byte `i` of the decimal string of `len` digits with the given sign and magnitude (R37, R123). -/
opaque Config.decimalByte : (negative : Bool) → (magnitude len i : Nat) → Byte

end Sys2Proof
end

