-- ==== Sys2Proof/Machine/State.lean ====
section
/-! DEFINITION. The machine's state as plain data (10_state.md R20 to R41), the reasons a step can stop, and the
state a run may start from. -/

namespace Sys2Proof.Machine

open Sys2Proof

/-- The processor status longword by its fields (R24 to R33). Its bits 15:8, 21 and 29:28 are zero by layout and are
not held (log 12); `Psl.pack` assembles the longword. What clears `fpd` the source does not say (R31): here an exception's entry
(60_exceptions.md R238) and REI alone change it, and an instruction that is neither POLYx nor a string instruction runs with it
set as with it clear (DESIGN CHOICE, log 48). -/
structure Psl where
  c : Bool
  v : Bool
  z : Bool
  n : Bool
  t : Bool
  iv : Bool
  fu : Bool
  dv : Bool
  ipl : BitVec 5
  prv : Mode
  cur : Mode
  is : Bool
  fpd : Bool
  tp : Bool
  cm : Bool
deriving DecidableEq, Repr, Inhabited

/-- The stacks (R23, 60_exceptions.md R239): one per mode and the interrupt stack. -/
inductive StackId where
  | kernel | executive | supervisor | user | interrupt
deriving DecidableEq, Repr, Inhabited

/-- The stack pointers, one per stack (R23). Register 14 is the one the PSL selects and has no copy of its own. -/
structure StackPointers where
  kernel : Longword
  executive : Longword
  supervisor : Longword
  user : Longword
  interrupt : Longword
deriving DecidableEq, Repr, Inhabited

/-- Memory as the cells that differ from an unlisted byte, addresses strictly rising (20_memory.md R50). The keys are
physical addresses. -/
abbrev Memory := List Host.Cell

/-- The machine's state. -/
structure State where
  /-- R0 to R13 (R20). -/
  regs : Vector Longword 14
  sps : StackPointers
  /-- R15 (R22). -/
  pc : Longword
  psl : Psl
  /-- The address of the system control block (R35). -/
  scbb : Longword
  /-- The page table (R36, R56). -/
  translation : Translation
  mem : Memory
  /-- Bytes stored since the last REI, by instructions and by the pushes of an exception's entry, with the values they had
  before: what an instruction fetch may still see (20_memory.md R60; log 22). -/
  staleCode : List Host.Cell
  /-- The model's own: how many free values have been drawn (R8, R10; log 9). -/
  draws : Nat
  /-- The OPEN parameters of 00_scope.md R6; no step changes them. -/
  config : Config
deriving DecidableEq, Repr

/-- The machine is stuck: the spec gives it no next step, where the real machine takes an exception of the sixth
class, which no source describes (R62, R245, decisions D8, D10, D35). Both are safe: the model proves less. -/
inductive Fault where
  /-- `Initiate` found a vector whose bits 1:0 are 3, reserved (R236). Raised by `initiate`. Safe. -/
  | reservedVectorCode
  /-- A push of `Initiate` cannot be made: its translation faults (R62, R236). Raised by `initiate`. Safe. -/
  | servicePushFault
deriving DecidableEq, Repr

/-- The model has no meaning for what the machine would do; each case is one the spec itself refuses. All are safe:
nothing is claimed of what the hardware does next. -/
inductive Refusal where
  /-- An instruction whose arm of `exec` has no meaning yet; no arm is left so. Safe. -/
  | notModelled (mnemonic : String)
  /-- `Initiate` found a vector whose bits 1:0 are 2, writable control store (R236, D8). Raised by `initiate`. Safe. -/
  | writableControlStore
  /-- An XFC on an implementation whose microcode handles it (R164, R165, D40). Raised by `initiate`. Safe. -/
  | customerMicrocode
  /-- A CHMx executed on the interrupt stack (R179). Raised by the CHMx meanings. Safe. -/
  | changeModeOnInterruptStack
  /-- REI of a PSL with IS set or IPL non-zero (R218, D37). Raised by `returnFromException`. Safe. -/
  | reiInterruptState
  /-- POLYx or a decimal-string instruction entered with FPD set: how it resumes is not in the source
  (R115, U20, N12). Raised by the POLYx meanings and `execClass`. Safe. -/
  | resumeSuspended
  /-- An operand specifier that uses the PC as register, register deferred or autodecrement operand: UNPREDICTABLE (R78, U5).
  Raised by `evalOperand`. Safe. -/
  | unpredictablePcOperand
  /-- A native opcode with no row in the table, in no class and not in SUBSET_OPS (R79, D22). Raised by `beginStep`.
  Safe. -/
  | unknownOpcode (code : Word)
  /-- A compatibility-mode word with no row in the table (R81, R185, D33). Raised by `beginStep`. Safe. -/
  | unknownCompatWord (w : Word)
  /-- A configured class instruction longer than `fetchSpan` bytes; no instruction of the table is (log 42). Raised by
  `beginStep`. Safe. -/
  | instructionTooLong
  /-- A configured class instruction without the operands its class needs (log 35). Raised by `execClass`. Safe. -/
  | malformedClass
deriving DecidableEq, Repr

/-- What a step answers. -/
abbrev Answer := Host.Outcome State Fault Refusal

/-- The vector offsets by default (60_exceptions.md R235; C8 for the subset emulation trap, as decision D24
recommends). -/
def defaultVectors : VectorOffsets where
  respriv := 0x10
  xfc := 0x14
  resop := 0x18
  resaddr := 0x1C
  acv := 0x20
  tnv := 0x24
  trace := 0x28
  bpt := 0x2C
  compat := 0x30
  arith := 0x34
  chmk := 0x40
  chme := 0x44
  chms := 0x48
  chmu := 0x4C
  emulTrap := 0xC8

/-- The parameters of `State.reset`: a full processor that traps, with the default vectors (DESIGN CHOICE, log 1). -/
def defaultConfig : Config where
  floatStyle := .trap
  vectors := defaultVectors
  subsetOps := []
  classOps := []
  xfcMicrocode := false
  mmParams := .addressAndFaultWord

/-- Kernel mode, everything else clear (DESIGN CHOICE, log 7; R271 and G30 say a VAX starts with the mode kernel and T,
TP and the arithmetic enables clear). -/
def resetPsl : Psl where
  c := false
  v := false
  z := false
  n := false
  t := false
  iv := false
  fu := false
  dv := false
  ipl := 0
  prv := .kernel
  cur := .kernel
  is := false
  fpd := false
  tp := false
  cm := false

/-- One INITIAL_STATE. The spec gives no reset value of anything (R41, R270, R271): every value here is a DESIGN CHOICE
(log 1 to 9) and no statement about the machine rests on one. -/
def State.reset : State where
  regs := Vector.replicate 14 0
  sps := ⟨0, 0, 0, 0, 0⟩
  pc := 0
  psl := resetPsl
  scbb := 0
  translation := .regions []
  mem := []
  staleCode := []
  draws := 0
  config := defaultConfig

end Sys2Proof.Machine
end

