-- ==== Sys2Proof/Machine/Memory.lean ====
section
/-! DEFINITION. Physical memory: one byte at a time, in a canonical form (20_memory.md R50). -/

namespace Sys2Proof.Machine

open Sys2Proof

/-- What a byte of memory that nothing has written reads as: the spec gives memory no reset contents (R41).
DESIGN CHOICE, unsafe (log 8). -/
def unlistedByte : Byte := 0

/-- The byte at an address. -/
def Memory.read : Memory → Nat → Byte
  | [], _ => unlistedByte
  | (k, b) :: rest, a => if k = a then b else Memory.read rest a

/-- Memory with one byte written; a byte written with the unlisted value is not listed. -/
def Memory.write : Memory → Nat → Byte → Memory
  | [], a, b => if b = unlistedByte then [] else [(a, b)]
  | (k, c) :: rest, a, b =>
    if a < k then
      if b = unlistedByte then (k, c) :: rest else (a, b) :: (k, c) :: rest
    else if a = k then
      if b = unlistedByte then rest else (a, b) :: rest
    else (k, c) :: Memory.write rest a b

/-- The canonical form from address `lo` up: addresses strictly rising, inside the 2^32 bytes of R50, no cell with the
unlisted value. -/
def Memory.wfFrom : Nat → Memory → Bool
  | _, [] => true
  | lo, (k, b) :: rest =>
    decide (lo ≤ k) && decide (k < 2 ^ 32) && b != unlistedByte && Memory.wfFrom (k + 1) rest

/-- The canonical form of memory. -/
def Memory.wf (m : Memory) : Bool := Memory.wfFrom 0 m

end Sys2Proof.Machine
end

