-- ==== Sys2Proof/Machine/Psl.lean ====
section
/-! DEFINITION. The PSL as a longword (10_state.md R24), the modes as numbers (R33), the stack a PSL selects (R23). -/

namespace Sys2Proof.Machine

open Sys2Proof

/-- Kernel 0, executive 1, supervisor 2, user 3 (R33, decision D27). -/
def modeBits : Mode → BitVec 2
  | .kernel => 0
  | .executive => 1
  | .supervisor => 2
  | .user => 3

/-- The mode of a two-bit field (R33). -/
def modeOfBits (b : BitVec 2) : Mode :=
  if b = 0 then .kernel else if b = 1 then .executive else if b = 2 then .supervisor else .user

/-- `a` is more privileged than `b`: kernel is the most privileged (R33, R247). -/
def morePrivileged (a b : Mode) : Bool := decide ((modeBits a).toNat < (modeBits b).toNat)

/-- The more privileged of two modes (42_instruction_execution_exceptions.md R174). -/
def mostPrivileged (a b : Mode) : Mode := if morePrivileged a b then a else b

/-- The low byte of the PSL: DV, FU, IV, T, N, Z, V, C from bit 7 down (R24). -/
def Psl.lowByte (p : Psl) : Byte :=
  (BitVec.ofBool p.dv ++ BitVec.ofBool p.fu ++ BitVec.ofBool p.iv ++ BitVec.ofBool p.t ++
    BitVec.ofBool p.n ++ BitVec.ofBool p.z ++ BitVec.ofBool p.v ++ BitVec.ofBool p.c).setWidth 8

/-- Bits 31:16 of the PSL: CM, TP, two zeros, FPD, IS, CUR, PRV, a zero, IPL (R24). -/
def Psl.highWord (p : Psl) : Word :=
  (BitVec.ofBool p.cm ++ BitVec.ofBool p.tp ++ 0#2 ++ BitVec.ofBool p.fpd ++ BitVec.ofBool p.is ++
    modeBits p.cur ++ modeBits p.prv ++ 0#1 ++ p.ipl).setWidth 16

/-- The PSL as the longword an exception pushes: PSL_LAYOUT of R24. -/
def Psl.pack (p : Psl) : Longword := (p.highWord ++ 0#8 ++ p.lowByte).setWidth 32

/-- The PSL fields of a longword (R24). Bits the layout has zero are dropped (log 12). -/
def Psl.unpack (w : Longword) : Psl where
  c := w.getLsbD 0
  v := w.getLsbD 1
  z := w.getLsbD 2
  n := w.getLsbD 3
  t := w.getLsbD 4
  iv := w.getLsbD 5
  fu := w.getLsbD 6
  dv := w.getLsbD 7
  ipl := w.extractLsb' 16 5
  prv := modeOfBits (w.extractLsb' 22 2)
  cur := modeOfBits (w.extractLsb' 24 2)
  is := w.getLsbD 26
  fpd := w.getLsbD 27
  tp := w.getLsbD 30
  cm := w.getLsbD 31

/-- The PSL with its low 16 bits, the PSW, taken from `w` (R34): the layout has bits 15:8 zero. -/
def Psl.withPsw (p : Psl) (w : Word) : Psl :=
  { p with
    c := w.getLsbD 0, v := w.getLsbD 1, z := w.getLsbD 2, n := w.getLsbD 3,
    t := w.getLsbD 4, iv := w.getLsbD 5, fu := w.getLsbD 6, dv := w.getLsbD 7 }

/-- The PSL with the bits of `mask` set in its PSW (43_trace.md R219). -/
def Psl.orPsw (p : Psl) (mask : Word) : Psl :=
  { p with
    c := p.c || mask.getLsbD 0, v := p.v || mask.getLsbD 1, z := p.z || mask.getLsbD 2,
    n := p.n || mask.getLsbD 3, t := p.t || mask.getLsbD 4, iv := p.iv || mask.getLsbD 5,
    fu := p.fu || mask.getLsbD 6, dv := p.dv || mask.getLsbD 7 }

/-- The stack of a mode (R23, 60_exceptions.md R239). -/
def stackOfMode : Mode → StackId
  | .kernel => .kernel
  | .executive => .executive
  | .supervisor => .supervisor
  | .user => .user

/-- The stack in use: the interrupt stack when IS is set, else the current mode's (R23). -/
def Psl.stack (p : Psl) : StackId := if p.is then .interrupt else stackOfMode p.cur

end Sys2Proof.Machine
end

