-- ==== Sys2Proof/Machine/Access.lean ====
section
/-! DEFINITION. What ends an instruction before it completes, the registers, and memory accesses through `Translate`
(20_memory.md R50 to R61). -/

namespace Sys2Proof.Machine

open Sys2Proof

/-- The seven arithmetic traps of Table E-1 (40_arithmetic_exceptions.md R101), codes 1 to 7. -/
inductive ArithTrap where
  | integerOverflow | integerDivideByZero | floatingOverflow | divideByZero | floatingUnderflow
  | decimalOverflow | subscriptRange
deriving DecidableEq, Repr

/-- The three arithmetic faults of Table E-1 (R101), codes 8 to 10. -/
inductive ArithFault where
  | floatingOverflow | floatingDivideByZero | floatingUnderflow
deriving DecidableEq, Repr

/-- The seven events of Table E-2 (42_instruction_execution_exceptions.md R172), codes 0 to 6. -/
inductive CompatEvent where
  | reservedOpcode | bpt | iot | emt | trap | illegalInstruction | oddAddress
deriving DecidableEq, Repr

/-- The exceptions of the master table 60_exceptions.md R232 that the spec models, under the names of R233. A
reserved operand abort is never raised (41_memory_and_operand_exceptions.md R147). -/
inductive Exc where
  | arithmeticTrap (c : ArithTrap)
  | arithmeticFault (c : ArithFault)
  /-- An access control violation or translation not valid fault of a reference to `va` (R141, R142). -/
  | memory (f : MemFault) (va : Longword) (access : Access)
  | reservedAddressingMode
  | reservedOperand
  | reservedOrPrivilegedInstruction
  | customerReservedOpcode
  | subsetEmulationTrap
  | suspendedEmulationFault
  | compatibilityMode (e : CompatEvent)
  | changeMode (target : Mode) (code : Word)
  | breakpoint
  | traceFault
deriving DecidableEq, Repr

/-- Why an instruction is backed up instead of completing. -/
inductive Stop where
  /-- A fault (or the odd address abort): nothing of the instruction stays (60_exceptions.md R231). -/
  | fault (e : Exc)
  /-- A floating fault: the saved condition codes are draws (R112 to R114); `suspend` sets the saved FPD (R115). -/
  | floatingFault (c : ArithFault) (suspend : Bool)
  /-- The model refuses. -/
  | refused (r : Refusal)
deriving DecidableEq, Repr

/-- The pointer of a stack. -/
def StackPointers.get (p : StackPointers) : StackId → Longword
  | .kernel => p.kernel
  | .executive => p.executive
  | .supervisor => p.supervisor
  | .user => p.user
  | .interrupt => p.interrupt

/-- The stack pointers with one replaced. -/
def StackPointers.set (p : StackPointers) (i : StackId) (v : Longword) : StackPointers :=
  match i with
  | .kernel => { p with kernel := v }
  | .executive => { p with executive := v }
  | .supervisor => { p with supervisor := v }
  | .user => { p with user := v }
  | .interrupt => { p with interrupt := v }

/-- `sp`, the pointer of the stack in use (10_state.md R23). -/
def State.sp (s : State) : Longword := s.sps.get s.psl.stack

/-- `sp <- v`. -/
def State.setSp (s : State) (v : Longword) : State := { s with sps := s.sps.set s.psl.stack v }

/-- `x[r]` (00_scope.md R8): 14 is the stack pointer in use, 15 the PC (10_state.md R20). -/
def State.getReg (s : State) (r : Reg) : Longword :=
  if h : r.val < 14 then s.regs[r.val] else if r.val = 14 then s.sp else s.pc

/-- `x[r] <- v`. -/
def State.setReg (s : State) (r : Reg) (v : Longword) : State :=
  if h : r.val < 14 then { s with regs := s.regs.set r.val v }
  else if r.val = 14 then s.setSp v
  else { s with pc := v }

/-- `pc <- v`. -/
def State.setPc (s : State) (v : Longword) : State := { s with pc := v }

/-- The state with another PSL. -/
def State.setPsl (s : State) (p : Psl) : State := { s with psl := p }

/-- The free value `i` places on (log 9). -/
def State.drawn (s : State) (i : Nat) : Longword := Config.draw (s.draws + i)

/-- A free bit. -/
def State.drawnBit (s : State) (i : Nat) : Bool := (s.drawn i).getLsbD 0

/-- The state after `n` free values have been drawn. -/
def State.advanceDraws (s : State) (n : Nat) : State := { s with draws := s.draws + n }

end Sys2Proof.Machine

namespace Sys2Proof

/-- Whether a region covers an address. -/
def PageRegion.covers (r : PageRegion) (va : Longword) : Bool :=
  decide (r.first.toNat ≤ va.toNat) && decide (va.toNat ≤ r.last.toNat)

/-- The entry a region gives a reference. -/
def PageRegion.entry (r : PageRegion) (va : Longword) (access : Access) (mode : Mode) : PageEntry where
  allowed := match access with
    | .read => r.readers.contains mode
    | .write => r.writers.contains mode
  valid := r.valid
  physical := r.base + (va - r.first)

/-- The page table entry of a reference (10_state.md R36, 20_memory.md R56). -/
def Translation.entry (t : Translation) (va : Longword) (access : Access) (mode : Mode) : PageEntry :=
  match t with
  | .regions l =>
    match l.find? fun r => r.covers va with
    | some r => r.entry va access mode
    | none => ⟨true, true, va⟩
  | .uninterpreted => Config.pageEntry va access mode

end Sys2Proof

namespace Sys2Proof.Machine

open Sys2Proof

/-- `Translate(va, access, mode)` (R56): the access check comes first, so an entry that specifies both faults gives the
access control violation (41_memory_and_operand_exceptions.md R143). -/
def translate (t : Translation) (va : Longword) (access : Access) (mode : Mode) : Except MemFault Longword :=
  let e := t.entry va access mode
  if e.allowed = false then .error .accessControlViolation
  else if e.valid = false then .error .translationNotValid
  else .ok e.physical

/-- The byte at a physical address. -/
def State.physicalByte (s : State) (pa : Longword) : Byte := s.mem.read pa.toNat

/-- The longword at a physical address, read without translation (60_exceptions.md R235). -/
def State.physicalLong (s : State) (pa : Longword) : Longword :=
  leLong [s.physicalByte pa, s.physicalByte (addrAdd pa 1), s.physicalByte (addrAdd pa 2), s.physicalByte (addrAdd pa 3)]

/-- The physical address of a reference, or the fault it raises (R56, R141, R142). -/
def State.physical (s : State) (mode : Mode) (access : Access) (va : Longword) : Except Stop Longword :=
  match translate s.translation va access mode with
  | .ok pa => .ok pa
  | .error f => .error (.fault (.memory f va access))

/-- `MemRead(va, n)` as its bytes: each byte is translated (R53, R56). -/
def State.readBytes (s : State) (mode : Mode) : Nat → Longword → Except Stop (List Byte)
  | 0, _ => .ok []
  | n + 1, va =>
    match s.physical mode .read va with
    | .error e => .error e
    | .ok pa =>
      match s.readBytes mode n (va + 1) with
      | .error e => .error e
      | .ok bs => .ok (s.physicalByte pa :: bs)

/-- `MemRead` of a longword at the current mode. -/
def State.readLong (s : State) (va : Longword) : Except Stop Longword :=
  (s.readBytes s.psl.cur 4 va).map leLong

/-- `MemRead` of a word at the current mode. -/
def State.readWord (s : State) (va : Longword) : Except Stop Word :=
  (s.readBytes s.psl.cur 2 va).map leWord

/-- One byte of physical memory written. -/
def State.putByte (s : State) (pa : Longword) (b : Byte) : State := { s with mem := s.mem.write pa.toNat b }

/-- `MemWrite(va, n, v)` of the bytes of `v`: each byte is translated; where one faults nothing is written
(R53, R56, 60_exceptions.md R231). -/
def State.writeBytes (s : State) (mode : Mode) : List Byte → Longword → Except Stop State
  | [], _ => .ok s
  | b :: bs, va =>
    match s.physical mode .write va with
    | .error e => .error e
    | .ok pa => (s.putByte pa b).writeBytes mode bs (va + 1)

/-- What an instruction fetch may still see of the `n` bytes at `va` once they have been stored over (R60). -/
def State.oldCells (s : State) (mode : Mode) : Nat → Longword → List Host.Cell
  | 0, _ => []
  | n + 1, va =>
    match s.physical mode .write va with
    | .error _ => s.oldCells mode n (va + 1)
    | .ok pa => (pa.toNat, s.physicalByte pa) :: s.oldCells mode n (va + 1)

/-- A store by an instruction, at the current mode: the bytes are written, and instruction fetch may see the old ones
until the next REI (R60). -/
def State.store (s : State) (bs : List Byte) (va : Longword) : Except Stop State :=
  match s.writeBytes s.psl.cur bs va with
  | .error e => .error e
  | .ok s' => .ok { s' with staleCode := s.oldCells s.psl.cur bs.length va ++ s.staleCode }

/-- `Push32(v)` by an instruction (20_memory.md R52). -/
def State.push (s : State) (v : Longword) : Except Stop State :=
  let a := s.sp - 4
  match s.store (leBytes 4 v.toNat) a with
  | .error e => .error e
  | .ok s' => .ok (s'.setSp a)

end Sys2Proof.Machine
end

