-- ==== Sys2Proof/Machine/Flags.lean ====
section
/-! DEFINITION. The condition codes (10_state.md R25) and the patterns the arithmetic exceptions give them
(40_arithmetic_exceptions.md R102 to R111). -/

namespace Sys2Proof.Machine

open Sys2Proof

/-- N, Z, V and C of a PSL replaced. -/
def Psl.withCodes (p : Psl) (cc : CondCodes) : Psl := { p with n := cc.n, z := cc.z, v := cc.v, c := cc.c }

/-- The condition codes of a PSL. -/
def Psl.codes (p : Psl) : CondCodes := ⟨p.n, p.z, p.v, p.c⟩

/-- The state with its condition codes replaced. -/
def State.setCodes (s : State) (cc : CondCodes) : State := s.setPsl (s.psl.withCodes cc)

/-- After a floating overflow or a floating divide by zero trap: N and V set, Z and C clear (R104, R106). -/
def overflowCodes : CondCodes := ⟨true, false, true, false⟩

/-- After a floating underflow: Z set, the others clear (R108). -/
def underflowCodes : CondCodes := ⟨false, true, false, false⟩

/-- The sign bit of the low-order `bits` bits of a number. -/
def signBit (bits : Nat) (stored : Nat) : Bool := decide (2 ^ (bits - 1) ≤ stored % 2 ^ bits)

/-- Whether a number fits the signed range of `bits` bits (R119). -/
def fitsSigned (bits : Nat) (x : Int) : Bool := decide (-(2 ^ (bits - 1) : Int) ≤ x) && decide (x < 2 ^ (bits - 1))

/-- The low-order part of a result, `correct mod 2^bits` (R102, R119). -/
def lowOrder (bits : Nat) (correct : Int) : Nat := (correct % 2 ^ bits).toNat

/-- The condition codes of an integer result: N and Z from what is stored, V whether it overflowed, C as given
(R102, R119). -/
def integerCodes (bits : Nat) (correct : Int) (c : Bool) : CondCodes where
  n := signBit bits (lowOrder bits correct)
  z := lowOrder bits correct == 0
  v := !fitsSigned bits correct
  c := c

/-- The condition codes after an integer divide by zero: V set, N and Z from the dividend, C clear (R103, D32). -/
def divideByZeroCodes (bits : Nat) (dividend : Nat) : CondCodes where
  n := signBit bits dividend
  z := dividend % 2 ^ bits == 0
  v := true
  c := false

end Sys2Proof.Machine
end

