-- ==== Sys2Proof/Decode.lean ====
section
/-! DEFINITION. The decoder and the encoder (30_encoding.md): the opcode table of R83 as a list of rows, the operand
specifiers of R75, the compatibility-mode words of R81. The decoder is total: bytes it has no row for are answered by
name. -/

namespace Sys2Proof

/-- The size of an operand in bytes: of an integer, 20_memory.md R54 and 93_implementation_defined.md G1; of a floating operand,
the family's (10_state.md R37 and N27: not in the source; PRESUMED, log 49). -/
def OpType.size : OpType → Nat
  | .byte => 1
  | .word => 2
  | .long => 4
  | .ffloat => 4
  | .dfloat => 8
  | .gfloat => 8
  | .hfloat => 16

/-- A row of the opcode map R83: the opcode as `op0 + 256 * op1` (R84), its name, its operands. -/
structure OpcodeRow where
  code : Word
  op : Opcode
  operands : List OperandKind
deriving DecidableEq, Repr

/-- `rl`, `wl`, `ml`, `rw`, `ab` of R83. -/
def readLong : OperandKind := ⟨.read, .long⟩
def writeLong : OperandKind := ⟨.write, .long⟩
def modifyLong : OperandKind := ⟨.modify, .long⟩
def readWord : OperandKind := ⟨.read, .word⟩
def addressByte : OperandKind := ⟨.address, .byte⟩

/-- The operands of a POLYx: `arg.rx, degree.rw, tbladdr.ab` (40_arithmetic_exceptions.md R115). -/
def polyOperands (t : OpType) : List OperandKind := [⟨.read, t⟩, readWord, addressByte]

/-- The native rows of the opcode map (R83). -/
def opcodeTable : List OpcodeRow := [
  ⟨0xFFFF, .reservedFFFF, []⟩,
  ⟨0x00FC, .xfc, []⟩,
  ⟨0x0001, .nop, []⟩,
  ⟨0x0002, .rei, []⟩,
  ⟨0x0003, .bpt, []⟩,
  ⟨0x0004, .ret, []⟩,
  ⟨0x000A, .index, [readLong, readLong, readLong, readLong, readLong, writeLong]⟩,
  ⟨0x0055, .polyf, polyOperands .ffloat⟩,
  ⟨0x0075, .polyd, polyOperands .dfloat⟩,
  ⟨0x55FD, .polyg, polyOperands .gfloat⟩,
  ⟨0x75FD, .polyh, polyOperands .hfloat⟩,
  ⟨0x00B8, .bispsw, [readWord]⟩,
  ⟨0x00BC, .chmk, [readWord]⟩,
  ⟨0x00BD, .chme, [readWord]⟩,
  ⟨0x00BE, .chms, [readWord]⟩,
  ⟨0x00BF, .chmu, [readWord]⟩,
  ⟨0x00C0, .addl2, [readLong, modifyLong]⟩,
  ⟨0x00C6, .divl2, [readLong, modifyLong]⟩,
  ⟨0x00FA, .callg, [addressByte, addressByte]⟩,
  ⟨0x00FB, .calls, [readLong, addressByte]⟩]

/-- The row of an opcode's number, if the table has one. -/
def rowOfCode (code : Word) : Option OpcodeRow := opcodeTable.find? fun r => r.code == code

/-- The number of an opcode (R83, R84). -/
def Opcode.code (o : Opcode) : Word :=
  match opcodeTable.find? fun r => r.op == o with
  | some r => r.code
  | none => 0

/-- The operands of an opcode (R83). -/
def Opcode.operands (o : Opcode) : List OperandKind :=
  match opcodeTable.find? fun r => r.op == o with
  | some r => r.operands
  | none => []

/-- FD, FE and FF announce a two-byte opcode; every other first byte is a whole opcode (R71). -/
def announcesSecondByte (op0 : Byte) : Bool := op0 == 0xFD || op0 == 0xFE || op0 == 0xFF

/-- An opcode's bytes in memory order (R71, R84). -/
def Opcode.bytes (o : Opcode) : List Byte :=
  let op0 := o.code.extractLsb' 0 8
  if announcesSecondByte op0 then [op0, o.code.extractLsb' 8 8] else [op0]

/-- The instruction of an opcode and its operand specifiers. -/
def Opcode.build : Opcode → List Specifier → Option Instr
  | .reservedFFFF, [] => some .reservedFFFF
  | .xfc, [] => some .xfc
  | .nop, [] => some .nop
  | .rei, [] => some .rei
  | .bpt, [] => some .bpt
  | .ret, [] => some .ret
  | .index, [a, b, c, d, e, f] => some (.index a b c d e f)
  | .polyf, [a, b, c] => some (.polyf a b c)
  | .polyd, [a, b, c] => some (.polyd a b c)
  | .polyg, [a, b, c] => some (.polyg a b c)
  | .polyh, [a, b, c] => some (.polyh a b c)
  | .bispsw, [a] => some (.bispsw a)
  | .chmk, [a] => some (.chmk a)
  | .chme, [a] => some (.chme a)
  | .chms, [a] => some (.chms a)
  | .chmu, [a] => some (.chmu a)
  | .addl2, [a, b] => some (.addl2 a b)
  | .divl2, [a, b] => some (.divl2 a b)
  | .callg, [a, b] => some (.callg a b)
  | .calls, [a, b] => some (.calls a b)
  | _, _ => none

/-- The opcode and operand specifiers of a native instruction; none for a compatibility-mode one. -/
def Instr.native : Instr → Option (Opcode × List Specifier)
  | .reservedFFFF => some (.reservedFFFF, [])
  | .xfc => some (.xfc, [])
  | .nop => some (.nop, [])
  | .rei => some (.rei, [])
  | .bpt => some (.bpt, [])
  | .ret => some (.ret, [])
  | .index a b c d e f => some (.index, [a, b, c, d, e, f])
  | .polyf a b c => some (.polyf, [a, b, c])
  | .polyd a b c => some (.polyd, [a, b, c])
  | .polyg a b c => some (.polyg, [a, b, c])
  | .polyh a b c => some (.polyh, [a, b, c])
  | .bispsw a => some (.bispsw, [a])
  | .chmk a => some (.chmk, [a])
  | .chme a => some (.chme, [a])
  | .chms a => some (.chms, [a])
  | .chmu a => some (.chmu, [a])
  | .addl2 a b => some (.addl2, [a, b])
  | .divl2 a b => some (.divl2, [a, b])
  | .callg a b => some (.callg, [a, b])
  | .calls a b => some (.calls, [a, b])
  | .bptCompat => none
  | .iotCompat => none
  | .emtCompat _ => none
  | .trapCompat _ => none

/-- The first `n` bytes and the rest; none where there are fewer. -/
def takeBytes (n : Nat) (bs : List Byte) : Option (List Byte × List Byte) :=
  if bs.length < n then none else some (bs.take n, bs.drop n)

/-- The register field of a specifier byte, bits 3:0 (R75). -/
def specReg (b : Byte) : Reg := (b.extractLsb' 0 4).toFin

/-- The mode field of a specifier byte, bits 7:4 (R75). -/
def specMode (b : Byte) : Nat := (b.extractLsb' 4 4).toNat

/-- A specifier that carries `n` bytes after its first. -/
def decodeExtension (n : Nat) (rest : List Byte) (mk : List Byte → BaseSpec) : Option (BaseSpec × List Byte) :=
  match takeBytes n rest with
  | some (ext, rest') => some (mk ext, rest')
  | none => none

/-- A base specifier for an operand of type `t` (R75's table); none where the bytes run out. Mode 4, the index byte,
is `decodeSpec`'s. -/
def decodeBase (t : OpType) : List Byte → Option (BaseSpec × List Byte)
  | [] => none
  | b :: rest =>
    let r := specReg b
    match specMode b with
    | 5 => some (.register r, rest)
    | 6 => some (.deferred r, rest)
    | 7 => some (.autodecrement r, rest)
    | 8 =>
      if r = 15 then decodeExtension t.size rest fun ext => .immediate (leOcta ext)
      else some (.autoincrement r, rest)
    | 9 =>
      if r = 15 then decodeExtension 4 rest fun ext => .absolute (leLong ext)
      else some (.autoincrementDeferred r, rest)
    | 10 => decodeExtension 1 rest fun ext => .byteDisp r (BitVec.ofNat 8 (leNat ext))
    | 11 => decodeExtension 1 rest fun ext => .byteDispDeferred r (BitVec.ofNat 8 (leNat ext))
    | 12 => decodeExtension 2 rest fun ext => .wordDisp r (leWord ext)
    | 13 => decodeExtension 2 rest fun ext => .wordDispDeferred r (leWord ext)
    | 14 => decodeExtension 4 rest fun ext => .longDisp r (leLong ext)
    | 15 => decodeExtension 4 rest fun ext => .longDispDeferred r (leLong ext)
    | _ => some (.literal (b.extractLsb' 0 6), rest)

/-- An operand specifier for an operand of type `t`; none where the bytes run out. One of two index prefixes is whole after
these two bytes, whatever follows: the spec does not give its length (DESIGN CHOICE, log 50). -/
def decodeSpec (t : OpType) : List Byte → Option (Specifier × List Byte)
  | [] => none
  | b :: rest =>
    if specMode b = 4 then
      match rest with
      | [] => none
      | b' :: rest' =>
        if specMode b' = 4 then some (.indexedTwice (specReg b) (specReg b'), rest')
        else
          match decodeBase t (b' :: rest') with
          | some (base, rest'') => some (.indexed (specReg b) base, rest'')
          | none => none
    else
      match decodeBase t (b :: rest) with
      | some (base, rest') => some (.plain base, rest')
      | none => none

/-- Operand specifiers in operand order: all of them, or those that are whole before the bytes run out. -/
inductive DecodedSpecs where
  | whole (l : List Specifier) (rest : List Byte)
  | cut (l : List Specifier)
deriving DecidableEq, Repr

/-- The operand specifiers of an instruction (R70, R75). -/
def decodeSpecs : List OperandKind → List Byte → DecodedSpecs
  | [], bs => .whole [] bs
  | k :: ks, bs =>
    match decodeSpec k.type bs with
    | none => .cut []
    | some (sp, rest) =>
      match decodeSpecs ks rest with
      | .whole l rest' => .whole (sp :: l) rest'
      | .cut l => .cut (sp :: l)

/-- What bytes decode to. -/
inductive Decoded where
  /-- An instruction, and the bytes after it. -/
  | instr (i : Instr) (rest : List Byte)
  /-- The bytes run out inside the instruction: after an opcode of `opLen` bytes (0: inside the opcode) with the
  operands `kinds`, of which the specifiers `specs` are whole. -/
  | cut (opLen : Nat) (kinds : List OperandKind) (specs : List Specifier)
  /-- A native opcode with no row in the table (R79: refused, never guessed to be reserved), and the bytes after it. -/
  | unknownOpcode (code : Word) (opLen : Nat) (rest : List Byte)
  /-- A compatibility-mode word with no row (R81, R185). -/
  | unknownCompatWord (w : Word)
deriving DecidableEq, Repr

/-- A native instruction whose opcode, of `opLen` bytes, has been read (R70). -/
def decodeAfterOpcode (code : Word) (opLen : Nat) (rest : List Byte) : Decoded :=
  match rowOfCode code with
  | none => .unknownOpcode code opLen rest
  | some row =>
    match decodeSpecs row.operands rest with
    | .cut l => .cut opLen row.operands l
    | .whole l rest' =>
      match row.op.build l with
      | some i => .instr i rest'
      | none => .unknownOpcode code opLen rest

/-- A native instruction (R70 to R76). -/
def decodeNative : List Byte → Decoded
  | [] => .cut 0 [] []
  | op0 :: rest =>
    if announcesSecondByte op0 then
      match rest with
      | [] => .cut 0 [] []
      | op1 :: rest' => decodeAfterOpcode (op1 ++ op0) 2 rest'
    else decodeAfterOpcode (op0.setWidth 16) 1 rest

/-- A compatibility-mode instruction word (R81, R83). -/
def decodeCompatWord (w : Word) : Option Instr :=
  if w = 0x0003 then some .bptCompat
  else if w = 0x0004 then some .iotCompat
  else if w.extractLsb' 8 8 = 0x88#8 then some (.emtCompat (w.extractLsb' 0 8))
  else if w.extractLsb' 8 8 = 0x89#8 then some (.trapCompat (w.extractLsb' 0 8))
  else none

/-- A compatibility-mode instruction: one word, low byte first (R51, R81). -/
def decodeCompat : List Byte → Decoded
  | b0 :: b1 :: rest =>
    match decodeCompatWord (b1 ++ b0) with
    | some i => .instr i rest
    | none => .unknownCompatWord (b1 ++ b0)
  | _ => .cut 0 [] []

/-- The decoder: `compat` is PSL.CM, which selects the instruction set (R81). -/
def decode (compat : Bool) (bs : List Byte) : Decoded :=
  if compat then decodeCompat bs else decodeNative bs

/-- A specifier byte from its mode and register fields (R75). -/
def specByte (mode : BitVec 4) (r : Reg) : Byte := mode ++ (BitVec.ofFin r : BitVec 4)

/-- The bytes of a base specifier for an operand of type `t` (R75). -/
def encodeBase (t : OpType) : BaseSpec → List Byte
  | .literal v => [v.setWidth 8]
  | .register r => [specByte 5 r]
  | .deferred r => [specByte 6 r]
  | .autodecrement r => [specByte 7 r]
  | .autoincrement r => [specByte 8 r]
  | .immediate v => specByte 8 15 :: leBytes t.size v.toNat
  | .autoincrementDeferred r => [specByte 9 r]
  | .absolute a => specByte 9 15 :: leBytes 4 a.toNat
  | .byteDisp r d => specByte 10 r :: leBytes 1 d.toNat
  | .byteDispDeferred r d => specByte 11 r :: leBytes 1 d.toNat
  | .wordDisp r d => specByte 12 r :: leBytes 2 d.toNat
  | .wordDispDeferred r d => specByte 13 r :: leBytes 2 d.toNat
  | .longDisp r d => specByte 14 r :: leBytes 4 d.toNat
  | .longDispDeferred r d => specByte 15 r :: leBytes 4 d.toNat

/-- The bytes of an operand specifier. -/
def encodeSpec (t : OpType) : Specifier → List Byte
  | .plain b => encodeBase t b
  | .indexed x b => specByte 4 x :: encodeBase t b
  | .indexedTwice x y => [specByte 4 x, specByte 4 y]

/-- How many bytes a base specifier takes (R75). -/
def BaseSpec.length (t : OpType) : BaseSpec → Nat
  | .literal _ => 1
  | .register _ => 1
  | .deferred _ => 1
  | .autodecrement _ => 1
  | .autoincrement _ => 1
  | .immediate _ => 1 + t.size
  | .autoincrementDeferred _ => 1
  | .absolute _ => 5
  | .byteDisp _ _ => 2
  | .byteDispDeferred _ _ => 2
  | .wordDisp _ _ => 3
  | .wordDispDeferred _ _ => 3
  | .longDisp _ _ => 5
  | .longDispDeferred _ _ => 5

/-- How many bytes an operand specifier takes. -/
def Specifier.length (t : OpType) : Specifier → Nat
  | .plain b => b.length t
  | .indexed _ b => 1 + b.length t
  | .indexedTwice _ _ => 2

/-- The bytes of the operand specifiers in operand order. -/
def encodeSpecs : List OperandKind → List Specifier → List Byte
  | k :: ks, sp :: sps => encodeSpec k.type sp ++ encodeSpecs ks sps
  | _, _ => []

/-- The word of a compatibility-mode instruction (R83); 0 for a native one. -/
def Instr.compatWord : Instr → Word
  | .bptCompat => 0x0003
  | .iotCompat => 0x0004
  | .emtCompat code => 0x88#8 ++ code
  | .trapCompat code => 0x89#8 ++ code
  | _ => 0

/-- The bytes of an instruction in memory order (R70, R72, R81). -/
def encode (i : Instr) : List Byte :=
  match i.native with
  | some (op, specs) => op.bytes ++ encodeSpecs op.operands specs
  | none => leBytes 2 i.compatWord.toNat

/-- The length of an instruction in bytes (R80). -/
def Instr.length (i : Instr) : Nat := (encode i).length

/-- How many bytes the step reads of the instruction stream at most: more than the longest instruction of the table
has (log 42). -/
def fetchSpan : Nat := 128

/-- The bytes of an instruction given as a number, bit 0 the least significant bit of the first byte, every
byte above `nbits` zero (30_encoding.md R84). -/
def tableBytes (nbits w : Nat) : List Byte := leBytes (nbits / 8) w ++ List.replicate fetchSpan 0

/-- Whether a number of the opcode table is a compatibility-mode word: 16 bits wide and one of the four rows of format
CM16. No native row has these bits in two opcode bytes (R83, R84; log 44). -/
def isCompatRow (nbits w : Nat) : Bool := nbits == 16 && (decodeCompatWord (BitVec.ofNat 16 w)).isSome

/-- The instruction the decoder reads from an instruction numbered as the opcode table numbers it. -/
def decodeTableWord (nbits w : Nat) : Option Instr :=
  match decode (isCompatRow nbits w) (tableBytes nbits w) with
  | .instr i _ => some i
  | _ => none

end Sys2Proof
end

