-- ==== Sys2Proof/Machine/Ops.lean ====
section
/-! DEFINITION. Taking an exception, as ONE operation (`initiate`, 60_exceptions.md R236), with the vectors, stacks,
frames and new PSL it uses, how traps and faults raise it (43_trace.md R210 to R212), and the return from one (REI,
43_trace.md R218). -/

namespace Sys2Proof.Machine

open Sys2Proof

/-- The type codes 1 to 7 of Table E-1 (40_arithmetic_exceptions.md R101). -/
def ArithTrap.code : ArithTrap → Longword
  | .integerOverflow => 1
  | .integerDivideByZero => 2
  | .floatingOverflow => 3
  | .divideByZero => 4
  | .floatingUnderflow => 5
  | .decimalOverflow => 6
  | .subscriptRange => 7

/-- The type codes 8 to 10 of Table E-1 (R101). -/
def ArithFault.code : ArithFault → Longword
  | .floatingOverflow => 8
  | .floatingDivideByZero => 9
  | .floatingUnderflow => 10

/-- The type codes of Table E-2 (42_instruction_execution_exceptions.md R172). -/
def CompatEvent.code : CompatEvent → Longword
  | .reservedOpcode => 0
  | .bpt => 1
  | .iot => 2
  | .emt => 3
  | .trap => 4
  | .illegalInstruction => 5
  | .oddAddress => 6

/-- `V_EMUL_FAULT`, the one offset besides the printed CB that the source fixes (R169). -/
def emulFaultOffset : Longword := 0xCC

/-- `Offset(E)`: the SCB offset of an exception's vector (60_exceptions.md R232, R235). -/
def Exc.offset (v : VectorOffsets) : Exc → Longword
  | .arithmeticTrap _ => v.arith
  | .arithmeticFault _ => v.arith
  | .memory .accessControlViolation _ _ => v.acv
  | .memory .translationNotValid _ _ => v.tnv
  | .reservedAddressingMode => v.resaddr
  | .reservedOperand => v.resop
  | .reservedOrPrivilegedInstruction => v.respriv
  | .customerReservedOpcode => v.xfc
  | .subsetEmulationTrap => v.emulTrap
  | .suspendedEmulationFault => emulFaultOffset
  | .compatibilityMode _ => v.compat
  | .changeMode .kernel _ => v.chmk
  | .changeMode .executive _ => v.chme
  | .changeMode .supervisor _ => v.chms
  | .changeMode .user _ => v.chmu
  | .breakpoint => v.bpt
  | .traceFault => v.trace

/-- The two emulation exceptions, which change neither stack nor mode (42_instruction_execution_exceptions.md R170). -/
def Exc.isEmulation : Exc → Bool
  | .subsetEmulationTrap => true
  | .suspendedEmulationFault => true
  | _ => false

/-- What a vector's bits 1:0 say (60_exceptions.md R235). -/
inductive VectorCode where
  | kernelStack | interruptStack | writableControlStore | reserved
deriving DecidableEq, Repr

/-- The code of a vector (R235). -/
def vectorCode (v : Longword) : VectorCode :=
  let b := v.extractLsb' 0 2
  if b = 0 then .kernelStack else if b = 1 then .interruptStack
  else if b = 2 then .writableControlStore else .reserved

/-- The routine's address in a vector: `v[31:2] ++ 0b00` (R236). -/
def vectorTarget (v : Longword) : Longword := v.extractLsb' 2 30 ++ 0#2

/-- The mode a service routine runs in: for CHMx the more privileged of the current mode and the target
(R174), for the emulation exceptions the current one, for every other exception kernel (60_exceptions.md R238). -/
def Exc.newMode (cur : Mode) : Exc → Mode
  | .changeMode target _ => mostPrivileged cur target
  | .subsetEmulationTrap => cur
  | .suspendedEmulationFault => cur
  | _ => .kernel

/-- SERVICE_STACK (60_exceptions.md R239): the stack in use for the emulation exceptions, the stack of the mode entered
for CHMx, else the interrupt stack when on it or when the vector says so, else the kernel stack. -/
def serviceStack (e : Exc) (psl : Psl) (code : VectorCode) : StackId :=
  match e with
  | .subsetEmulationTrap => psl.stack
  | .suspendedEmulationFault => psl.stack
  | .changeMode target _ => stackOfMode (mostPrivileged psl.cur target)
  | _ => if psl.is || code == .interruptStack then .interrupt else .kernel

/-- NEW_PSL (60_exceptions.md R238): everything cleared but the mode fields, IS and IPL. PRV is the saved mode, unchanged
for the emulation exceptions, and kernel (0) when the routine runs on the interrupt stack. Where both of these apply, an
emulation exception taken with IS set, PRV is unchanged (DESIGN CHOICE, log 24). -/
def newPsl (e : Exc) (saved : Psl) (code : VectorCode) (stack : StackId) : Psl where
  c := false
  v := false
  z := false
  n := false
  t := false
  iv := false
  fu := false
  dv := false
  ipl := saved.ipl
  prv := if e.isEmulation then saved.prv else if stack = .interrupt then .kernel else saved.cur
  cur := e.newMode saved.cur
  is := saved.is || code == .interruptStack
  fpd := false
  tp := false
  cm := false

/-- The parameters of a memory management fault, MM_PARAMS, in push order (41_memory_and_operand_exceptions.md R141). -/
def memoryParams (form : MmParams) (f : MemFault) (va : Longword) (access : Access) (mode : Mode) : List Longword :=
  match form with
  | .addressAndFaultWord => [va, Config.faultParameterWord f va access mode]
  | .nothing => []
  | .uninterpreted => Config.mmParamList f va access mode

/-- What an exception pushes besides PSL and PC, in push order (60_exceptions.md R232, column "pushed"; R234). -/
def Exc.params (e : Exc) (s : State) : List Longword :=
  match e with
  | .arithmeticTrap c => [c.code]
  | .arithmeticFault c => [c.code]
  | .memory f va access => memoryParams s.config.mmParams f va access s.psl.cur
  | .compatibilityMode ev => [ev.code]
  | .changeMode _ code => [code.signExtend 32]
  | _ => []

/-- The whole frame in push order (60_exceptions.md R236, R237): the saved PSL, the saved PC, the parameters. The subset
emulation trap pushes EMUL_FRAME in its place (R168). -/
def Exc.frame (e : Exc) (savedPc : Longword) (savedPsl : Psl) (s : State) : List Longword :=
  match e with
  | .subsetEmulationTrap => Config.emulFrame s.draws
  | _ => savedPsl.pack :: savedPc :: e.params s

/-- The pushes of `Initiate` from stack pointer `sp` down, made in the mode entered (R236, R272 item 2; log 21): the new
pointer and the state with the memory written. What an instruction fetch may still see of them is `enterRoutine`'s. -/
def State.pushFrame (s : State) (mode : Mode) : List Longword → Longword → Except Stop (Longword × State)
  | [], sp => .ok (sp, s)
  | v :: vs, sp =>
    match s.writeBytes mode (leBytes 4 v.toNat) (sp - 4) with
    | .error e => .error e
    | .ok s' => s'.pushFrame mode vs (sp - 4)

/-- The vector of an exception: one longword of the SCB, read without translation (R235). -/
def State.vector (s : State) (e : Exc) : Longword := s.physicalLong (s.scbb + e.offset s.config.vectors)

/-- `Initiate` once its vector's code is known to be handled: the frame is pushed on the service stack, the new PSL and
the routine's address are taken (60_exceptions.md R236). The frame is a store like any other: until the next REI an instruction
fetch may see the bytes it has replaced (20_memory.md R60; log 22). -/
def enterRoutine (e : Exc) (savedPc : Longword) (savedPsl : Psl) (s : State) : Answer :=
  let v := s.vector e
  let stack := serviceStack e s.psl (vectorCode v)
  let frame := e.frame savedPc savedPsl s
  match s.pushFrame (e.newMode s.psl.cur) frame (s.sps.get stack) with
  | .error _ => .fault .servicePushFault
  | .ok (sp, s') =>
    .next { s' with
      sps := s'.sps.set stack sp
      psl := newPsl e savedPsl (vectorCode v) stack
      pc := vectorTarget v
      staleCode := s.oldCells (e.newMode s.psl.cur) (4 * frame.length) sp ++ s.staleCode }

/-- `Initiate` (60_exceptions.md R236): every exception of the spec. -/
def initiate (e : Exc) (savedPc : Longword) (savedPsl : Psl) (s : State) : Answer :=
  if e = .customerReservedOpcode ∧ s.config.xfcMicrocode = true then .refused .customerMicrocode
  else
    match vectorCode (s.vector e) with
    | .writableControlStore => .refused .writableControlStore
    | .reserved => .fault .reservedVectorCode
    | .kernelStack => enterRoutine e savedPc savedPsl s
    | .interruptStack => enterRoutine e savedPc savedPsl s

/-- A fault or abort of the instruction at `s.pc`, `s` being the state at its start: the saved PC is its address, the saved
PSL is the one of its start with TP clear (43_trace.md R210). So it is for a reserved operand fault of an instruction one of
whose wide register operands reaches the PC: that this is no use of the PC after which
41_memory_and_operand_exceptions.md R148 has the saved PC drawn is the model's choice (DESIGN CHOICE, log 14). -/
def raiseFault (e : Exc) (s : State) : Answer := initiate e s.pc { s.psl with tp := false } s

/-- The PSL a floating fault saves: N, Z, V, C are draws, TP is clear, FPD is set when POLYx is suspended
(40_arithmetic_exceptions.md R112 to R115, R117). -/
def floatingFaultPsl (suspend : Bool) (s : State) : Psl :=
  { s.psl with
    n := s.drawnBit 0, z := s.drawnBit 1, v := s.drawnBit 2, c := s.drawnBit 3
    tp := false, fpd := s.psl.fpd || suspend }

/-- A floating fault of the instruction at `s.pc` (R112 to R114). The progress of a POLYx that it suspends is held nowhere: the
source does not name where it is (10_state.md R39, N12), and R0 to R13 are as at the instruction's start (DESIGN CHOICE,
log 46). -/
def raiseFloatingFault (c : ArithFault) (suspend : Bool) (s : State) : Answer :=
  initiate (.arithmeticFault c) s.pc (floatingFaultPsl suspend s) (s.advanceDraws 4)

/-- A trap after an instruction that has completed in `s`: the saved PC is the next instruction's, the saved PSL is the
PSL at its end, TP as it stands (43_trace.md R211, 60_exceptions.md R231). -/
def raiseTrap (e : Exc) (s : State) : Answer := initiate e s.pc s.psl s

/-- The trace fault (43_trace.md R209 phase A, R212): `s` is at the start of an instruction with TP set. -/
def raiseTrace (s : State) : Answer :=
  initiate .traceFault s.pc { s.psl with tp := false } (s.setPsl { s.psl with tp := false })

/-- An instruction that did not complete, `s` being the state at its start. -/
def raiseStop (s : State) : Stop → Answer
  | .fault e => raiseFault e s
  | .floatingFault c suspend => raiseFloatingFault c suspend s
  | .refused r => .refused r

/-- An instruction that ran to its end. -/
inductive Completion where
  /-- Normally: `s.pc` is the next instruction (43_trace.md R209). -/
  | done (s : State)
  /-- With a trap: `s.pc` is the next instruction (60_exceptions.md R231). -/
  | trap (e : Exc) (s : State)

/-- What an instruction that began in `s` answers (43_trace.md R209 phase C). -/
def conclude (s : State) : Except Stop Completion → Answer
  | .error st => raiseStop s st
  | .ok (.done s') => .next s'
  | .ok (.trap e s') => raiseTrap e s'

/-- REI (43_trace.md R218): pop PC and PSL from the current stack; a more privileged mode raises the reserved operand fault,
IS or IPL set is refused (D37); TP becomes the popped TP or the T the REI began with (R214); later instruction fetches see
every earlier store (20_memory.md R60). -/
def returnFromException (s : State) : Except Stop Completion :=
  match s.readLong s.sp with
  | .error e => .error e
  | .ok newPc =>
    match s.readLong (s.sp + 4) with
    | .error e => .error e
    | .ok w =>
      let saved := Psl.unpack w
      if morePrivileged saved.cur s.psl.cur then .error (.fault .reservedOperand)
      else if saved.is || saved.ipl != 0 then .error (.refused .reiInterruptState)
      else
        .ok (.done { s.setSp (s.sp + 8) with
          psl := { saved with tp := saved.tp || s.psl.tp }
          pc := newPc
          staleCode := [] })

end Sys2Proof.Machine
end

