-- ==== Sys2Proof/Machine/Operands.lean ====
section
/-! DEFINITION. Operand specifiers: every form of 30_encoding.md R75, with the reserved combinations of R78. -/

namespace Sys2Proof.Machine

open Sys2Proof

/-- Where an operand is. A short literal is nowhere that can be written. -/
inductive Place where
  | literal
  | reg (r : Reg)
  | mem (a : Longword)
deriving DecidableEq, Repr

/-- An evaluated operand: its value (for an address operand, the address), its place, the address after its
specifier, and the state after its register side effects. -/
structure Evaluated where
  value : Octaword
  place : Place
  next : Longword
  state : State

/-- The value as a longword, a word. -/
def Evaluated.long (e : Evaluated) : Longword := e.value.setWidth 32
def Evaluated.word (e : Evaluated) : Word := e.value.setWidth 16

end Sys2Proof.Machine

namespace Sys2Proof

/-- The floating type of an operand type, if it is one. -/
def OpType.float : OpType → Option FloatType
  | .ffloat => some .f
  | .dfloat => some .d
  | .gfloat => some .g
  | .hfloat => some .h
  | _ => none

/-- The operand type of a floating type. -/
def FloatType.opType : FloatType → OpType
  | .f => .ffloat
  | .d => .dfloat
  | .g => .gfloat
  | .h => .hfloat

end Sys2Proof

namespace Sys2Proof.Machine

open Sys2Proof

/-- The exponent field of a floating value, in its first word: bits 14:7 of F and D, 14:4 of G, 14:0 of H (PRESUMED; the
spec places the sign only: 40_arithmetic_exceptions.md R105; log 19). -/
def floatExponent (t : FloatType) (v : Octaword) : Nat :=
  match t with
  | .f => (v.extractLsb' 7 8).toNat
  | .d => (v.extractLsb' 7 8).toNat
  | .g => (v.extractLsb' 4 11).toNat
  | .h => (v.extractLsb' 0 15).toNat

/-- The sign of a floating value: bit 15 of its first word (R105, G19). -/
def floatSign (v : Octaword) : Bool := v.getLsbD 15

/-- A reserved operand: sign 1 and exponent 0, whatever the fraction (R105). -/
def isReservedFloat (t : FloatType) (v : Octaword) : Bool := floatSign v && floatExponent t v == 0

/-- A floating zero divisor: sign 0 and exponent 0 (R122). -/
def isFloatZero (t : FloatType) (v : Octaword) : Bool := !floatSign v && floatExponent t v == 0

/-- `ResOp(t)`, the reserved operand a trap stores: the word 8000 (hex), then zeros (R105). -/
def reservedFloat : Octaword := 0x8000

/-- How many registers a register operand takes (log 16). -/
def regCount (t : OpType) : Nat := (t.size + 3) / 4

/-- Whether a register operand of type `t` at register `r` reaches the PC: register 15 itself, or, for one of 8 or 16 bytes,
a register so near below it (log 14). -/
def reachesPc (t : OpType) (r : Reg) : Bool := decide (15 ≤ r.val + (regCount t - 1))

/-- `n` registers from `r` up as one value, register `r` lowest. -/
def State.readRegs (s : State) : Nat → Reg → Nat
  | 0, _ => 0
  | n + 1, r => (s.getReg r).toNat + 2 ^ 32 * s.readRegs n (r + 1)

/-- `n` registers from `r` up written with one value. -/
def State.writeRegs (s : State) : Nat → Reg → Nat → State
  | 0, _, _ => s
  | n + 1, r, v => (s.setReg r (BitVec.ofNat 32 v)).writeRegs n (r + 1) (v / 2 ^ 32)

/-- A register operand's value: the low-order `size` bytes. -/
def State.readRegOperand (s : State) (t : OpType) (r : Reg) : Octaword :=
  BitVec.ofNat 128 (s.readRegs (regCount t) r % 256 ^ t.size)

/-- A register operand that reaches the PC, read: the registers up to R14, then a free value (log 14). `next` is the address
after its specifier. -/
def State.readPastRegs (s : State) (t : OpType) (r : Reg) (next : Longword) : Octaword :=
  let below := 15 - r.val
  BitVec.ofNat 128
    ((s.readRegs below r + 2 ^ (32 * below) * (Config.pcOperand s.draws next).toNat) % 256 ^ t.size)

/-- A register operand written: a byte or word leaves the register's other bits as they were (log 16). -/
def State.writeRegOperand (s : State) (t : OpType) (r : Reg) (v : Octaword) : State :=
  let keep := s.readRegs (regCount t) r / 256 ^ t.size * 256 ^ t.size
  s.writeRegs (regCount t) r (keep + v.toNat % 256 ^ t.size)

/-- A register operand that reaches the PC, written: the registers up to R14 take their parts, the PC becomes a free value
(log 14), of which a read of the operand uses no bit. `s.pc` is the address after the instruction. -/
def State.writePastRegs (s : State) (r : Reg) (v : Octaword) : State :=
  (s.writeRegs (15 - r.val) r v.toNat).setPc ((Config.pcOperand s.draws s.pc).extractLsb' 96 32)

/-- The value at a place; `next` is the address after the operand's specifier. -/
def State.readPlace (s : State) (t : OpType) (next : Longword) : Place → Except Stop Octaword
  | .literal => .ok 0
  | .reg r => .ok (if reachesPc t r then s.readPastRegs t r next else s.readRegOperand t r)
  | .mem a => (s.readBytes s.psl.cur t.size a).map leOcta

/-- A result written to a place. A literal is never a place to write: `evalOperand` has faulted (R78). -/
def State.writePlace (s : State) (t : OpType) (v : Octaword) : Place → Except Stop State
  | .literal => .ok s
  | .reg r => .ok (if reachesPc t r then s.writePastRegs r v else s.writeRegOperand t r v)
  | .mem a => s.store (leBytes t.size v.toNat) a

/-- The base of a displacement: a register, or for register 15 the address after the specifier (R75; log 17). -/
def State.displacementBase (s : State) (r : Reg) (next : Longword) : Longword :=
  if r = 15 then next else s.getReg r

/-- The address a memory form names and the state after its register side effects; `next` is the address after the
specifier. The literal and register forms have no address; the PC in register deferred and autodecrement mode is
UNPREDICTABLE and refused (R78, U5). -/
def baseAddress (t : OpType) (b : BaseSpec) (next : Longword) (s : State) : Except Stop (Longword × State) :=
  match b with
  | .literal _ => .error (.fault .reservedAddressingMode)
  | .register _ => .error (.fault .reservedAddressingMode)
  | .deferred r =>
    if r = 15 then .error (.refused .unpredictablePcOperand) else .ok (s.getReg r, s)
  | .autodecrement r =>
    if r = 15 then .error (.refused .unpredictablePcOperand)
    else
      let a := s.getReg r - BitVec.ofNat 32 t.size
      .ok (a, s.setReg r a)
  | .autoincrement r =>
    if r = 15 then .error (.refused .unpredictablePcOperand)
    else .ok (s.getReg r, s.setReg r (addrAdd (s.getReg r) t.size))
  | .immediate _ => .ok (next - BitVec.ofNat 32 t.size, s)
  | .autoincrementDeferred r =>
    if r = 15 then .error (.refused .unpredictablePcOperand)
    else (s.readLong (s.getReg r)).map fun a => (a, s.setReg r (addrAdd (s.getReg r) 4))
  | .absolute a => .ok (a, s)
  | .byteDisp r d => .ok (s.displacementBase r next + d.signExtend 32, s)
  | .byteDispDeferred r d =>
    (s.readLong (s.displacementBase r next + d.signExtend 32)).map fun a => (a, s)
  | .wordDisp r d => .ok (s.displacementBase r next + d.signExtend 32, s)
  | .wordDispDeferred r d =>
    (s.readLong (s.displacementBase r next + d.signExtend 32)).map fun a => (a, s)
  | .longDisp r d => .ok (s.displacementBase r next + d, s)
  | .longDispDeferred r d => (s.readLong (s.displacementBase r next + d)).map fun a => (a, s)

/-- Whether a value read as an operand of type `t` is a reserved operand, "an operand whose value is checked on access"
(60_exceptions.md R242 phase 4; 40_arithmetic_exceptions.md R125). -/
def readsReserved (t : OpType) (v : Octaword) : Bool :=
  match t.float with
  | some ft => isReservedFloat ft v
  | none => false

/-- An operand whose value has been read: the reserved operand fault where it is a reserved operand. R125 counts the members
of classes FLT, FDIV and POLYx and leaves open whether another instruction that reads a floating operand counts; here every
floating operand that is read counts, so that of a class INT instruction too (PRESUMED, log 47). -/
def checkedOperand (k : OperandKind) (v : Octaword) (p : Place) (next : Longword) (s : State) : Except Stop Evaluated :=
  if readsReserved k.type v then .error (.fault .reservedOperand) else .ok ⟨v, p, next, s⟩

/-- The access an operand's kind asks for at a place. -/
def accessPlace (k : OperandKind) (p : Place) (next : Longword) (s : State) : Except Stop Evaluated :=
  match k.access with
  | .write => .ok ⟨0, p, next, s⟩
  | .address =>
    match p with
    | .mem a => .ok ⟨a.setWidth 128, p, next, s⟩
    | _ => .error (.fault .reservedAddressingMode)
  | .read | .modify =>
    match s.readPlace k.type next p with
    | .error e => .error e
    | .ok v => checkedOperand k v p next s

/-- The access to an immediate operand. It follows in the instruction stream (R75), so that where it is read its value is the
one that was fetched, old bytes or new (20_memory.md R60); its place is where it stands. -/
def accessImmediate (k : OperandKind) (v : Octaword) (next : Longword) (s : State) : Except Stop Evaluated :=
  let p := Place.mem (next - BitVec.ofNat 32 k.type.size)
  match k.access with
  | .read | .modify => checkedOperand k v p next s
  | _ => accessPlace k p next s

/-- Evaluate the operand specifier at `pos` (30_encoding.md R75 to R78; 60_exceptions.md R242 phase 4). A form that is both one
R78 lists as a fault and a use of the PC that it calls UNPREDICTABLE and not a fault raises the fault: register mode of the
PC with the address taken, an index byte before register mode of the PC, the PC as index register before register
deferred or autodecrement mode of the PC (DESIGN CHOICE, log 14). -/
def evalOperand (k : OperandKind) (sp : Specifier) (pos : Longword) (s : State) : Except Stop Evaluated :=
  let next := addrAdd pos (sp.length k.type)
  match sp with
  | .plain (.literal v) =>
    match k.access with
    | .read => .ok ⟨v.setWidth 128, .literal, next, s⟩
    | _ => .error (.fault .reservedAddressingMode)
  | .plain (.register r) =>
    if k.access = .address then .error (.fault .reservedAddressingMode)
    else if r = 15 then .error (.refused .unpredictablePcOperand)
    else accessPlace k (.reg r) next s
  | .plain (.immediate v) => accessImmediate k v next s
  | .plain b =>
    match baseAddress k.type b next s with
    | .error e => .error e
    | .ok (a, s') => accessPlace k (.mem a) next s'
  | .indexed x b =>
    if x = 15 then .error (.fault .reservedAddressingMode)
    else
      match baseAddress k.type b next s with
      | .error e => .error e
      | .ok (a, s') => accessPlace k (.mem (a + s.getReg x * BitVec.ofNat 32 k.type.size)) next s'
  | .indexedTwice _ _ => .error (.fault .reservedAddressingMode)

/-- Evaluate operand specifiers in operand order, the first at `pos`: the evaluated operands, the address after the last
and the state after them. -/
def evalOperands : List OperandKind → List Specifier → Longword → State → Except Stop (List Evaluated × Longword × State)
  | k :: ks, sp :: sps, pos, s =>
    match evalOperand k sp pos s with
    | .error e => .error e
    | .ok o =>
      match evalOperands ks sps o.next o.state with
      | .error e => .error e
      | .ok (os, next, s') => .ok (o :: os, next, s')
  | _, _, pos, s => .ok ([], pos, s)

end Sys2Proof.Machine
end

