-- ==== Sys2Proof/Machine/Classes.lean ====
section
/-! DEFINITION. The instruction classes INT, IDIV, FLT, FDIV, DEC and DDIV (40_arithmetic_exceptions.md R118 to R125): what
turns an exact outcome into stored result, condition codes and exception; and `execClass`, which runs an opcode that
the configuration makes a member of a class, with the oracles of Config (log 35, 36). -/

namespace Sys2Proof.Machine

open Sys2Proof

/-- The value of the low-order bits of an operand as a signed integer of its type. -/
def signedValue (t : OpType) (v : Octaword) : Int :=
  let bits := 8 * t.size
  if signBit bits v.toNat then (v.toNat % 2 ^ bits : Int) - 2 ^ bits else (v.toNat % 2 ^ bits : Int)

/-- The value of the low-order bits of an operand as an unsigned integer of its type. -/
def unsignedValue (t : OpType) (v : Octaword) : Nat := v.toNat % 2 ^ (8 * t.size)

/-- Store a result, set the condition codes, and complete normally. -/
def storeResult (t : OpType) (v : Octaword) (cc : CondCodes) (dst : Place) (s : State) : Except Stop State :=
  match s.writePlace t v dst with
  | .error e => .error e
  | .ok s' => .ok (s'.setCodes cc)

/-- Class INT (R119): the low-order part is stored, N and Z follow it, V says whether it overflowed, and an overflow traps
when PSL.IV is set. -/
def classInt (t : OpType) (correct : Int) (c : Bool) (dst : Place) (s : State) : Except Stop Completion :=
  let bits := 8 * t.size
  match storeResult t (BitVec.ofNat 128 (lowOrder bits correct)) (integerCodes bits correct c) dst s with
  | .error e => .error e
  | .ok s' =>
    if !fitsSigned bits correct && s.psl.iv then .ok (.trap (.arithmeticTrap .integerOverflow) s')
    else .ok (.done s')

/-- Class IDIV (R120, R103): a zero divisor stores the dividend and traps whatever PSL.IV is; otherwise the quotient,
rounded toward zero, goes through class INT with C clear. -/
def classIdiv (t : OpType) (dividend divisor : Octaword) (dst : Place) (s : State) : Except Stop Completion :=
  if unsignedValue t divisor = 0 then
    match storeResult t dividend (divideByZeroCodes (8 * t.size) dividend.toNat) dst s with
    | .error e => .error e
    | .ok s' => .ok (.trap (.arithmeticTrap .integerDivideByZero) s')
  else classInt t ((signedValue t dividend).tdiv (signedValue t divisor)) false dst s

/-- A floating result that a trap or a disabled underflow stores. -/
def floatTrap (t : FloatType) (v : Octaword) (cc : CondCodes) (trap : Option ArithTrap) (dst : Place) (s : State) :
    Except Stop Completion :=
  match storeResult t.opType v cc dst s with
  | .error e => .error e
  | .ok s' =>
    match trap with
    | some c => .ok (.trap (.arithmeticTrap c) s')
    | none => .ok (.done s')

/-- Class FLT (R121; R104, R108, R112, R114, R116): a trap stores the reserved operand or zero, a fault stores nothing;
underflow is reported only when PSL.FU is set. -/
def classFlt (t : FloatType) (outcome : FloatOutcome) (dst : Place) (s : State) : Except Stop Completion :=
  match outcome with
  | .reserved => .error (.fault .reservedOperand)
  | .normal bits cc => floatTrap t bits cc none dst s
  | .overflow =>
    match s.config.floatStyle with
    | .trap => floatTrap t reservedFloat overflowCodes (some .floatingOverflow) dst s
    | .fault => .error (.floatingFault .floatingOverflow false)
  | .underflow =>
    if s.psl.fu then
      match s.config.floatStyle with
      | .trap => floatTrap t 0 underflowCodes (some .floatingUnderflow) dst s
      | .fault => .error (.floatingFault .floatingUnderflow false)
    else floatTrap t 0 underflowCodes none dst s

/-- Class FDIV (R122; R106, R113): reserved operands first, then the zero divisor, then class FLT. -/
def classFdiv (t : FloatType) (dividend divisor : Octaword) (outcome : FloatOutcome) (dst : Place) (s : State) :
    Except Stop Completion :=
  if isReservedFloat t dividend || isReservedFloat t divisor then .error (.fault .reservedOperand)
  else if isFloatZero t divisor then
    match s.config.floatStyle with
    | .trap => floatTrap t reservedFloat overflowCodes (some .divideByZero) dst s
    | .fault => .error (.floatingFault .floatingDivideByZero false)
  else classFlt t outcome dst s

/-- How many bytes a decimal string of `len` digits takes (PRESUMED packed decimal; log 36). -/
def decimalSize (len : Nat) : Nat := len / 2 + 1

/-- R0 to R(n-1) given free values, from the `i`-th on. A decimal-string instruction writes R0 to R5 with values the source
does not state (10_state.md R21; log 36). -/
def State.drawRegs (s : State) : Nat → Reg → Nat → State
  | 0, _, _ => s
  | n + 1, r, i => (s.setReg r (s.drawn i)).drawRegs n (r + 1) (i + 1)

/-- What a decimal-string instruction leaves in R0 to R5: free values (10_state.md R21; log 36). -/
def State.drawStringRegs (s : State) : State := (s.drawRegs 6 0 0).advanceDraws 6

/-- Class DEC (R123, R110): the low-order digits that fit are stored with the sign, V says whether all fitted, and an
overflow traps when PSL.DV is set. `len` and `addr` name the destination string. -/
def classDec (o : DecOutcome) (len : Nat) (addr : Longword) (s : State) : Except Stop Completion :=
  let overflowed := decide (10 ^ len ≤ o.magnitude)
  let bytes := (List.range (decimalSize len)).map fun i => Config.decimalByte o.negative (o.magnitude % 10 ^ len) len i
  match s.store bytes addr with
  | .error e => .error e
  | .ok s' =>
    let s'' := s'.drawStringRegs.setCodes ⟨o.n, o.z, overflowed, o.c⟩
    if overflowed && s.psl.dv then .ok (.trap (.arithmeticTrap .decimalOverflow) s'') else .ok (.done s'')

/-- Class DDIV (R124, R107): a zero divisor, of either sign, leaves every destination byte, R0 to R5 and the condition codes
free, and traps; otherwise the quotient goes through class DEC. -/
def classDdiv (divisor : DecimalString) (o : DecOutcome) (len : Nat) (addr : Longword) (s : State) :
    Except Stop Completion :=
  if Config.decimalIsZero divisor then
    let size := decimalSize len
    match s.store ((List.range size).map fun i => (s.drawn (10 + i)).setWidth 8) addr with
    | .error e => .error e
    | .ok s' =>
      .ok (.trap (.arithmeticTrap .divideByZero)
        (((s'.drawRegs 6 0 0).setCodes ⟨s.drawnBit 6, s.drawnBit 7, s.drawnBit 8, s.drawnBit 9⟩).advanceDraws
          (10 + size)))
  else classDec o len addr s

end Sys2Proof.Machine

namespace Sys2Proof

/-- The operand positions of a decimal string: its length and its address (log 36). -/
def stringOperands : List OperandKind := [readWord, addressByte]

/-- The operand positions of a source. -/
def ClassSource.operands : ClassSource → List OperandKind
  | .scalar t => [⟨.read, t⟩]
  | .string => stringOperands

/-- Whether a class writes a decimal string. -/
def ClassKind.isDecimal : ClassKind → Bool
  | .dec => true
  | .ddiv => true
  | _ => false

/-- Whether a class instruction is a decimal-string instruction: it reads or writes a decimal string. -/
def ClassOp.usesStrings (c : ClassOp) : Bool := c.kind.isDecimal || c.sources.contains .string

/-- The operand positions of a class instruction: the sources, then the destination. -/
def ClassOp.operands (c : ClassOp) : List OperandKind :=
  c.sources.flatMap ClassSource.operands ++
    (if c.kind.isDecimal then stringOperands else [⟨if c.modify then .modify else .write, c.dest⟩])

end Sys2Proof

namespace Sys2Proof.Machine

open Sys2Proof

/-- A decimal string operand read: a length over 31, and a string with an invalid digit or sign nibble, raise the reserved
operand fault (R149). Both are detected once every specifier has been evaluated, string by string, the destination last
(DESIGN CHOICE, log 36). -/
def readString (len addr : Evaluated) (s : State) : Except Stop DecimalString :=
  if 31 < len.word.toNat then .error (.fault .reservedOperand)
  else
    match s.readBytes s.psl.cur (decimalSize len.word.toNat) addr.long with
    | .error e => .error e
    | .ok bs =>
      let str : DecimalString := ⟨len.word.toNat, bs⟩
      if Config.decimalIsInvalid str then .error (.fault .reservedOperand) else .ok str

/-- The inputs of a class instruction from its evaluated sources, in order: the scalar values, the strings, and the evaluated
operands that are left. -/
def gatherSources : List ClassSource → List Evaluated → State →
    Except Stop (List Octaword × List DecimalString × List Evaluated)
  | .scalar _ :: ss, o :: os, s =>
    match gatherSources ss os s with
    | .error e => .error e
    | .ok (vs, strs, left) => .ok (o.value :: vs, strs, left)
  | .string :: ss, len :: addr :: os, s =>
    match readString len addr s with
    | .error e => .error e
    | .ok str =>
      match gatherSources ss os s with
      | .error e => .error e
      | .ok (vs, strs, left) => .ok (vs, str :: strs, left)
  | _, os, _ => .ok ([], [], os)

/-- A class instruction with a specifier as destination: INT, IDIV (divisor first, then the dividend), FLT and FDIV. `strs` are
its decimal string sources, which a division has none of; where it has any, R0 to R5 become free values before the destination
is written (10_state.md R21; DESIGN CHOICE, log 36). -/
def runScalarClass (c : ClassOp) (vs : List Octaword) (strs : List DecimalString) (dst : Evaluated) (s : State) :
    Except Stop Completion :=
  let drawn := if strs.isEmpty then s else s.drawStringRegs
  let inputs := if c.modify then vs ++ [dst.value] else vs
  match c.kind, c.dest.float, inputs, strs with
  | .int, none, _, _ =>
    let o := Config.intOutcome c.opcode inputs strs
    classInt c.dest o.correct o.carry dst.place drawn
  | .idiv, none, divisor :: dividend :: _, [] => classIdiv c.dest dividend divisor dst.place s
  | .flt, some t, _, _ => classFlt t (Config.floatOutcome c.opcode inputs strs) dst.place drawn
  | .fdiv, some t, divisor :: dividend :: _, [] =>
    classFdiv t dividend divisor (Config.floatOutcome c.opcode inputs []) dst.place s
  | _, _, _, _ => .error (.refused .malformedClass)

/-- A class instruction with a decimal string as destination: DEC, and DDIV with the divisor first. -/
def runStringClass (c : ClassOp) (vs : List Octaword) (strs : List DecimalString) (len addr : Evaluated) (s : State) :
    Except Stop Completion :=
  if 31 < len.word.toNat then .error (.fault .reservedOperand)
  else
    match (if c.modify then (readString len addr s).map fun old => strs ++ [old] else .ok strs) with
    | .error e => .error e
    | .ok inputs =>
      let o := Config.decOutcome c.opcode vs inputs len.word.toNat
      match c.kind, inputs with
      | .ddiv, divisor :: _ => classDdiv divisor o len.word.toNat addr.long s
      | .dec, _ => classDec o len.word.toNat addr.long s
      | _, _ => .error (.refused .malformedClass)

/-- An instruction of a class, `opLen` bytes of opcode and the given specifiers (R118). A decimal-string instruction, of
whatever class, entered with FPD set is refused, its bytes having been fetched (U20, N12; log 32). -/
def execClass (c : ClassOp) (opLen : Nat) (specs : List Specifier) (s : State) : Answer :=
  if c.usesStrings && s.psl.fpd then .refused .resumeSuspended
  else
    conclude s <|
      match evalOperands c.operands specs (addrAdd s.pc opLen) s with
      | .error e => .error e
      | .ok (os, next, s') =>
        match gatherSources c.sources os s' with
        | .error e => .error e
        | .ok (vs, strs, left) =>
          match c.kind.isDecimal, left with
          | true, [len, addr] => runStringClass c vs strs len addr (s'.setPc next)
          | false, [dst] => runScalarClass c vs strs dst (s'.setPc next)
          | _, _ => .error (.refused .malformedClass)

end Sys2Proof.Machine
end

