-- ==== Sys2Proof/Machine/Arithmetic.lean ====
section
/-! DEFINITION. The integer instructions: ADDL2 and DIVL2, the members of classes INT and IDIV that the opcode table
has (40_arithmetic_exceptions.md R126, R127), and INDEX (R111). -/

namespace Sys2Proof.Machine

open Sys2Proof

/-- The carry out of bit 31 of the unsigned sum of two longwords (R126). -/
def carryOut (a b : Longword) : Bool := decide (2 ^ 32 ≤ a.toNat + b.toNat)

/-- ADDL2 add.rl, sum.ml (R126): class INT of the sum. -/
def execAddl2 (add sum : Specifier) (s : State) : Answer :=
  conclude s <| do
    let a ← evalOperand readLong add (addrAdd s.pc 1) s
    let b ← evalOperand modifyLong sum a.next a.state
    classInt .long (b.long.toInt + a.long.toInt) (carryOut b.long a.long) b.place (b.state.setPc b.next)

/-- DIVL2 divr.rl, quo.ml (R127): class IDIV, the dividend in quo. -/
def execDivl2 (divr quo : Specifier) (s : State) : Answer :=
  conclude s <| do
    let a ← evalOperand readLong divr (addrAdd s.pc 1) s
    let b ← evalOperand modifyLong quo a.next a.state
    classIdiv .long b.value a.value b.place (b.state.setPc b.next)

/-- INDEX's result, `(indexin + subscript) * size` modulo 2^32 (R111). -/
def indexResult (subscript size indexin : Longword) : Longword := (indexin + subscript) * size

/-- INDEX's condition codes, "as if the subscript were within range" (R111). -/
def indexCodes (r : Longword) : CondCodes := ⟨r.msb, r == 0, false, false⟩

/-- The subscript fails the range check: lower than low or greater than high, signed (R111). -/
def outOfRange (subscript low high : Longword) : Bool :=
  decide (subscript.toInt < low.toInt) || decide (high.toInt < subscript.toInt)

/-- INDEX subscript.rl, low.rl, high.rl, size.rl, indexin.rl, indexout.wl (R111): the result is stored and the codes set
whether or not the subscript is in range; then an out of range subscript traps. -/
def execIndex (subscript low high size indexin indexout : Specifier) (s : State) : Answer :=
  conclude s <| do
    let a ← evalOperand readLong subscript (addrAdd s.pc 1) s
    let b ← evalOperand readLong low a.next a.state
    let c ← evalOperand readLong high b.next b.state
    let d ← evalOperand readLong size c.next c.state
    let e ← evalOperand readLong indexin d.next d.state
    let f ← evalOperand writeLong indexout e.next e.state
    let r := indexResult a.long d.long e.long
    let s' ← storeResult .long (r.setWidth 128) (indexCodes r) f.place (f.state.setPc f.next)
    if outOfRange a.long b.long c.long then
      .ok (.trap (.arithmeticTrap .subscriptRange) s')
    else .ok (.done s')

end Sys2Proof.Machine
end

