-- ==== Sys2Proof/Machine/Call.lean ====
section
/-! DEFINITION. CALLS, CALLG and RET (43_trace.md R216, R220 to R222). The source fixes that the saved status has T clear and
that PSL.T is unchanged; the rest of the frame is the family's, from the outline in R220 (PRESUMED, log 33, 34). -/

namespace Sys2Proof.Machine

open Sys2Proof

/-- The argument pointer is R12 and the frame pointer R13: no rule numbers them (PRESUMED, log 33). -/
def apReg : Reg := 12
def fpReg : Reg := 13

/-- The status longword of a call frame: bits 31:30 the two low bits of SP, bit 29 whether CALLS, bit 28 zero, bits 27:16 the
register mask, bits 15:5 those of the PSL, bits 4:0 zero (R220, D38; log 33). -/
def callStatus (isCalls : Bool) (align : BitVec 2) (mask : Word) (p : Psl) : Longword :=
  align ++ BitVec.ofBool isCalls ++ 0#1 ++ mask.extractLsb' 0 12 ++ 0#8 ++ p.lowByte.extractLsb' 5 3 ++ 0#5

/-- Push the registers named by the low-order bits of an entry mask, from R(n-1) down to R0 (R220). -/
def pushRegisters (mask : Word) : Nat → State → Except Stop State
  | 0, s => .ok s
  | n + 1, s =>
    if mask.getLsbD n then
      match s.push (s.getReg (Fin.ofNat 16 n)) with
      | .error e => .error e
      | .ok s' => pushRegisters mask n s'
    else pushRegisters mask n s

/-- Push longwords in order. -/
def pushAll : List Longword → State → Except Stop State
  | [], s => .ok s
  | v :: vs, s =>
    match s.push v with
    | .error e => .error e
    | .ok s' => pushAll vs s'

/-- The PSL in a procedure: N, Z, V, C and FU clear, IV and DV from bits 14 and 15 of the entry mask, T unchanged
(R216, R220). -/
def procedurePsl (mask : Word) (p : Psl) : Psl :=
  { p with n := false, z := false, v := false, c := false, fu := false, iv := mask.getLsbD 14, dv := mask.getLsbD 15 }

/-- The procedure call (R220, R221): the entry mask at `dst` is checked, the stack aligned, the registers, the return PC
`next`, FP, AP, the status longword and a zero condition handler pushed; FP and AP are set and the procedure entered
after its mask. `ap` is the argument list's address. -/
def callProcedure (isCalls : Bool) (ap dst next : Longword) (mask : Word) (s : State) : Except Stop Completion := do
  let aligned := s.setSp (s.sp &&& 0xFFFFFFFC)
  let saved ← pushRegisters mask 12 aligned
  let framed ← pushAll
    [next, s.getReg fpReg, s.getReg apReg, callStatus isCalls (s.sp.extractLsb' 0 2) mask s.psl, 0] saved
  .ok (.done ((((framed.setReg fpReg framed.sp).setReg apReg ap).setPsl (procedurePsl mask s.psl)).setPc (addrAdd dst 2)))

/-- The entry mask at a procedure's address; bits 13:12 set raise the reserved operand fault (R149, R220). -/
def entryMask (dst : Longword) (s : State) : Except Stop Word :=
  match s.readWord dst with
  | .error e => .error e
  | .ok m => if m.extractLsb' 12 2 = 0#2 then .ok m else .error (.fault .reservedOperand)

/-- CALLG arglist.ab, dst.ab (R221). -/
def execCallg (arglist dst : Specifier) (s : State) : Answer :=
  conclude s <| do
    let a ← evalOperand addressByte arglist (addrAdd s.pc 1) s
    let d ← evalOperand addressByte dst a.next a.state
    let mask ← entryMask d.long d.state
    callProcedure false a.long d.long d.next mask d.state

/-- CALLS numarg.rl, dst.ab (R220): as CALLG, with the argument count pushed before the frame and the argument list beginning
there. The entry mask is read and checked before that push, where R220's outline names the push first (DESIGN CHOICE,
log 33). -/
def execCalls (numarg dst : Specifier) (s : State) : Answer :=
  conclude s <| do
    let a ← evalOperand readLong numarg (addrAdd s.pc 1) s
    let d ← evalOperand addressByte dst a.next a.state
    let mask ← entryMask d.long d.state
    let s' ← d.state.push a.long
    callProcedure true s'.sp d.long d.next mask s'

/-- Pop a longword (20_memory.md R52). -/
def State.pop (s : State) : Except Stop (Longword × State) :=
  match s.readLong s.sp with
  | .error e => .error e
  | .ok v => .ok (v, s.setSp (s.sp + 4))

/-- Pop the registers named by a mask, `n` of them from R(i) up (R222). -/
def popRegisters (mask : Word) : Nat → Nat → State → Except Stop State
  | 0, _, s => .ok s
  | n + 1, i, s =>
    if mask.getLsbD i then
      match s.pop with
      | .error e => .error e
      | .ok (v, s') => popRegisters mask n (i + 1) (s'.setReg (Fin.ofNat 16 i) v)
    else popRegisters mask n (i + 1) s

/-- Remove the argument list of a CALLS frame: its count, of which the low byte counts longwords, and the arguments
(R222; log 34). -/
def removeArguments (s : State) : Except Stop State :=
  match s.pop with
  | .error e => .error e
  | .ok (count, s') => .ok (s'.setSp (s'.sp + 4 * (count.extractLsb' 0 8).setWidth 32))

/-- A saved status longword that RET accepts: bits 15:8 zero (R222), and bit 28, the one reserved bit of the saved mask
(41_memory_and_operand_exceptions.md R149; log 34). -/
def acceptableStatus (status : Longword) : Bool := status.extractLsb' 8 8 == 0#8 && !status.getLsbD 28

/-- RET (R222): SP from FP past the condition handler; the status longword popped, one that is not acceptable raising the
reserved operand fault before anything more is popped (DESIGN CHOICE, log 34); AP, FP and PC popped, the registers restored,
the alignment undone, a CALLS argument list removed; the PSW, with T, from the status. -/
def execRet (s : State) : Answer :=
  conclude s <| do
    let (status, s1) ← (s.setSp (s.getReg fpReg + 4)).pop
    if !acceptableStatus status then .error (.fault .reservedOperand)
    else
      let (ap, s2) ← s1.pop
      let (fp, s3) ← s2.pop
      let (pc, s4) ← s3.pop
      let s5 ← popRegisters ((status.extractLsb' 16 12).setWidth 16) 12 0 s4
      let s6 := s5.setSp (s5.sp + (status.extractLsb' 30 2).setWidth 32)
      let s7 ← if status.getLsbD 29 then removeArguments s6 else .ok s6
      .ok (.done ((((s7.setReg fpReg fp).setReg apReg ap).setPsl (s7.psl.withPsw (status.setWidth 16))).setPc pc))

end Sys2Proof.Machine
end

