-- ==== Sys2Proof/Machine/Compat.lean ====
section
/-! DEFINITION. The compatibility-mode instructions BPT, IOT, EMT and TRAP
(42_instruction_execution_exceptions.md R186 to R189): each raises the compatibility mode exception with its code. -/

namespace Sys2Proof.Machine

open Sys2Proof

/-- BPT in compatibility mode, code 1 (R186). -/
def execBptCompat (s : State) : Answer := conclude s (.error (.fault (.compatibilityMode .bpt)))

/-- IOT, code 2 (R187). -/
def execIotCompat (s : State) : Answer := conclude s (.error (.fault (.compatibilityMode .iot)))

/-- EMT, code 3 (R188). The instruction's own code is not pushed; the routine reads it through the saved PC. -/
def execEmtCompat (_code : Byte) (s : State) : Answer := conclude s (.error (.fault (.compatibilityMode .emt)))

/-- TRAP, code 4 (R189). The instruction's own code is not pushed. -/
def execTrapCompat (_code : Byte) (s : State) : Answer := conclude s (.error (.fault (.compatibilityMode .trap)))

end Sys2Proof.Machine
end

