-- ==== Sys2Proof/Machine/Poly.lean ====
section
/-! DEFINITION. POLYF, POLYD, POLYG and POLYH (40_arithmetic_exceptions.md R115, R109, R112, R114). The evaluation is the
oracle `PolyEval`; its exception behaviour is the spec's (log 29 to 32). -/

namespace Sys2Proof.Machine

open Sys2Proof

/-- A coefficient of the table: a floating operand like any other (R125). -/
def readCoefficient (t : FloatType) (a : Longword) (s : State) : Except Stop Octaword :=
  match s.readBytes s.psl.cur t.opType.size a with
  | .error e => .error e
  | .ok bs => if isReservedFloat t (leOcta bs) then .error (.fault .reservedOperand) else .ok (leOcta bs)

/-- How the evaluation ends without a fault: with a final result, and whether an enabled underflow happened on the way
(R109), or in an overflow that traps. -/
inductive PolyEnd where
  | final (r : Octaword) (underflowed : Bool)
  | overflow

/-- The steps of the evaluation (R115): each reads the next coefficient; an overflow, or an underflow with FU set, suspends
the instruction on a processor that faults; an underflow otherwise makes the intermediate result zero. -/
def polySteps (t : FloatType) (arg : Octaword) (s : State) :
    Nat → Longword → Octaword → Bool → Except Stop PolyEnd
  | 0, _, acc, und => .ok (.final acc und)
  | n + 1, a, acc, und =>
    match readCoefficient t a s with
    | .error e => .error e
    | .ok coeff =>
      let a' := addrAdd a t.opType.size
      match Config.polyStep t arg acc coeff with
      | .normal r => polySteps t arg s n a' r und
      | .overflow =>
        match s.config.floatStyle with
        | .fault => .error (.floatingFault .floatingOverflow true)
        | .trap => .ok .overflow
      | .underflow =>
        if s.psl.fu then
          match s.config.floatStyle with
          | .fault => .error (.floatingFault .floatingUnderflow true)
          | .trap => polySteps t arg s n a' 0 true
        else polySteps t arg s n a' 0 und

/-- How many of R0 and the following registers hold the result. -/
def polyResultRegs (t : FloatType) : Nat := regCount t.opType

/-- How many registers after the result POLYx leaves with values the spec does not state (log 30). -/
def polyOtherRegs (t : FloatType) : Nat :=
  match t with
  | .f => 3
  | .d => 4
  | .g => 4
  | .h => 2

/-- The result in R0 and the following registers, the condition codes, and free values in the registers whose contents the
spec does not state (R115; log 30). -/
def polyStore (t : FloatType) (r : Octaword) (cc : CondCodes) (s : State) : State :=
  let first : Reg := Fin.ofNat 16 (polyResultRegs t)
  (((s.writeRegs (polyResultRegs t) 0 r.toNat).drawRegs (polyOtherRegs t) first 0).advanceDraws
    (polyOtherRegs t)).setCodes cc

/-- POLYx after its operands (R115): the degree counts the steps; a degree over 31 raises the reserved operand fault
(R149; log 29). -/
def polyEvaluate (t : FloatType) (arg : Octaword) (degree : Word) (table : Longword) (s : State) :
    Except Stop Completion :=
  if 31 < degree.toNat then .error (.fault .reservedOperand)
  else
    match readCoefficient t table s with
    | .error e => .error e
    | .ok c0 =>
      match polySteps t arg s degree.toNat (addrAdd table t.opType.size) c0 false with
      | .error e => .error e
      | .ok .overflow =>
        .ok (.trap (.arithmeticTrap .floatingOverflow) (polyStore t reservedFloat overflowCodes s))
      | .ok (.final r und) =>
        let s' := polyStore t r (Config.polyFlags t r) s
        if und then .ok (.trap (.arithmeticTrap .floatingUnderflow) s') else .ok (.done s')

/-- POLYx arg.rx, degree.rw, tbladdr.ab with an opcode of `opLen` bytes; entered with FPD set it is refused
(R115, U20). -/
def polyInstruction (t : FloatType) (opLen : Nat) (arg degree tbladdr : Specifier) (s : State) : Answer :=
  if s.psl.fpd then .refused .resumeSuspended
  else
    conclude s <| do
      let a ← evalOperand ⟨.read, t.opType⟩ arg (addrAdd s.pc opLen) s
      let b ← evalOperand readWord degree a.next a.state
      let c ← evalOperand addressByte tbladdr b.next b.state
      polyEvaluate t a.value b.word c.long (c.state.setPc c.next)

/-- POLYF (R115), opcode 55. -/
def execPolyf (arg degree tbladdr : Specifier) (s : State) : Answer := polyInstruction .f 1 arg degree tbladdr s

/-- POLYD (R115), opcode 75. -/
def execPolyd (arg degree tbladdr : Specifier) (s : State) : Answer := polyInstruction .d 1 arg degree tbladdr s

/-- POLYG (R115), opcode FD 55. -/
def execPolyg (arg degree tbladdr : Specifier) (s : State) : Answer := polyInstruction .g 2 arg degree tbladdr s

/-- POLYH (R115), opcode FD 75. -/
def execPolyh (arg degree tbladdr : Specifier) (s : State) : Answer := polyInstruction .h 2 arg degree tbladdr s

end Sys2Proof.Machine
end

