-- ==== Sys2Proof/Machine/System.lean ====
section
/-! DEFINITION. NOP, REI and BISPSW (43_trace.md R217 to R219), the reserved opcode, XFC, BPT and the change mode instructions
(42_instruction_execution_exceptions.md R162 to R165, R174 to R180). -/

namespace Sys2Proof.Machine

open Sys2Proof

/-- FFFF (R162): the reserved or privileged instruction fault, in every mode. -/
def execReservedFFFF (s : State) : Answer := conclude s (.error (.fault .reservedOrPrivilegedInstruction))

/-- XFC (R163, R165): the opcode reserved to customers fault; `initiate` refuses where microcode handles it. -/
def execXfc (s : State) : Answer := conclude s (.error (.fault .customerReservedOpcode))

/-- NOP (R217). -/
def execNop (s : State) : Answer := conclude s (.ok (.done (s.setPc (addrAdd s.pc 1))))

/-- REI (R218). -/
def execRei (s : State) : Answer := conclude s (returnFromException s)

/-- BPT (R180): the breakpoint fault. -/
def execBpt (s : State) : Answer := conclude s (.error (.fault .breakpoint))

/-- BISPSW mask.rw (R219): the mask is ored into the PSW; mask bits 15:8 set raise the reserved operand fault. -/
def execBispsw (mask : Specifier) (s : State) : Answer :=
  conclude s <| do
    let a ← evalOperand readWord mask (addrAdd s.pc 1) s
    if a.word.extractLsb' 8 8 ≠ 0#8 then .error (.fault .reservedOperand)
    else .ok (.done ((a.state.setPsl (a.state.psl.orPsw a.word)).setPc a.next))

/-- CHMx code.rw (R174): the change mode trap to the mode `target`; on the interrupt stack it is refused (R179). -/
def changeMode (target : Mode) (code : Specifier) (s : State) : Answer :=
  if s.psl.is then .refused .changeModeOnInterruptStack
  else
    conclude s <| do
      let a ← evalOperand readWord code (addrAdd s.pc 1) s
      .ok (.trap (.changeMode target a.word) (a.state.setPc a.next))

/-- CHMK (R175). -/
def execChmk (code : Specifier) (s : State) : Answer := changeMode .kernel code s

/-- CHME (R176). -/
def execChme (code : Specifier) (s : State) : Answer := changeMode .executive code s

/-- CHMS (R177). -/
def execChms (code : Specifier) (s : State) : Answer := changeMode .supervisor code s

/-- CHMU (R178). -/
def execChmu (code : Specifier) (s : State) : Answer := changeMode .user code s

end Sys2Proof.Machine
end

