-- ==== Sys2Proof/Machine/Dispatch.lean ====
section
/-! DEFINITION. `exec`: one arm per instruction, each a direct call of its meaning. No instruction but REI changes FPD short of an
exception (DESIGN CHOICE, log 48). -/

namespace Sys2Proof.Machine

open Sys2Proof

def exec (i : Instr) (s : State) : Host.Outcome State Fault Refusal :=
  match i with
  | .reservedFFFF => Sys2Proof.Machine.execReservedFFFF s
  | .xfc => Sys2Proof.Machine.execXfc s
  | .nop => Sys2Proof.Machine.execNop s
  | .rei => Sys2Proof.Machine.execRei s
  | .bpt => Sys2Proof.Machine.execBpt s
  | .ret => Sys2Proof.Machine.execRet s
  | .index subscript low high size indexin indexout => Sys2Proof.Machine.execIndex subscript low high size indexin indexout s
  | .polyf arg degree tbladdr => Sys2Proof.Machine.execPolyf arg degree tbladdr s
  | .polyd arg degree tbladdr => Sys2Proof.Machine.execPolyd arg degree tbladdr s
  | .polyg arg degree tbladdr => Sys2Proof.Machine.execPolyg arg degree tbladdr s
  | .polyh arg degree tbladdr => Sys2Proof.Machine.execPolyh arg degree tbladdr s
  | .bispsw mask => Sys2Proof.Machine.execBispsw mask s
  | .chmk code => Sys2Proof.Machine.execChmk code s
  | .chme code => Sys2Proof.Machine.execChme code s
  | .chms code => Sys2Proof.Machine.execChms code s
  | .chmu code => Sys2Proof.Machine.execChmu code s
  | .addl2 add sum => Sys2Proof.Machine.execAddl2 add sum s
  | .divl2 divr quo => Sys2Proof.Machine.execDivl2 divr quo s
  | .callg arglist dst => Sys2Proof.Machine.execCallg arglist dst s
  | .calls numarg dst => Sys2Proof.Machine.execCalls numarg dst s
  | .bptCompat => Sys2Proof.Machine.execBptCompat s
  | .iotCompat => Sys2Proof.Machine.execIotCompat s
  | .emtCompat code => Sys2Proof.Machine.execEmtCompat code s
  | .trapCompat code => Sys2Proof.Machine.execTrapCompat code s

end Sys2Proof.Machine
end

