-- ==== Sys2Proof/Machine/Fetch.lean ====
section
/-! DEFINITION. What a step does before an instruction's meaning runs (43_trace.md R209): the trace that is owed, the
sampling of T, instruction fetch (20_memory.md R60, 42_instruction_execution_exceptions.md R184), decoding, and the opcodes
that are not instructions of the table (emulation exceptions, R166; class instructions, R118; refusals, R79, R185). -/

namespace Sys2Proof.Machine

open Sys2Proof

/-- The bytes an instruction fetch may see at a physical address: the byte in memory, and what it was before each store to it
since the last REI (20_memory.md R60). -/
def State.fetchCandidates (s : State) (pa : Longword) : List Byte :=
  s.physicalByte pa :: (s.staleCode.filter fun c => c.1 == pa.toNat).map Prod.snd

/-- Byte `k` of the instruction at `pc`, fetched: which of the candidates it is, a draw says (R60). -/
def State.fetchByte (s : State) (k : Nat) : Except Stop Byte :=
  match s.physical s.psl.cur .read (addrAdd s.pc k) with
  | .error e => .error e
  | .ok pa =>
    match s.fetchCandidates pa with
    | [b] => .ok b
    | l => .ok (l.getD ((s.drawn k).toNat % l.length) 0)

/-- The bytes from byte `k` on, `n` of them at most, up to the first that cannot be fetched; and why that one cannot
(where all can: that the instruction is longer than the step reads). -/
def State.fetchFrom (s : State) : Nat → Nat → List Byte × Stop
  | 0, _ => ([], .refused .instructionTooLong)
  | n + 1, k =>
    match s.fetchByte k with
    | .error e => ([], e)
    | .ok b =>
      let later := s.fetchFrom n (k + 1)
      (b :: later.1, later.2)

/-- The instruction stream at `pc`. -/
def State.fetchWindow (s : State) : List Byte × Stop := s.fetchFrom fetchSpan 0

/-- In compatibility mode the PC is odd: the odd address abort (R184). -/
def State.oddFetch (s : State) : Bool := s.psl.cm && s.pc.getLsbD 0

/-- The exception the fetch at `pc` would raise (R209 phase A, R207): the odd address abort, or a memory management fault on a
byte of the opcode (in compatibility mode, of the word); log 45. Where the page of an odd address would fault too, the spec
gives no order, and it is the odd address abort (DESIGN CHOICE, log 40). -/
def State.fetchFault (s : State) : Option Exc :=
  if s.oddFetch then some (.compatibilityMode .oddAddress)
  else
    match s.fetchByte 0 with
    | .error (.fault e) => some e
    | .error _ => none
    | .ok op0 =>
      if s.psl.cm || announcesSecondByte op0 then
        match s.fetchByte 1 with
        | .error (.fault e) => some e
        | _ => none
      else none

/-- How many free values `phaseA` has used once it has looked at the fetch: two bytes, and the order (log 9). -/
def traceDraws : Nat := 3

/-- Phase A with TP set (R209): the trace fault, unless the fetch at `pc` would fault too and the draw takes that fault
first; then its saved PSL keeps TP (R207). The free values of looking at the fetch have been used. -/
def traceOwed (s : State) : Answer :=
  match s.fetchFault with
  | none => raiseTrace (s.advanceDraws traceDraws)
  | some e =>
    if s.drawnBit 2 then initiate e s.pc s.psl (s.advanceDraws traceDraws)
    else raiseTrace (s.advanceDraws traceDraws)

/-- Phase B (R209): TP becomes T. -/
def State.sampleTrace (s : State) : State := s.setPsl { s.psl with tp := s.psl.t }

/-- The state in which an instruction that has been fetched runs: the free values of its fetch have been used. -/
def State.afterFetch (s : State) : State := s.advanceDraws fetchSpan

/-- An opcode of an omitted string instruction (42_instruction_execution_exceptions.md R166): FPD, read at the beginning of the
instruction, chooses between the two emulation exceptions. -/
def emulate (s : State) : Answer :=
  if s.psl.fpd then raiseFault .suspendedEmulationFault s
  else initiate .subsetEmulationTrap s.pc s.psl (s.advanceDraws 1)

/-- An instruction of which some bytes cannot be fetched: the operand specifiers before them are evaluated first, and if
none raises anything, the fetch does (60_exceptions.md R242 phase 4). So also for a POLYx or a decimal-string instruction
entered with FPD set, which is refused once its bytes have all been fetched (DESIGN CHOICE, log 32). -/
def cutShort (opLen : Nat) (kinds : List OperandKind) (specs : List Specifier) (why : Stop) (s : State) : Answer :=
  match evalOperands kinds specs (addrAdd s.pc opLen) s with
  | .error e => raiseStop s e
  | .ok _ => raiseStop s why

/-- A native opcode that is no row of the table: omitted string instructions, instructions of the configured classes, and the
rest, refused (R79, R166, R118). `rest` are the bytes after the opcode. -/
def otherOpcode (code : Word) (opLen : Nat) (rest : List Byte) (why : Stop) (s : State) : Answer :=
  if s.config.subsetOps.contains code then emulate s
  else
    match s.config.classOps.find? fun c => c.opcode == code with
    | none => .refused (.unknownOpcode code)
    | some c =>
      match decodeSpecs c.operands rest with
      | .whole specs _ => execClass c opLen specs s
      | .cut specs => cutShort opLen c.operands specs why s

/-- What a step has come to before an instruction of the table runs. -/
inductive Begun where
  /-- The step is over. -/
  | ended (a : Answer)
  /-- The instruction runs in the state. -/
  | run (i : Instr) (s : State)

/-- Phase C up to the instruction's meaning: fetch and decode (R209, R242 phases 2 and 3). In compatibility mode the odd address
is looked at before the page (DESIGN CHOICE, log 40). -/
def fetchInstruction (s : State) : Begun :=
  if s.oddFetch then .ended (raiseFault (.compatibilityMode .oddAddress) s)
  else
    match decode s.psl.cm s.fetchWindow.1 with
    | .instr i _ => .run i s.afterFetch
    | .cut opLen kinds specs => .ended (cutShort opLen kinds specs s.fetchWindow.2 s.afterFetch)
    | .unknownOpcode code opLen rest => .ended (otherOpcode code opLen rest s.fetchWindow.2 s.afterFetch)
    | .unknownCompatWord w => .ended (.refused (.unknownCompatWord w))

/-- The step up to an instruction's meaning (R209): phase A, phase B, then fetch and decode. -/
def beginStep (s : State) : Begun :=
  if s.psl.tp then .ended (traceOwed s) else fetchInstruction s.sampleTrace

/-- Bytes placed in physical memory from outside the machine, from the address `a` on. -/
def State.placeBytes (s : State) : List Byte → Longword → State
  | [], _ => s
  | b :: bs, a => (s.putByte a b).placeBytes bs (a + 1)

/-- The state whose next step fetches and runs the given instruction of the opcode table: its bytes stand at `pc`, zeros after
them; no trace is owed; PSL.CM is that of the row's format, and a compatibility-mode `pc` is even; every address translates
to itself and no older code is visible, so that the fetch sees the bytes (log 10). -/
def placeInstruction (s : State) (nbits w : Nat) : State :=
  let compat := isCompatRow nbits w
  let pc := if compat then s.pc &&& 0xFFFFFFFE else s.pc
  { s.placeBytes (tableBytes nbits w) pc with
    pc := pc
    psl := { s.psl with tp := false, cm := compat }
    translation := .regions []
    staleCode := [] }

end Sys2Proof.Machine
end

