-- ==== Sys2Proof/Machine/Step.lean ====
section
/-! DEFINITION. One step of the machine (43_trace.md R209). -/

namespace Sys2Proof.Machine

open Sys2Proof

/-- One step: what `beginStep` comes to, and where that is an instruction of the table, its meaning. -/
def step (s : State) : Host.Outcome State Fault Refusal :=
  match beginStep s with
  | .ended a => a
  | .run i s' => exec i s'

/-- `s` with an instruction of the opcode table placed where `step` fetches its next instruction. -/
def State.withFetchWord (s : State) (nbits w : Nat) : State := placeInstruction s nbits w

end Sys2Proof.Machine
end

