-- ==== Sys2Proof/Safety.lean ====
section
/-! DEFINITION. What counts as a safe run, and the words statements use: the invariant of the state, which accesses can be
made, what a store and an exception's entry leave. -/

namespace Sys2Proof.Machine

open Sys2Proof

/-- The step answers a next state. -/
def Answer.goesOn (a : Answer) : Prop := ∃ t, a = .next t

/-- The machine is not stuck in this state (60_exceptions.md R245: where it is, the real machine takes an exception no
source describes). -/
def notStuck (s : State) : Prop := ∀ f, step s ≠ .fault f

/-- The state invariant: memory is in its canonical form. -/
def State.wf (s : State) : Prop := Memory.wf s.mem = true

/-- What no step changes: the parameters of 00_scope.md R6, SCBB and the page table, which no instruction of the spec
writes (10_state.md R35, R36, R40). -/
def sameSetting (s t : State) : Prop :=
  t.config = s.config ∧ t.scbb = s.scbb ∧ t.translation = s.translation

/-- `Translate(va, _, _) = ok(va)` (20_memory.md R56). -/
def State.flat (s : State) : Prop := s.translation = .regions []

/-- The `n` bytes at `va` can be read, written in a mode: none of them faults (R56). -/
def State.canRead (s : State) (mode : Mode) (va : Longword) (n : Nat) : Prop :=
  ∀ i < n, ∃ pa, s.physical mode .read (addrAdd va i) = .ok pa
def State.canWrite (s : State) (mode : Mode) (va : Longword) (n : Nat) : Prop :=
  ∀ i < n, ∃ pa, s.physical mode .write (addrAdd va i) = .ok pa

/-- No two of the `n` bytes at `va` are written to one physical byte. -/
def State.separate (s : State) (mode : Mode) (va : Longword) (n : Nat) : Prop :=
  ∀ i < n, ∀ j < n, ∀ pa,
    s.physical mode .write (addrAdd va i) = .ok pa → s.physical mode .write (addrAdd va j) = .ok pa → i = j

/-- Every byte of memory that the `n` bytes at `va` are not written to reads in `t` as in `s`. -/
def memorySameOutside (mode : Mode) (va : Longword) (n : Nat) (s t : State) : Prop :=
  ∀ pa, (∀ i < n, s.physical mode .write (addrAdd va i) ≠ .ok pa) → t.physicalByte pa = s.physicalByte pa

/-- The bytes at `va`, as they are written, hold `bs` in `t`. -/
def memoryHolds (mode : Mode) (va : Longword) (bs : List Byte) (s t : State) : Prop :=
  ∀ i, (h : i < bs.length) → ∀ pa, s.physical mode .write (addrAdd va i) = .ok pa → t.physicalByte pa = bs[i]

/-- Every byte of memory reads in `t` as in `s`. -/
def memorySame (s t : State) : Prop := ∀ pa, t.physicalByte pa = s.physicalByte pa

/-- A result of type `t` can be written at a place. -/
def Place.writable (t : OpType) (s : State) : Place → Prop
  | .mem a => s.canWrite s.psl.cur a t.size
  | _ => True

/-- `s'` is `s` with the value `v` of type `t` stored at a place, in memory and the general registers, an instruction
fetch still seeing the old bytes too; register 15 is left to the statement. -/
def storedAt (t : OpType) (v : Octaword) (p : Place) (s s' : State) : Prop :=
  match p with
  | .literal => (∀ q, q ≠ 15 → s'.getReg q = s.getReg q) ∧ memorySame s s' ∧ s'.staleCode = s.staleCode
  | .reg r =>
    s'.readRegOperand t r = BitVec.ofNat 128 (v.toNat % 256 ^ t.size) ∧
    (∀ q : Reg, q ≠ 15 → (q.val < r.val ∨ r.val + regCount t ≤ q.val) → s'.getReg q = s.getReg q) ∧ memorySame s s' ∧
    s'.staleCode = s.staleCode
  | .mem a =>
    (∀ q, q ≠ 15 → s'.getReg q = s.getReg q) ∧ memorySameOutside s.psl.cur a t.size s s' ∧
    (s.wf → s.separate s.psl.cur a t.size → memoryHolds s.psl.cur a (leBytes t.size v.toNat) s s') ∧
    s'.staleCode = s.oldCells s.psl.cur t.size a ++ s.staleCode

/-- The PSL fields outside the condition codes are the same. -/
def sameControlBits (p q : Psl) : Prop := q.withCodes ⟨false, false, false, false⟩ = p.withCodes ⟨false, false, false, false⟩

/-- The PSL fields outside its low byte are the same: IPL, PRV, CUR, IS, FPD, TP, CM. -/
def sameHighPsl (p q : Psl) : Prop := q.withPsw 0 = p.withPsw 0

/-- The fields of a PSL are where PSL_LAYOUT has them in a longword (10_state.md R24), the modes numbered kernel 0, executive 1,
supervisor 2, user 3 (R33, decision D27). -/
structure pslLayout (p : Psl) (w : Longword) : Prop where
  c : w.getLsbD 0 = p.c
  v : w.getLsbD 1 = p.v
  z : w.getLsbD 2 = p.z
  n : w.getLsbD 3 = p.n
  t : w.getLsbD 4 = p.t
  iv : w.getLsbD 5 = p.iv
  fu : w.getLsbD 6 = p.fu
  dv : w.getLsbD 7 = p.dv
  ipl : w.extractLsb' 16 5 = p.ipl
  prv : w.extractLsb' 22 2 = match p.prv with | .kernel => 0#2 | .executive => 1#2 | .supervisor => 2#2 | .user => 3#2
  cur : w.extractLsb' 24 2 = match p.cur with | .kernel => 0#2 | .executive => 1#2 | .supervisor => 2#2 | .user => 3#2
  is : w.getLsbD 26 = p.is
  fpd : w.getLsbD 27 = p.fpd
  tp : w.getLsbD 30 = p.tp
  cm : w.getLsbD 31 = p.cm

/-- The stack pointers a PSL does not select are the same. -/
def sameOtherStacks (s t : State) : Prop := ∀ i, i ≠ s.psl.stack → t.sps.get i = s.sps.get i

/-- The exception `e` can be initiated in `s` (60_exceptions.md R236): its vector's code is 0 or 1, an XFC is not handled by
microcode, and the frame of `n` longwords can be pushed on the service stack. -/
structure canEnter (e : Exc) (n : Nat) (s : State) : Prop where
  notMicrocode : ¬ (e = .customerReservedOpcode ∧ s.config.xfcMicrocode = true)
  code : vectorCode (s.vector e) = .kernelStack ∨ vectorCode (s.vector e) = .interruptStack
  pushes : s.canWrite (e.newMode s.psl.cur)
    (s.sps.get (serviceStack e s.psl (vectorCode (s.vector e))) - BitVec.ofNat 32 (4 * n)) (4 * n)

/-- What taking the exception `e` with a frame makes of `s` (60_exceptions.md R236 to R239): the routine's address, the new
PSL field by field, the service stack with the frame on it (last pushed lowest), everything else as it was. -/
structure entered (e : Exc) (savedPsl : Psl) (frame : List Longword) (s t : State) : Prop where
  pc : t.pc = (s.vector e).extractLsb' 2 30 ++ 0#2
  cleared : t.psl.n = false ∧ t.psl.z = false ∧ t.psl.v = false ∧ t.psl.c = false ∧ t.psl.iv = false ∧ t.psl.fu = false ∧
    t.psl.dv = false ∧ t.psl.cm = false ∧ t.psl.fpd = false
  untraced : t.psl.t = false ∧ t.psl.tp = false
  cur : t.psl.cur = e.newMode savedPsl.cur
  prv : t.psl.prv =
    if e.isEmulation then savedPsl.prv
    else if serviceStack e s.psl (vectorCode (s.vector e)) = .interrupt then .kernel else savedPsl.cur
  is : t.psl.is = (savedPsl.is || vectorCode (s.vector e) == .interruptStack)
  ipl : t.psl.ipl = savedPsl.ipl
  sp : t.sps.get (serviceStack e s.psl (vectorCode (s.vector e))) =
    s.sps.get (serviceStack e s.psl (vectorCode (s.vector e))) - BitVec.ofNat 32 (4 * frame.length)
  otherStacks : ∀ i, i ≠ serviceStack e s.psl (vectorCode (s.vector e)) → t.sps.get i = s.sps.get i
  regs : t.regs = s.regs
  setting : sameSetting s t
  fetch : t.draws = s.draws ∧
    t.staleCode = s.oldCells (e.newMode s.psl.cur) (4 * frame.length)
      (s.sps.get (serviceStack e s.psl (vectorCode (s.vector e))) - BitVec.ofNat 32 (4 * frame.length)) ++ s.staleCode
  outside : memorySameOutside (e.newMode s.psl.cur)
    (s.sps.get (serviceStack e s.psl (vectorCode (s.vector e))) - BitVec.ofNat 32 (4 * frame.length))
    (4 * frame.length) s t
  contents : s.wf →
    s.separate (e.newMode s.psl.cur)
      (s.sps.get (serviceStack e s.psl (vectorCode (s.vector e))) - BitVec.ofNat 32 (4 * frame.length))
      (4 * frame.length) →
    memoryHolds (e.newMode s.psl.cur)
      (s.sps.get (serviceStack e s.psl (vectorCode (s.vector e))) - BitVec.ofNat 32 (4 * frame.length))
      (frame.reverse.flatMap fun v => leBytes 4 v.toNat) s t

/-- `w` is where an instruction that began in `s` ends when the value `v` of type `t` goes to its last operand `o` and the
condition codes become `cc`: the place holds the value, the next instruction follows the operand, nothing else has changed
since the operands were evaluated. -/
structure completed (t : OpType) (v : Octaword) (cc : CondCodes) (o : Evaluated) (s w : State) : Prop where
  stored : storedAt t v o.place o.state w
  pc : w.pc = o.next
  psl : w.psl = s.psl.withCodes cc
  otherStacks : sameOtherStacks s w
  setting : sameSetting s w
  draws : w.draws = s.draws
  wf : s.wf → w.wf

/-- What a polynomial's evaluation comes to: a result, and whether a step underflowed, or the step that ends it. -/
inductive PolyRun where
  | final (r : Octaword) (underflowed : Bool)
  | overflow
  | underflow
deriving DecidableEq, Repr

/-- The steps of R115 over the coefficients after the first, from an intermediate result on: an underflow's result is zero
(40_arithmetic_exceptions.md R109), unless it `stops` the evaluation. `step` is any oracle. -/
def polyRunFrom (step : Octaword → Octaword → PolyStep) (stops : Bool) (r : Octaword) (underflowed : Bool) :
    List Octaword → PolyRun
  | [] => .final r underflowed
  | c :: cs =>
    match step r c with
    | .normal r' => polyRunFrom step stops r' underflowed cs
    | .overflow => .overflow
    | .underflow => if stops then .underflow else polyRunFrom step stops 0 true cs

/-- The evaluation over all the coefficients, of which the first is the first intermediate result. -/
def polyRun (step : Octaword → Octaword → PolyStep) (stops : Bool) : List Octaword → PolyRun
  | [] => .final 0 false
  | c :: cs => polyRunFrom step stops c false cs

/-- The register that a specifier's evaluation steps, if any (30_encoding.md R75, modes 7, 8 and 9). -/
def steppedRegister : Specifier → Option Reg
  | .plain (.autodecrement r) => some r
  | .plain (.autoincrement r) => some r
  | .plain (.autoincrementDeferred r) => some r
  | .indexed _ (.autodecrement r) => some r
  | .indexed _ (.autoincrement r) => some r
  | .indexed _ (.autoincrementDeferred r) => some r
  | _ => none

/-- The registers among R0 to R11 that the low-order bits of an entry mask name, lowest first. -/
def maskRegs (mask : Word) : List Reg := ((List.range 12).filter fun i => mask.getLsbD i).map (Fin.ofNat 16)

/-- How many registers below `i` an entry mask names. -/
def maskRank (mask : Word) (i : Nat) : Nat := ((List.range i).filter fun j => mask.getLsbD j).length

/-- The frame of a procedure call from its lowest address up (log 33): a zero condition handler, the status longword, AP, FP,
the return PC, the registers of the mask. `s` is the state before the stack is aligned. -/
def callFrame (isCalls : Bool) (mask : Word) (next : Longword) (s : State) : List Longword :=
  [0, callStatus isCalls (s.sp.extractLsb' 0 2) mask s.psl, s.getReg apReg, s.getReg fpReg, next] ++
    (maskRegs mask).map s.getReg

/-- The lowest address of the frame of a procedure call. -/
def callBottom (mask : Word) (s : State) : Longword :=
  (s.sp &&& 0xFFFFFFFC) - BitVec.ofNat 32 (4 * (5 + (maskRegs mask).length))

/-- A procedure entered by CALLG or CALLS (43_trace.md R216, R220, R221; log 33): `s` is the state before the stack is aligned,
`ap` the argument list. -/
structure calledFrom (ap dst : Longword) (mask : Word) (s t : State) : Prop where
  pc : t.pc = addrAdd dst 2
  psl : t.psl = { s.psl with
    n := false, z := false, v := false, c := false, fu := false, iv := mask.getLsbD 14, dv := mask.getLsbD 15 }
  argumentPointer : t.getReg apReg = ap
  framePointer : t.getReg fpReg = callBottom mask s
  stackPointer : t.sp = callBottom mask s
  registers : ∀ q : Reg, q.val < 12 → t.getReg q = s.getReg q
  otherStacks : sameOtherStacks s t
  setting : sameSetting s t
  draws : t.draws = s.draws

/-- The parameters the spec demands of a configuration: `V_XFC` differs from `V_RESPRIV` (60_exceptions.md R235), SCBB and
the offsets are multiples of 4, `V_EMUL_TRAP` too unless it is the printed CB (20_memory.md R53, D28), and no opcode of the
table is one of SUBSET_OPS or of a class. `State.reset` has it and every step keeps it; no meaning relies on it. -/
def State.configWf (s : State) : Prop :=
  let v := s.config.vectors
  v.xfc ≠ v.respriv ∧ s.scbb.extractLsb' 0 2 = 0#2 ∧
  (∀ o ∈ [v.respriv, v.xfc, v.resop, v.resaddr, v.acv, v.tnv, v.trace, v.bpt, v.compat, v.arith, v.chmk, v.chme, v.chms,
    v.chmu], BitVec.extractLsb' 0 2 o = 0#2) ∧
  (v.emulTrap.extractLsb' 0 2 = 0#2 ∨ v.emulTrap = 0xCB) ∧
  (∀ c ∈ s.config.subsetOps, rowOfCode c = none) ∧ ∀ c ∈ s.config.classOps, rowOfCode c.opcode = none

end Sys2Proof.Machine
end

