-- ==== Sys2Proof/WellFormed.lean ====
section
/-! DEFINITION. Which instruction terms an encoding can stand for: register 15 in autoincrement and autoincrement
deferred mode are the immediate and the absolute mode (30_encoding.md R75), and an immediate value fits its operand. -/

namespace Sys2Proof

/-- A base specifier that R75's table can encode for an operand of type `t`. -/
def BaseSpec.wf (t : OpType) : BaseSpec → Bool
  | .autoincrement r => r != 15
  | .autoincrementDeferred r => r != 15
  | .immediate v => decide (v.toNat < 256 ^ t.size)
  | _ => true

/-- An operand specifier that can be encoded. -/
def Specifier.wf (t : OpType) : Specifier → Bool
  | .plain b => b.wf t
  | .indexed _ b => b.wf t
  | .indexedTwice _ _ => true

/-- Operand specifiers that can be encoded for the given operands. -/
def wfSpecs : List OperandKind → List Specifier → Bool
  | k :: ks, sp :: sps => sp.wf k.type && wfSpecs ks sps
  | [], [] => true
  | _, _ => false

/-- A well-formed instruction: its specifiers are those its operands can have. -/
def Instr.wf (i : Instr) : Bool :=
  match i.native with
  | some (op, specs) => wfSpecs op.operands specs
  | none => true

end Sys2Proof
end

