-- ==== Sys2Proof/Certificates/Slice0/Obligations.lean ====
section
/-! DEFINITION. The statements for the provers. Each docstring names the rules of `spec/` it formalises; a log entry is named
where a statement rests on a choice of the model. -/

section

open Sys2Proof Sys2Proof.Machine

/-! ## Encoding -/

/-- Every well-formed instruction's bytes decode to it, with every operand form at every value, whatever bytes follow
(30_encoding.md R70, R75, R81, R83; the forms of R75 beyond R76 are log 13). That an immediate floating operand takes 4, 8 or 16
bytes is log 49; that a specifier of two index prefixes is whole after two bytes is the model's choice (log 50). -/
def Obligations.EncodedInstructionDecodes : Prop :=
  ∀ (i : Instr) (rest : List Byte), i.wf = true → decode i.native.isNone (encode i ++ rest) = .instr i rest

/-- Whatever decodes to an instruction is that instruction's one encoding, in its own mode, and the instruction is
well-formed: no two byte strings stand for one instruction (R70, R75, R81, R83; the forms beyond R76 log 13, the floating sizes log
49, the length of a specifier of two index prefixes log 50). -/
def Obligations.DecodedInstructionEncodes : Prop :=
  ∀ (compat : Bool) (bs rest : List Byte) (i : Instr), decode compat bs = .instr i rest →
    bs = encode i ++ rest ∧ i.wf = true ∧ i.native.isNone = compat

/-- A few words of the opcode map written out (R83, R76; 95_test_vectors.md 2.1, 2.2, 2.8). -/
def Obligations.DecodedWords : Prop :=
  decode false [0xC0, 0x50, 0x51] = .instr (.addl2 (.plain (.register 0)) (.plain (.register 1))) [] ∧
  decode false [0xC6, 0x02, 0x61] = .instr (.divl2 (.plain (.literal 2)) (.plain (.deferred 1))) [] ∧
  decode false [0xFF, 0xFF] = .instr .reservedFFFF [] ∧ decode false [0xFC, 0x07] = .instr .xfc [0x07] ∧
  decode false [0xFD, 0x55, 0x50, 0x01, 0x61] =
    .instr (.polyg (.plain (.register 0)) (.plain (.literal 1)) (.plain (.deferred 1))) [] ∧
  decode true [0x05, 0x88] = .instr (.emtCompat 5) []

/-! ## The step -/

/-- A step at whose start no trace is owed runs the instruction that the fetched bytes decode to, after T has been sampled into
TP and the free values of the fetch have been used (43_trace.md R209 phases B and C; log 9). -/
def Obligations.StepRunsDecodedInstruction : Prop :=
  ∀ (s : State) (i : Instr) (rest : List Byte), s.psl.tp = false → s.sampleTrace.oddFetch = false →
    decode s.psl.cm s.sampleTrace.fetchWindow.1 = .instr i rest → step s = exec i s.sampleTrace.afterFetch

/-- A well-formed instruction that stands in memory at the PC, whole, is what the step runs: only its own bytes need be
readable (R60, R70, R80, R209). Where a byte has been stored over since the last REI, a fetch of it sees the byte in memory or
one that a store has replaced, and which one a free value says; one that has not been stored over is the byte in memory;
after a store both the new byte and the old one may be seen (R60). That the draw is byte by byte and over every older value since
the last REI, where R60 has one between old and new, is the model's choice (log 22); the free values are log 9. -/
def Obligations.StepRunsStoredInstruction : Prop :=
  (∀ (s : State) (i : Instr), i.wf = true → s.psl.tp = false → s.staleCode = [] → i.native.isNone = s.psl.cm →
    (s.psl.cm = true → s.pc.getLsbD 0 = false) → s.readBytes s.psl.cur i.length s.pc = .ok (encode i) →
    step s = exec i s.sampleTrace.afterFetch) ∧
  (∀ (s : State) (k : Nat) (pa : Longword), s.physical s.psl.cur .read (addrAdd s.pc k) = .ok pa →
    s.fetchByte k = .ok ((s.fetchCandidates pa).getD
      ((Config.draw (s.draws + k)).toNat % (s.fetchCandidates pa).length) 0) ∧
    (∀ b, b ∈ s.fetchCandidates pa ↔ b = s.physicalByte pa ∨ (pa.toNat, b) ∈ s.staleCode) ∧
    ((∀ b, (pa.toNat, b) ∉ s.staleCode) → s.fetchByte k = .ok (s.physicalByte pa))) ∧
  ∀ (s s' : State) (bs : List Byte) (va : Longword), s.store bs va = .ok s' →
    ∀ i < bs.length, ∀ pa, s.physical s.psl.cur .write (addrAdd va i) = .ok pa →
      s'.physicalByte pa ∈ s'.fetchCandidates pa ∧ s.physicalByte pa ∈ s'.fetchCandidates pa

/-- NOP: encoded 01; it advances the PC by one and changes nothing else; at the end of its step TP is the T it began with
(43_trace.md R217, R209). How many free values the step's fetch uses is the model's choice (log 9). -/
def Obligations.NopAdvances : Prop :=
  encode .nop = [0x01] ∧ (∀ s, exec .nop s = .next { s with pc := s.pc + 1 }) ∧
  ∀ s : State, s.psl.tp = false → s.psl.cm = false → s.staleCode = [] → s.readBytes s.psl.cur 1 s.pc = .ok [0x01] →
    step s = .next { s with pc := s.pc + 1, psl := { s.psl with tp := s.psl.t }, draws := s.draws + fetchSpan }

/-- With TP set and a fetch that would not fault, the step takes the trace fault before anything else: the saved PC is the
instruction about to start, the saved PSL has TP clear and T as it stands (43_trace.md R202, R205, R206, R212). The fetch is that
of the opcode's bytes: that a later byte which cannot be fetched does not come before the trace is the model's choice (log 45),
and so is which free values looking at the fetch uses (log 9). -/
def Obligations.PendingTraceIsTakenFirst : Prop :=
  ∀ s : State, s.psl.tp = true → s.fetchFault = none →
    canEnter .traceFault 2 s →
    ∃ t, step s = .next t ∧
      entered .traceFault { s.psl with tp := false } [({ s.psl with tp := false } : Psl).pack, s.pc]
        (s.advanceDraws traceDraws) t

/-- With TP set and a fetch that would fault, either fault is taken first: the trace fault, with TP clear in the saved PSL, or
the fetch's, with TP still set in it; a bit of a free value says which (R207). The model's choices: which free value (log 9);
that the fetch is that of the opcode's bytes (log 45); that its fault at an odd address whose page would fault too is the odd
address abort (log 40). -/
def Obligations.TraceAndFetchFaultInEitherOrder : Prop :=
  ∀ (s : State) (e : Exc), s.psl.tp = true → s.fetchFault = some e →
    step s =
      if (Config.draw (s.draws + 2)).getLsbD 0 = true then initiate e s.pc s.psl (s.advanceDraws traceDraws)
      else initiate .traceFault s.pc { s.psl with tp := false }
        ((s.advanceDraws traceDraws).setPsl { s.psl with tp := false })

/-- In compatibility mode a fetch at an odd address aborts with code 6, the saved PC the odd address, CM set in the saved PSL
(42_instruction_execution_exceptions.md R171, R184). That it does so where the address's page would fault too is the model's
choice (log 40). -/
def Obligations.OddAddressAborts : Prop :=
  ∀ s : State, s.psl.tp = false → s.psl.cm = true → s.pc.getLsbD 0 = true →
    canEnter (.compatibilityMode .oddAddress) 3 s →
    ∃ t, step s = .next t ∧
      entered (.compatibilityMode .oddAddress) { s.psl with tp := false }
        [({ s.psl with tp := false } : Psl).pack, s.pc, 6] s.sampleTrace t

/-- A fetch whose first byte's page may not be read raises the access control violation fault, valid or not; one that may be
read and is not valid raises the translation not valid fault. The saved PC is the instruction
(41_memory_and_operand_exceptions.md R141 to R143, 43_trace.md R210; the parameters are MM_PARAMS, log 20). So does a later byte
of the instruction: the second byte of a two-byte opcode or of a compatibility-mode word, and a byte of an operand specifier, once
the specifiers that are whole before it have been evaluated; where evaluating those faults, that fault is raised
(60_exceptions.md R242 phases 2 and 4; log 42). That this is so for a POLYx entered with FPD set too, and that a specifier of two
index prefixes is whole after two bytes, are the model's choices (log 32, 50). -/
def Obligations.FetchFaults : Prop :=
  (∀ (s : State) (f : MemFault) (seen : List Byte), s.psl.tp = false → (s.psl.cm = true → s.pc.getLsbD 0 = false) →
    seen.length < fetchSpan → (∀ k, (h : k < seen.length) → s.fetchByte k = .ok seen[k]) →
    let va := addrAdd s.pc seen.length
    let fault := Exc.memory f va .read
    let begun := s.sampleTrace.afterFetch
    (match f with
      | .accessControlViolation => (s.translation.entry va .read s.psl.cur).allowed = false
      | .translationNotValid => (s.translation.entry va .read s.psl.cur).allowed = true ∧
          (s.translation.entry va .read s.psl.cur).valid = false) →
    let raised : Prop := step s = raiseFault fault begun ∧
      (canEnter fault (2 + (memoryParams s.config.mmParams f va .read s.psl.cur).length) s →
        ∃ t, step s = .next t ∧
          entered fault { s.psl with tp := false }
            (({ s.psl with tp := false } : Psl).pack :: s.pc :: memoryParams s.config.mmParams f va .read s.psl.cur)
            begun t)
    (s.psl.cm = true → seen.length = 1 → raised) ∧
    (s.psl.cm = false →
      (∀ op0, seen = [op0] → op0 ∈ [(0xFD : Byte), 0xFE, 0xFF] → raised) ∧
      ∀ (op : Opcode) (specs : List Specifier) (k : OperandKind) (sp : Specifier) (part : List Byte),
        wfSpecs (op.operands.take specs.length) specs = true → op.operands[specs.length]? = some k →
        part.length < (encodeSpec k.type sp).length → part = (encodeSpec k.type sp).take part.length →
        seen = op.bytes ++ encodeSpecs op.operands specs ++ part →
        match evalOperands op.operands specs (addrAdd s.pc op.bytes.length) begun with
        | .error e => step s = raiseStop begun e
        | .ok _ => raised)) ∧
  ∀ s : State, s.psl.tp = false → (s.psl.cm = true → s.pc.getLsbD 0 = false) →
    ∀ f : MemFault,
      (match f with
        | .accessControlViolation => (s.translation.entry s.pc .read s.psl.cur).allowed = false
        | .translationNotValid => (s.translation.entry s.pc .read s.psl.cur).allowed = true ∧
            (s.translation.entry s.pc .read s.psl.cur).valid = false) →
      canEnter (.memory f s.pc .read) (2 + (memoryParams s.config.mmParams f s.pc .read s.psl.cur).length) s →
      ∃ t, step s = .next t ∧
        entered (.memory f s.pc .read) { s.psl with tp := false }
          (({ s.psl with tp := false } : Psl).pack :: s.pc :: memoryParams s.config.mmParams f s.pc .read s.psl.cur)
          s.sampleTrace.afterFetch t

/-- Where a page table entry specifies both faults, `Translate` answers the access control violation (R143). -/
def Obligations.AccessControlComesFirst : Prop :=
  ∀ (t : Translation) (va : Longword) (a : Access) (m : Mode), (t.entry va a m).allowed = false →
    Sys2Proof.Machine.translate t va a m = .error .accessControlViolation

/-! ## Taking an exception and returning from one -/

/-- `Initiate`: where the vector's code is 0 or 1 and the frame can be pushed, the routine is entered, with the new PSL, the
service stack and the frame of 60_exceptions.md R236 to R239 (pushes made in the mode entered, log 21; they are stores like any
other to a later fetch, log 22; a vector code 1 with CHMx and emulation, log 23; PRV on the interrupt stack, log 24). The saved
PSL is pushed in PSL_LAYOUT, the bits of the layout that are zero pushed as zero (10_state.md R24, R33). -/
def Obligations.InitiateEntersRoutine : Prop :=
  (∀ p : Psl, pslLayout p p.pack ∧ p.pack.extractLsb' 8 8 = 0#8 ∧ p.pack.getLsbD 21 = false ∧
    p.pack.extractLsb' 28 2 = 0#2) ∧
  ∀ (e : Exc) (pc : Longword) (p : Psl) (s : State), canEnter e (e.frame pc p s).length s →
    ∃ t, initiate e pc p s = .next t ∧ entered e p (e.frame pc p s) s t

/-- `Initiate` where it is not served: refused for customer microcode and for a vector code of 2, stuck for a code of 3
and where a push cannot be made (R62, R164, R236; log 27, 28). -/
def Obligations.InitiateStops : Prop :=
  ∀ (e : Exc) (pc : Longword) (p : Psl) (s : State),
    (e = .customerReservedOpcode ∧ s.config.xfcMicrocode = true → initiate e pc p s = .refused .customerMicrocode) ∧
    (¬ (e = .customerReservedOpcode ∧ s.config.xfcMicrocode = true) →
      (vectorCode (s.vector e) = .writableControlStore → initiate e pc p s = .refused .writableControlStore) ∧
      (vectorCode (s.vector e) = .reserved → initiate e pc p s = .fault .reservedVectorCode) ∧
      ((vectorCode (s.vector e) = .kernelStack ∨ vectorCode (s.vector e) = .interruptStack) →
        ¬ s.canWrite (e.newMode s.psl.cur)
          (s.sps.get (serviceStack e s.psl (vectorCode (s.vector e))) - BitVec.ofNat 32 (4 * (e.frame pc p s).length))
          (4 * (e.frame pc p s).length) →
        initiate e pc p s = .fault .servicePushFault))

/-- The vector, its bits 1:0, the frame, the service stack and the mode entered, exception by exception: the longword at SCBB
plus the exception's offset, the lowest byte lowest; code 0 the kernel stack, 1 the interrupt stack, 2 writable control store, 3
reserved; PSL, PC, then the parameters of the master table (60_exceptions.md R170, R232, R234, R235, R237 to R239; MM_PARAMS is
log 20, EMUL_FRAME log 38). -/
def Obligations.ServiceStackAndMode : Prop :=
  (∀ (s : State) (x : ArithTrap) (y : ArithFault) (va : Longword) (a : Access) (z : CompatEvent) (code : Word) (e : Exc)
    (offset : Longword),
    let v := s.config.vectors
    (e, offset) ∈ [(Exc.arithmeticTrap x, v.arith), (.arithmeticFault y, v.arith),
      (.memory .accessControlViolation va a, v.acv), (.memory .translationNotValid va a, v.tnv),
      (.reservedAddressingMode, v.resaddr), (.reservedOperand, v.resop), (.reservedOrPrivilegedInstruction, v.respriv),
      (.customerReservedOpcode, v.xfc), (.subsetEmulationTrap, v.emulTrap), (.suspendedEmulationFault, 0xCC),
      (.compatibilityMode z, v.compat), (.changeMode .kernel code, v.chmk), (.changeMode .executive code, v.chme),
      (.changeMode .supervisor code, v.chms), (.changeMode .user code, v.chmu), (.breakpoint, v.bpt),
      (.traceFault, v.trace)] →
    ∀ k < 4, (s.vector e).extractLsb' (8 * k) 8 = s.physicalByte (addrAdd (s.scbb + offset) k)) ∧
  (∀ v : Longword,
    (vectorCode v = .kernelStack ↔ v.extractLsb' 0 2 = 0#2) ∧ (vectorCode v = .interruptStack ↔ v.extractLsb' 0 2 = 1#2) ∧
    (vectorCode v = .writableControlStore ↔ v.extractLsb' 0 2 = 2#2) ∧
    (vectorCode v = .reserved ↔ v.extractLsb' 0 2 = 3#2)) ∧
  (∀ (e : Exc) (pc : Longword) (p : Psl) (s : State), e ≠ .subsetEmulationTrap →
    e.frame pc p s = p.pack :: pc :: e.params s) ∧
  (∀ (s : State) (e : Exc), e ∈ [Exc.reservedAddressingMode, .reservedOperand, .reservedOrPrivilegedInstruction,
    .customerReservedOpcode, .suspendedEmulationFault, .breakpoint, .traceFault] → e.params s = []) ∧
  (∀ (s : State) (f : MemFault) (va : Longword) (a : Access),
    (s.config.mmParams = .nothing → (Exc.memory f va a).params s = []) ∧
    (s.config.mmParams = .addressAndFaultWord →
      (Exc.memory f va a).params s = [va, Config.faultParameterWord f va a s.psl.cur])) ∧
  (∀ (s : State) (m : Mode) (code : Word), (Exc.changeMode m code).params s = [code.signExtend 32]) ∧
  (∀ (psl : Psl) (c : VectorCode), serviceStack .subsetEmulationTrap psl c = psl.stack ∧
    serviceStack .suspendedEmulationFault psl c = psl.stack) ∧
  (∀ m : Mode, Exc.newMode m .subsetEmulationTrap = m ∧ Exc.newMode m .suspendedEmulationFault = m) ∧
  (∀ (psl : Psl) (c : VectorCode) (target : Mode) (code : Word),
    serviceStack (.changeMode target code) psl c = stackOfMode (Exc.newMode psl.cur (.changeMode target code)) ∧
    Exc.newMode psl.cur (.changeMode target code) = if morePrivileged psl.cur target then psl.cur else target) ∧
  ∀ (e : Exc) (psl : Psl) (c : VectorCode), (∀ target code, e ≠ .changeMode target code) → e.isEmulation = false →
    Exc.newMode psl.cur e = .kernel ∧
    serviceStack e psl c = if psl.is = true ∨ c = .interruptStack then .interrupt else .kernel

/-- Table E-1, "the arithmetic exception type codes", each pushed as the one parameter
(40_arithmetic_exceptions.md R101). -/
def Obligations.ArithmeticTypeCodes : Prop :=
  ∀ s : State,
    [ArithTrap.integerOverflow, .integerDivideByZero, .floatingOverflow, .divideByZero, .floatingUnderflow,
      .decimalOverflow, .subscriptRange].map (fun c => (Exc.arithmeticTrap c).params s) =
      [[1], [2], [3], [4], [5], [6], [7]] ∧
    [ArithFault.floatingOverflow, .floatingDivideByZero, .floatingUnderflow].map
      (fun c => (Exc.arithmeticFault c).params s) = [[8], [9], [10]]

/-- Table E-2, the compatibility type codes, each pushed as the one parameter (42_instruction_execution_exceptions.md R172). -/
def Obligations.CompatibilityTypeCodes : Prop :=
  ∀ s : State,
    [CompatEvent.reservedOpcode, .bpt, .iot, .emt, .trap, .illegalInstruction, .oddAddress].map
      (fun c => (Exc.compatibilityMode c).params s) = [[0], [1], [2], [3], [4], [5], [6]]

/-- REI after a routine has removed the parameters goes back to where the exception left: saved PC, saved PSL (with TP or the T
the REI began with), every register and every stack pointer (60_exceptions.md R237, R244; 43_trace.md R218). The saved PSL is
one REI accepts; the frame is R237's, so the subset emulation trap is left out; a vector code 1 with CHMx or emulation is
left out, as there the PSL selects another stack than the frame's (log 23). -/
def Obligations.ReiUndoesException : Prop :=
  ∀ (e : Exc) (pc : Longword) (p : Psl) (s t : State), s.wf → s.flat → initiate e pc p s = .next t →
    e ≠ .subsetEmulationTrap → p.cur = s.psl.cur → p.is = false → s.psl.is = false → p.ipl = 0 →
    (vectorCode (s.vector e) = .kernelStack ∨ ((∀ m c, e ≠ .changeMode m c) ∧ e.isEmulation = false)) →
    (e.frame pc p s).length ≤ 2 ^ 28 →
    ∃ u, exec .rei (t.setSp (t.sp + BitVec.ofNat 32 (4 * (e.params s).length))) = .next u ∧
      u.pc = pc ∧ u.psl = p ∧ u.regs = s.regs ∧ u.sps = s.sps ∧ u.staleCode = [] ∧ sameSetting s u ∧ u.mem = t.mem

/-- Only REI leads to a less privileged mode, and only a routine entered by an exception or a CHMx to a more privileged
one (42_instruction_execution_exceptions.md R179; 60_exceptions.md R247). -/
def Obligations.ModeChanges : Prop :=
  ∀ s t : State, step s = .next t →
    (morePrivileged s.psl.cur t.psl.cur = true → ∃ u, beginStep s = .run .rei u) ∧
    (morePrivileged t.psl.cur s.psl.cur = true → ∃ e pc p u, p.cur = s.psl.cur ∧ initiate e pc p u = .next t)

/-- At the end of an instruction other than REI, TP is the T it began with, unless an exception's routine has been entered,
where T and TP are clear (43_trace.md R209, R213; 60_exceptions.md R238). -/
def Obligations.TracePendingIsSampledT : Prop :=
  ∀ (s t u : State) (i : Instr), beginStep s = .run i u → i ≠ .rei → exec i u = .next t →
    t.psl.tp = s.psl.t ∨ (t.psl.tp = false ∧ t.psl.t = false ∧ ∃ e pc p v, initiate e pc p v = .next t)

/-- Every step keeps memory in its canonical form (20_memory.md R50: one byte at each of 2^32 addresses). -/
def Obligations.StepKeepsMemoryForm : Prop :=
  ∀ s t : State, s.wf → step s = .next t → t.wf

/-- The reset state's memory is in its canonical form, and its parameters are such as the spec demands (20_memory.md R53,
60_exceptions.md R235; the values themselves are the model's, log 1 to 8). -/
def Obligations.ResetMemoryForm : Prop := State.reset.wf ∧ State.reset.configWf

/-- No step changes the parameters, SCBB or the page table: no instruction of the spec writes them
(10_state.md R35, R36, R40). So parameters such as the spec demands stay so: SCBB and the vector offsets, but for the printed
CB, multiples of 4 (20_memory.md R53, decision D28). -/
def Obligations.StepKeepsSetting : Prop :=
  ∀ s t : State, step s = .next t → sameSetting s t ∧ (s.configWf → t.configWf)

/-! ## REI, BISPSW -/

/-- REI: PC and PSL are popped from the current stack; TP is the popped one or the T the REI began with; later fetches see
every earlier store; nothing else changes (43_trace.md R214, R218; 20_memory.md R60). Nothing of memory is stored. That bits
15:8, 21 and 29:28 of the popped PSL are dropped is log 12; that REI makes no other check is log 25. The fields of the popped
PSL are where PSL_LAYOUT has them (10_state.md R24, R33). -/
def Obligations.ReiReturns : Prop :=
  (∀ w : Longword, pslLayout (Psl.unpack w) w) ∧
  ∀ (s : State) (newPc w : Longword), s.readLong s.sp = .ok newPc → s.readLong (s.sp + 4) = .ok w →
    morePrivileged (Psl.unpack w).cur s.psl.cur = false → (Psl.unpack w).is = false → (Psl.unpack w).ipl = 0 →
    ∃ t, exec .rei s = .next t ∧ t.pc = newPc ∧
      t.psl = { Psl.unpack w with tp := (Psl.unpack w).tp || s.psl.tp } ∧
      t.sps.get s.psl.stack = s.sp + 8 ∧ sameOtherStacks s t ∧ t.regs = s.regs ∧ t.mem = s.mem ∧ t.staleCode = [] ∧
      sameSetting s t ∧ t.draws = s.draws

/-- REI of a PSL with a more privileged mode raises the reserved operand fault and pops nothing; one with IS set or IPL not
zero is refused (R218; decision D37; log 25). -/
def Obligations.ReiChecksSavedPsl : Prop :=
  ∀ (s : State) (newPc w : Longword), s.readLong s.sp = .ok newPc → s.readLong (s.sp + 4) = .ok w →
    (morePrivileged (Psl.unpack w).cur s.psl.cur = true → canEnter .reservedOperand 2 s →
      ∃ t, exec .rei s = .next t ∧
        entered .reservedOperand { s.psl with tp := false } [({ s.psl with tp := false } : Psl).pack, s.pc] s t) ∧
    (morePrivileged (Psl.unpack w).cur s.psl.cur = false → ((Psl.unpack w).is = true ∨ (Psl.unpack w).ipl ≠ 0) →
      exec .rei s = .refused .reiInterruptState)

/-- BISPSW: the mask is ored into the low byte of the PSL; nothing else changes but the PC (43_trace.md R219). Nothing of memory
is stored. -/
def Obligations.BispswSetsBits : Prop :=
  ∀ (mask : Specifier) (s : State) (a : Evaluated), evalOperand readWord mask (addrAdd s.pc 1) s = .ok a →
    a.word.extractLsb' 8 8 = 0#8 →
    ∃ t, exec (.bispsw mask) s = .next t ∧ t.pc = a.next ∧
      t.psl.pack = s.psl.pack ||| a.word.setWidth 32 ∧
      t.regs = a.state.regs ∧ t.sps = a.state.sps ∧ t.mem = s.mem ∧ t.staleCode = s.staleCode ∧ sameSetting s t ∧
      t.draws = s.draws

/-- BISPSW with a mask bit of 15:8 set raises the reserved operand fault; the PSL it saves has every bit of the PSL but TP
(R219; 41_memory_and_operand_exceptions.md R146). -/
def Obligations.BispswReservedMask : Prop :=
  ∀ (mask : Specifier) (s : State) (a : Evaluated), evalOperand readWord mask (addrAdd s.pc 1) s = .ok a →
    a.word.extractLsb' 8 8 ≠ 0#8 → canEnter .reservedOperand 2 s →
    ∃ t, exec (.bispsw mask) s = .next t ∧
      entered .reservedOperand { s.psl with tp := false } [({ s.psl with tp := false } : Psl).pack, s.pc] s t

/-- After a BISPSW that sets T the next instruction, `i`, begins with no trace owed; where it is no REI and ends without an
exception, the one after it begins with a trace owed, and takes the trace fault with its own address as the saved PC (unless
its fetch would fault too: TraceAndFetchFaultInEitherOrder): "trace faults begin with the second instruction after the
BISPSW" (43_trace.md R215). That the fetch is that of the opcode's bytes alone is the model's choice (log 45). -/
def Obligations.BispswTracesFromSecondInstruction : Prop :=
  ∀ (s t u v w : State) (mask : Specifier) (a : Evaluated) (i : Instr),
    s.psl.t = false → beginStep s = .run (.bispsw mask) u → evalOperand readWord mask (addrAdd u.pc 1) u = .ok a →
    a.word.extractLsb' 8 8 = 0#8 → a.word.getLsbD 4 = true → exec (.bispsw mask) u = .next t →
    t.psl.tp = false ∧ t.psl.t = true ∧
    (beginStep t = .run i v → i ≠ .rei → exec i v = .next w →
      (∃ e pc p x, initiate e pc p x = .next w) ∨
      (w.psl.tp = true ∧ (w.fetchFault = none →
        step w = initiate .traceFault w.pc { w.psl with tp := false }
          ((w.advanceDraws traceDraws).setPsl { w.psl with tp := false }))))

/-! ## Instructions that raise an exception -/

/-- The reserved opcode, XFC, BPT and the four compatibility-mode instructions take their exception: the saved PC is the
instruction, the saved PSL the PSL with TP clear, and the parameter, where there is one, the type code of Table E-2
(42_instruction_execution_exceptions.md R162, R165, R180, R186 to R189; 43_trace.md R210). -/
def Obligations.FaultingInstructionsEnter : Prop :=
  ∀ (s : State) (code : Byte) (i : Instr) (e : Exc) (params : List Longword),
    (i, e, params) ∈ [(Instr.reservedFFFF, Exc.reservedOrPrivilegedInstruction, ([] : List Longword)),
      (.xfc, .customerReservedOpcode, []), (.bpt, .breakpoint, []), (.bptCompat, .compatibilityMode .bpt, [1]),
      (.iotCompat, .compatibilityMode .iot, [2]), (.emtCompat code, .compatibilityMode .emt, [3]),
      (.trapCompat code, .compatibilityMode .trap, [4])] →
    canEnter e (2 + params.length) s →
    ∃ t, exec i s = .next t ∧
      entered e { s.psl with tp := false } (({ s.psl with tp := false } : Psl).pack :: s.pc :: params) s t

/-- "Opcode FFFF (hex) will always fault": where no trace is owed and the two bytes FF FF stand at the PC in native mode, the
step raises the reserved or privileged instruction fault, in every mode and under every parameter; with TP set the trace
fault comes first, with TP clear in the saved PSL (R162; 43_trace.md R206, R210). How many free values are used before either is
initiated is the model's choice (log 9). -/
def Obligations.OpcodeFFFFAlwaysFaults : Prop :=
  encode .reservedFFFF = [0xFF, 0xFF] ∧
  ∀ s : State, s.psl.cm = false → s.staleCode = [] → s.readBytes s.psl.cur 2 s.pc = .ok [0xFF, 0xFF] →
    (s.psl.tp = false →
      step s = initiate .reservedOrPrivilegedInstruction s.pc { s.psl with tp := false } s.sampleTrace.afterFetch) ∧
    (s.psl.tp = true → step s = initiate .traceFault s.pc { s.psl with tp := false }
      ((s.advanceDraws traceDraws).setPsl { s.psl with tp := false }))

/-- CHMK, CHME, CHMS and CHMU off the interrupt stack take the change mode trap to their target: the frame is the PSL, the next
instruction's address and the sign-extended operand, on the stack of the mode entered, the more privileged of the current
one and the target (42_instruction_execution_exceptions.md R174 to R178). A vector whose code is 1 is served too: that IS is then
set with the frame on the mode's own stack is log 23, that PRV is the mode left log 24. -/
def Obligations.ChangeModeEnters : Prop :=
  ∀ (code : Specifier) (s : State) (a : Evaluated) (i : Instr) (target : Mode),
    (i, target) ∈ [(Instr.chmk code, Mode.kernel), (.chme code, .executive), (.chms code, .supervisor), (.chmu code, .user)] →
    s.psl.is = false → evalOperand readWord code (addrAdd s.pc 1) s = .ok a →
    canEnter (.changeMode target a.word) 3 (a.state.setPc a.next) →
    ∃ t, exec i s = .next t ∧
      entered (.changeMode target a.word) s.psl [s.psl.pack, a.next, a.word.signExtend 32] (a.state.setPc a.next) t ∧
      t.psl.cur = if morePrivileged s.psl.cur target then s.psl.cur else target

/-- A CHMx step saves T and TP both set if T was set when it began, both clear if not, and the routine it enters has both clear
(R174; 43_trace.md R213). -/
def Obligations.ChangeModeSavesTrace : Prop :=
  ∀ (s u t : State) (code : Specifier) (a : Evaluated) (i : Instr) (target : Mode),
    (i, target) ∈ [(Instr.chmk code, Mode.kernel), (.chme code, .executive), (.chms code, .supervisor), (.chmu code, .user)] →
    beginStep s = .run i u → evalOperand readWord code (addrAdd u.pc 1) u = .ok a → exec i u = .next t →
    t.psl.t = false ∧ t.psl.tp = false ∧
    ∃ p, initiate (.changeMode target a.word) a.next p (a.state.setPc a.next) = .next t ∧ p.t = s.psl.t ∧ p.tp = s.psl.t

/-- The three refusals the spec asks of an instruction's own conditions: XFC where microcode handles it, whatever its vector holds
(R164, R165; log 27), CHMx on the interrupt stack (R179; log 26), POLYx entered with FPD set
(40_arithmetic_exceptions.md R115; log 32). -/
def Obligations.InstructionRefusals : Prop :=
  ∀ (s : State) (x y z : Specifier),
    (s.config.xfcMicrocode = true → exec .xfc s = .refused .customerMicrocode) ∧
    (s.psl.is = true → ∀ i ∈ [Instr.chmk x, .chme x, .chms x, .chmu x],
      exec i s = .refused .changeModeOnInterruptStack) ∧
    (s.psl.fpd = true → ∀ i ∈ [Instr.polyf x y z, .polyd x y z, .polyg x y z, .polyh x y z],
      exec i s = .refused .resumeSuspended)

/-! ## Integer instructions and classes -/

/-- Class INT: the low-order part is stored, N and Z follow it, V says that the result does not fit the signed range, C is the
instruction's own; with IV set as the instruction starts, an overflow traps with code 1 after that
(40_arithmetic_exceptions.md R102, R119). Class IDIV: a zero divisor stores the dividend, sets V and traps with code 2 whatever IV
is; by another divisor it is class INT of the quotient rounded toward zero, C clear (R103, R120); that this quotient is computed,
signed, and not an oracle's is log 37. -/
def Obligations.ClassIntResult : Prop :=
  (∀ (t : OpType) (dividend divisor : Octaword) (p : Place) (s : State), t = .byte ∨ t = .word ∨ t = .long →
    p.writable t s → (∀ r, p = .reg r → reachesPc t r = false) →
    (divisor.setWidth (8 * t.size) ≠ 0#(8 * t.size) → classIdiv t dividend divisor p s =
      classInt t ((dividend.setWidth (8 * t.size)).toInt.tdiv (divisor.setWidth (8 * t.size)).toInt) false p s) ∧
    (divisor.setWidth (8 * t.size) = 0#(8 * t.size) →
      ∃ w, storedAt t dividend p s w ∧
        w.psl = s.psl.withCodes ⟨(dividend.setWidth (8 * t.size)).msb,
          decide (dividend.setWidth (8 * t.size) = 0#(8 * t.size)), true, false⟩ ∧
        w.pc = s.pc ∧ sameOtherStacks s w ∧ sameSetting s w ∧
        classIdiv t dividend divisor p s = .ok (.trap (.arithmeticTrap .integerDivideByZero) w))) ∧
  ∀ (t : OpType) (correct : Int) (c : Bool) (p : Place) (s : State), t = .byte ∨ t = .word ∨ t = .long →
    p.writable t s → (∀ r, p = .reg r → reachesPc t r = false) →
    ∃ (w : State) (stored : Nat), (stored : Int) = correct % 2 ^ (8 * t.size) ∧
      storedAt t (BitVec.ofNat 128 stored) p s w ∧
      w.psl = s.psl.withCodes ⟨stored.testBit (8 * t.size - 1), decide (stored = 0),
        decide (correct < -(2 ^ (8 * t.size - 1) : Int) ∨ (2 ^ (8 * t.size - 1) : Int) ≤ correct), c⟩ ∧
      w.pc = s.pc ∧ sameOtherStacks s w ∧ sameSetting s w ∧
      classInt t correct c p s = .ok
        (if (correct < -(2 ^ (8 * t.size - 1) : Int) ∨ (2 ^ (8 * t.size - 1) : Int) ≤ correct) ∧ s.psl.iv = true then
          .trap (.arithmeticTrap .integerOverflow) w else .done w)

/-- ADDL2 where no overflow traps: the sum modulo 2^32 goes to `sum`, N and Z follow it, V says that the signed sum does not fit,
C is the carry out of bit 31; nothing else changes (R102, R126). -/
def Obligations.Addl2Adds : Prop :=
  ∀ (add sum : Specifier) (s : State) (a b : Evaluated),
    evalOperand readLong add (addrAdd s.pc 1) s = .ok a → evalOperand modifyLong sum a.next a.state = .ok b →
    b.place.writable .long b.state →
    (s.psl.iv = false ∨ (-(2 ^ 31 : Int) ≤ b.long.toInt + a.long.toInt ∧ b.long.toInt + a.long.toInt < 2 ^ 31)) →
    ∃ w, exec (.addl2 add sum) s = .next w ∧
      completed .long ((b.long + a.long).setWidth 128)
        ⟨(b.long + a.long).msb, decide (b.long + a.long = 0),
          decide (b.long.toInt + a.long.toInt < -(2 ^ 31) ∨ (2 ^ 31 : Int) ≤ b.long.toInt + a.long.toInt),
          decide (2 ^ 32 ≤ b.long.toNat + a.long.toNat)⟩ b s w

/-- ADDL2 whose signed sum does not fit, with IV set: the same is stored, then the integer overflow trap with code 1 is taken,
the saved PC the next instruction (R102, R117, R126). -/
def Obligations.Addl2OverflowTraps : Prop :=
  ∀ (add sum : Specifier) (s : State) (a b : Evaluated),
    evalOperand readLong add (addrAdd s.pc 1) s = .ok a → evalOperand modifyLong sum a.next a.state = .ok b →
    b.place.writable .long b.state → s.psl.iv = true →
    (b.long.toInt + a.long.toInt < -(2 ^ 31) ∨ (2 ^ 31 : Int) ≤ b.long.toInt + a.long.toInt) →
    ∃ w, completed .long ((b.long + a.long).setWidth 128)
        ⟨(b.long + a.long).msb, decide (b.long + a.long = 0), true, decide (2 ^ 32 ≤ b.long.toNat + a.long.toNat)⟩ b s w ∧
      exec (.addl2 add sum) s = raiseTrap (.arithmeticTrap .integerOverflow) w ∧
      (canEnter (.arithmeticTrap .integerOverflow) 3 w →
        ∃ t, exec (.addl2 add sum) s = .next t ∧
          entered (.arithmeticTrap .integerOverflow) w.psl [w.psl.pack, b.next, 1] w t)

/-- DIVL2 by a divisor that is not zero, where no overflow traps: the quotient rounded toward zero goes to `quo`, V is set for the
most negative longword divided by -1 only, C is clear (R120, R127). -/
def Obligations.Divl2Divides : Prop :=
  ∀ (divr quo : Specifier) (s : State) (a b : Evaluated),
    evalOperand readLong divr (addrAdd s.pc 1) s = .ok a → evalOperand modifyLong quo a.next a.state = .ok b →
    b.place.writable .long b.state → a.long ≠ 0 →
    (s.psl.iv = false ∨ ¬ (b.long = 0x80000000 ∧ a.long = 0xFFFFFFFF)) →
    ∃ w, exec (.divl2 divr quo) s = .next w ∧
      completed .long ((b.long.sdiv a.long).setWidth 128)
        ⟨(b.long.sdiv a.long).msb, decide (b.long.sdiv a.long = 0),
          decide (b.long = 0x80000000 ∧ a.long = 0xFFFFFFFF), false⟩ b s w

/-- DIVL2 by zero: `quo` keeps the dividend, V is set, N and Z follow the dividend, C is clear, and the trap with code 2 is taken
whatever IV is (R103, R120, R127). The most negative longword divided by -1 with IV set stores itself, sets N and V and
traps with code 1 (R102, R120, R127). -/
def Obligations.Divl2ByZeroTraps : Prop :=
  ∀ (divr quo : Specifier) (s : State) (a b : Evaluated),
    evalOperand readLong divr (addrAdd s.pc 1) s = .ok a → evalOperand modifyLong quo a.next a.state = .ok b →
    b.place.writable .long b.state →
    (a.long = 0 →
      ∃ w, completed .long b.value ⟨b.long.msb, decide (b.long = 0), true, false⟩ b s w ∧
        exec (.divl2 divr quo) s = raiseTrap (.arithmeticTrap .integerDivideByZero) w ∧
        (canEnter (.arithmeticTrap .integerDivideByZero) 3 w →
          ∃ t, exec (.divl2 divr quo) s = .next t ∧
            entered (.arithmeticTrap .integerDivideByZero) w.psl [w.psl.pack, b.next, 2] w t)) ∧
    (b.long = 0x80000000 → a.long = 0xFFFFFFFF → s.psl.iv = true →
      ∃ w, completed .long 0x80000000 ⟨true, false, true, false⟩ b s w ∧
        exec (.divl2 divr quo) s = raiseTrap (.arithmeticTrap .integerOverflow) w ∧
        (canEnter (.arithmeticTrap .integerOverflow) 3 w →
          ∃ t, exec (.divl2 divr quo) s = .next t ∧
            entered (.arithmeticTrap .integerOverflow) w.psl [w.psl.pack, b.next, 1] w t))

/-- INDEX: `(indexin + subscript) * size` goes to `indexout` and the condition codes follow it, whether or not the subscript is in
range; in range (both ends included, signed) that is all, out of range the trap with code 7 follows (R111). -/
def Obligations.IndexComputes : Prop :=
  ∀ (subscript low high size indexin indexout : Specifier) (s : State) (a b c d e f : Evaluated),
    evalOperand readLong subscript (addrAdd s.pc 1) s = .ok a → evalOperand readLong low a.next a.state = .ok b →
    evalOperand readLong high b.next b.state = .ok c → evalOperand readLong size c.next c.state = .ok d →
    evalOperand readLong indexin d.next d.state = .ok e → evalOperand writeLong indexout e.next e.state = .ok f →
    f.place.writable .long f.state →
    (b.long.toInt ≤ a.long.toInt → a.long.toInt ≤ c.long.toInt →
      ∃ w, exec (.index subscript low high size indexin indexout) s = .next w ∧
        completed .long (((e.long + a.long) * d.long).setWidth 128)
          ⟨((e.long + a.long) * d.long).msb, decide ((e.long + a.long) * d.long = 0), false, false⟩ f s w) ∧
    (a.long.toInt < b.long.toInt ∨ c.long.toInt < a.long.toInt →
      ∃ w, completed .long (((e.long + a.long) * d.long).setWidth 128)
          ⟨((e.long + a.long) * d.long).msb, decide ((e.long + a.long) * d.long = 0), false, false⟩ f s w ∧
        exec (.index subscript low high size indexin indexout) s = raiseTrap (.arithmeticTrap .subscriptRange) w ∧
        (canEnter (.arithmeticTrap .subscriptRange) 3 w →
          ∃ t, exec (.index subscript low high size indexin indexout) s = .next t ∧
            entered (.arithmeticTrap .subscriptRange) w.psl [w.psl.pack, f.next, 7] w t))

/-! ## Floating and decimal classes -/

/-- Class FLT where something is stored: a normal outcome with its codes; an overflow on a processor that traps stores the
reserved operand, an underflow that is disabled or traps zero, with the codes of R104 and R108, and the enabled exception's trap
follows (R104, R108, R116, R121; ClassFloatFaults says where nothing is stored). A value of 8 or 16 bytes in registers
takes the registers from the operand's up, log 16. -/
def Obligations.ClassFloatOutcomes : Prop :=
  ∀ (t : FloatType) (o : FloatOutcome) (p : Place) (s : State), p.writable t.opType s →
    (∀ r, p = .reg r → reachesPc t.opType r = false) →
    ∀ (bits : Octaword) (cc : CondCodes) (trap : Option ArithTrap),
      (match o with
        | .normal v k => bits = v ∧ cc = k ∧ trap = none
        | .overflow => s.config.floatStyle = .trap ∧ bits = 0x8000 ∧ cc = ⟨true, false, true, false⟩ ∧
            trap = some .floatingOverflow
        | .underflow => bits = 0 ∧ cc = ⟨false, true, false, false⟩ ∧
            ((s.psl.fu = false ∧ trap = none) ∨
              (s.psl.fu = true ∧ s.config.floatStyle = .trap ∧ trap = some .floatingUnderflow))
        | .reserved => False) →
      ∃ w, storedAt t.opType bits p s w ∧ w.psl = s.psl.withCodes cc ∧ w.pc = s.pc ∧ sameOtherStacks s w ∧
        sameSetting s w ∧
        classFlt t o p s = .ok (match trap with | some c => .trap (.arithmeticTrap c) w | none => .done w)

/-- Class FLT where nothing is stored: the two floating faults, codes 8 and 10, and the reserved operand fault; a floating fault
saves the PC of the instruction and a PSL whose N, Z, V and C are free values and whose other fields but TP are those of the
start (R112, R114, R117, R121, R125; the free values are log 9). Where it suspends a POLYx, R0 to R13 too are those of the
start: the model's choice, as the source does not say where the progress is held (log 46). -/
def Obligations.ClassFloatFaults : Prop :=
  (∀ (t : FloatType) (p : Place) (s : State),
    classFlt t .reserved p s = .error (.fault .reservedOperand) ∧
    (s.config.floatStyle = .fault → classFlt t .overflow p s = .error (.floatingFault .floatingOverflow false) ∧
      (s.psl.fu = true → classFlt t .underflow p s = .error (.floatingFault .floatingUnderflow false)))) ∧
  ∀ (s : State) (c : ArithFault) (suspend : Bool), ∃ p : Psl,
    raiseStop s (.floatingFault c suspend) = initiate (.arithmeticFault c) s.pc p (s.advanceDraws 4) ∧
    p.withCodes ⟨false, false, false, false⟩ =
      ({ s.psl with tp := false, fpd := s.psl.fpd || suspend } : Psl).withCodes ⟨false, false, false, false⟩ ∧
    p.codes = ⟨(Config.draw s.draws).getLsbD 0, (Config.draw (s.draws + 1)).getLsbD 0,
      (Config.draw (s.draws + 2)).getLsbD 0, (Config.draw (s.draws + 3)).getLsbD 0⟩

/-- Class FDIV: a reserved dividend or divisor comes first, then a zero divisor (the reserved operand is stored and trap 4
follows, or fault 9), else class FLT (R106, R113, R122, R125; the exponent field's place is log 19; the registers that a stored
value of 8 or 16 bytes takes are log 16). -/
def Obligations.ClassFloatDivide : Prop :=
  ∀ (t : FloatType) (dividend divisor : Octaword) (o : FloatOutcome) (p : Place) (s : State),
    (isReservedFloat t dividend = true ∨ isReservedFloat t divisor = true →
      classFdiv t dividend divisor o p s = .error (.fault .reservedOperand)) ∧
    (isReservedFloat t dividend = false → isReservedFloat t divisor = false →
      (isFloatZero t divisor = false → classFdiv t dividend divisor o p s = classFlt t o p s) ∧
      (isFloatZero t divisor = true →
        (s.config.floatStyle = .fault →
          classFdiv t dividend divisor o p s = .error (.floatingFault .floatingDivideByZero false)) ∧
        (s.config.floatStyle = .trap → p.writable t.opType s → (∀ r, p = .reg r → reachesPc t.opType r = false) →
          ∃ w, storedAt t.opType 0x8000 p s w ∧ w.psl = s.psl.withCodes ⟨true, false, true, false⟩ ∧ w.pc = s.pc ∧
            sameOtherStacks s w ∧ sameSetting s w ∧
            classFdiv t dividend divisor o p s = .ok (.trap (.arithmeticTrap .divideByZero) w))))

/-- Class DEC: the destination holds the low-order digits that fit, with the sign; V says that the result has more digits than
it, and only then, with DV set, the trap with code 6 follows; R0 to R5 become free values, R6 to R13 stay (R110, R123; the
string's format and R0 to R5 are log 36). A class DEC instruction, once its operands are evaluated, reads its string sources
in order and goes through class DEC; a length over 31 and a string with an invalid nibble raise the reserved operand fault
(R149; when they are looked at, log 36); entered with FPD set it is refused, as is every instruction that reads or writes a
string (log 32). -/
def Obligations.ClassDecimal : Prop :=
  (∀ (c : ClassOp) (n : Nat) (specs : List Specifier) (s : State), c.kind.isDecimal = true ∨ .string ∈ c.sources → s.psl.fpd = true →
    execClass c n specs s = .refused .resumeSuspended) ∧
  (∀ (len addr : Evaluated) (s : State),
    (31 < len.word.toNat → readString len addr s = .error (.fault .reservedOperand)) ∧
    (len.word.toNat ≤ 31 →
      (∀ e, s.readBytes s.psl.cur (len.word.toNat / 2 + 1) addr.long = .error e → readString len addr s = .error e) ∧
      ∀ bs, s.readBytes s.psl.cur (len.word.toNat / 2 + 1) addr.long = .ok bs →
        readString len addr s =
          if Config.decimalIsInvalid ⟨len.word.toNat, bs⟩ = true then .error (.fault .reservedOperand)
          else .ok ⟨len.word.toNat, bs⟩)) ∧
  (∀ (c : ClassOp) (n : Nat) (specs : List Specifier) (s s' : State) (os : List Evaluated) (len addr : Evaluated)
    (next : Longword), c.kind = .dec → s.psl.fpd = false →
    evalOperands c.operands specs (addrAdd s.pc n) s = .ok (os ++ [len, addr], next, s') →
    let finish (vs : List Octaword) (strs : List DecimalString) : Answer :=
      if 31 < len.word.toNat then raiseStop s (.fault .reservedOperand)
      else if c.modify = true then
        match readString len addr (s'.setPc next) with
        | .error e => raiseStop s e
        | .ok old => conclude s (classDec (Config.decOutcome c.opcode vs (strs ++ [old]) len.word.toNat) len.word.toNat
            addr.long (s'.setPc next))
      else conclude s (classDec (Config.decOutcome c.opcode vs strs len.word.toNat) len.word.toNat addr.long
        (s'.setPc next))
    (∀ types : List OpType, c.sources = types.map .scalar → os.length = types.length →
      execClass c n specs s = finish (os.map Evaluated.value) []) ∧
    (∀ l a, c.sources = [.string] → os = [l, a] →
      execClass c n specs s =
        match readString l a s' with
        | .error e => raiseStop s e
        | .ok str => finish [] [str]) ∧
    (∀ l a l' a', c.sources = [.string, .string] → os = [l, a, l', a'] →
      execClass c n specs s =
        match readString l a s' with
        | .error e => raiseStop s e
        | .ok str =>
          match readString l' a' s' with
          | .error e => raiseStop s e
          | .ok str' => finish [] [str, str'])) ∧
  ∀ (o : DecOutcome) (len : Nat) (addr : Longword) (s : State), s.canWrite s.psl.cur addr (decimalSize len) →
    ∃ w, (s.wf → s.separate s.psl.cur addr (decimalSize len) →
        memoryHolds s.psl.cur addr
          ((List.range (decimalSize len)).map fun i => Config.decimalByte o.negative (o.magnitude % 10 ^ len) len i) s w) ∧
      (∀ q : Reg, q.val < 6 → w.getReg q = Config.draw (s.draws + q.val)) ∧ w.pc = s.pc ∧
      w.psl = s.psl.withCodes ⟨o.n, o.z, decide (10 ^ len ≤ o.magnitude), o.c⟩ ∧
      memorySameOutside s.psl.cur addr (decimalSize len) s w ∧ (∀ q : Reg, 6 ≤ q.val → w.getReg q = s.getReg q) ∧
      w.sps = s.sps ∧ sameSetting s w ∧
      classDec o len addr s = .ok
        (if 10 ^ len ≤ o.magnitude ∧ s.psl.dv = true then .trap (.arithmeticTrap .decimalOverflow) w else .done w)

/-- Class DDIV by a zero divisor, of either sign: every destination byte, R0 to R5 and the condition codes become free values,
every other byte and R6 to R13 stay, and the trap with code 4 is taken (R107, R124); by another divisor, class DEC. A class DDIV
instruction, once its operands are evaluated, reads the divisor, then the dividend, a string of its own or the
destination's old contents, and goes through class DDIV (log 35, 36). -/
def Obligations.ClassDecimalDivide : Prop :=
  (∀ (c : ClassOp) (n : Nat) (specs : List Specifier) (s s' : State) (l a len addr : Evaluated) (os : List Evaluated)
    (next : Longword), c.kind = .ddiv → s.psl.fpd = false →
    evalOperands c.operands specs (addrAdd s.pc n) s = .ok (l :: a :: os ++ [len, addr], next, s') →
    let finish (divisor dividend : DecimalString) : Answer :=
      conclude s (classDdiv divisor (Config.decOutcome c.opcode [] [divisor, dividend] len.word.toNat) len.word.toNat
        addr.long (s'.setPc next))
    (∀ l' a', c.modify = false → c.sources = [.string, .string] → os = [l', a'] →
      execClass c n specs s =
        match readString l a s' with
        | .error e => raiseStop s e
        | .ok divisor =>
          match readString l' a' s' with
          | .error e => raiseStop s e
          | .ok dividend =>
            if 31 < len.word.toNat then raiseStop s (.fault .reservedOperand) else finish divisor dividend) ∧
    (c.modify = true → c.sources = [.string] → os = [] →
      execClass c n specs s =
        match readString l a s' with
        | .error e => raiseStop s e
        | .ok divisor =>
          match readString len addr (s'.setPc next) with
          | .error e => raiseStop s e
          | .ok dividend => finish divisor dividend)) ∧
  ∀ (divisor : DecimalString) (o : DecOutcome) (len : Nat) (addr : Longword) (s : State),
    s.canWrite s.psl.cur addr (decimalSize len) →
    if Config.decimalIsZero divisor = true then
      ∃ w, classDdiv divisor o len addr s = .ok (.trap (.arithmeticTrap .divideByZero) w) ∧
        (∀ q : Reg, q.val < 6 → w.getReg q = Config.draw (s.draws + q.val)) ∧
        (∀ q : Reg, 6 ≤ q.val → w.getReg q = s.getReg q) ∧ w.sps = s.sps ∧
        w.psl.codes = ⟨(Config.draw (s.draws + 6)).getLsbD 0, (Config.draw (s.draws + 7)).getLsbD 0,
          (Config.draw (s.draws + 8)).getLsbD 0, (Config.draw (s.draws + 9)).getLsbD 0⟩ ∧
        sameControlBits s.psl w.psl ∧ memorySameOutside s.psl.cur addr (decimalSize len) s w ∧
        (s.wf → s.separate s.psl.cur addr (decimalSize len) →
          memoryHolds s.psl.cur addr
            ((List.range (decimalSize len)).map fun i => (Config.draw (s.draws + 10 + i)).setWidth 8) s w) ∧
        sameSetting s w
    else classDdiv divisor o len addr s = classDec o len addr s

/-- An instruction of a class with specifiers as operands: once they are evaluated, the class's rule is applied to the oracle's
outcome, which depends on the opcode and the operand values alone; the divisor is the first source (R118 to R122; log 35). Where
the one source of a class INT or FLT instruction is a decimal string, the string is the operand value, and R0 to R5 become free
values before the destination is written (10_state.md R21; log 35, 36). -/
def Obligations.ScalarClassInstructions : Prop :=
  (∀ (c : ClassOp) (n : Nat) (specs : List Specifier) (s s' : State) (len addr dst : Evaluated) (next : Longword),
    c.sources = [.string] → s.psl.fpd = false →
    evalOperands c.operands specs (addrAdd s.pc n) s = .ok ([len, addr, dst], next, s') →
    let inputs := if c.modify then [dst.value] else []
    let drawn := (s'.setPc next).drawStringRegs
    ((∀ q : Reg, q.val < 6 → drawn.getReg q = Config.draw (s'.draws + q.val)) ∧
      (∀ q : Reg, 6 ≤ q.val → drawn.getReg q = (s'.setPc next).getReg q) ∧
      drawn = { s'.setPc next with regs := drawn.regs, draws := s'.draws + 6 }) ∧
    (c.kind = .int → c.dest.float = none → execClass c n specs s =
      match readString len addr s' with
      | .error e => raiseStop s e
      | .ok str => conclude s (classInt c.dest (Config.intOutcome c.opcode inputs [str]).correct
          (Config.intOutcome c.opcode inputs [str]).carry dst.place drawn)) ∧
    (∀ t, c.kind = .flt → c.dest.float = some t → execClass c n specs s =
      match readString len addr s' with
      | .error e => raiseStop s e
      | .ok str => conclude s (classFlt t (Config.floatOutcome c.opcode inputs [str]) dst.place drawn))) ∧
  ∀ (c : ClassOp) (n : Nat) (specs : List Specifier) (types : List OpType) (s s' : State) (os : List Evaluated)
    (dst : Evaluated) (next : Longword) (inputs : List Octaword),
    c.sources = types.map .scalar → os.length = types.length →
    evalOperands c.operands specs (addrAdd s.pc n) s = .ok (os ++ [dst], next, s') →
    inputs = os.map Evaluated.value ++ (if c.modify then [dst.value] else []) →
    (c.kind = .int → c.dest.float = none → execClass c n specs s =
      conclude s (classInt c.dest (Config.intOutcome c.opcode inputs []).correct
        (Config.intOutcome c.opcode inputs []).carry dst.place (s'.setPc next))) ∧
    (c.kind = .idiv → c.dest.float = none → ∀ divisor dividend rest, inputs = divisor :: dividend :: rest →
      execClass c n specs s = conclude s (classIdiv c.dest dividend divisor dst.place (s'.setPc next))) ∧
    (∀ t, c.kind = .flt → c.dest.float = some t → execClass c n specs s =
      conclude s (classFlt t (Config.floatOutcome c.opcode inputs []) dst.place (s'.setPc next))) ∧
    (∀ t, c.kind = .fdiv → c.dest.float = some t → ∀ divisor dividend rest, inputs = divisor :: dividend :: rest →
      execClass c n specs s = conclude s
        (classFdiv t dividend divisor (Config.floatOutcome c.opcode inputs []) dst.place (s'.setPc next)))

/-- A step at an opcode of no row of the table: an opcode of SUBSET_OPS raises an emulation exception, the trap where FPD is
clear as the instruction begins, the fault, with the PC and the PSL pushed, where it is set (42_instruction_execution_exceptions.md
R166, R168 to R170; EMUL_FRAME is opaque, log 38). A vector whose code is 1 is served too: that IS is then set with the frame on
the current stack is log 23, that PRV is unchanged log 24. -/
def Obligations.EmulationExceptions : Prop :=
  ∀ (s : State) (code : Word) (n : Nat) (rest : List Byte), s.psl.tp = false → s.psl.cm = false →
    decode false s.sampleTrace.fetchWindow.1 = .unknownOpcode code n rest → code ∈ s.config.subsetOps →
    (s.psl.fpd = false →
      step s = initiate .subsetEmulationTrap s.pc { s.psl with tp := s.psl.t } (s.sampleTrace.afterFetch.advanceDraws 1)) ∧
    (s.psl.fpd = true → canEnter .suspendedEmulationFault 2 s.sampleTrace.afterFetch →
      ∃ t, step s = .next t ∧ t.psl.cur = s.psl.cur ∧
        entered .suspendedEmulationFault { s.psl with tp := false } [({ s.psl with tp := false } : Psl).pack, s.pc]
          s.sampleTrace.afterFetch t)

/-- A step at another opcode of no row of the table runs the class instruction that the configuration makes of it
(40_arithmetic_exceptions.md R118; log 35), and where there is none is refused, never taken to be reserved
(30_encoding.md R79; log 39). Where the bytes that can be fetched end inside the class instruction, the specifiers that are whole
are evaluated first, and if none of them stops it, what stopped the fetch does (60_exceptions.md R242 phase 4; log 42). A
compatibility-mode word of no row is refused, never taken to be reserved (R81, R185; log 39). That a decimal-string instruction
entered with FPD set that is cut short is no refusal, but what its specifiers or its fetch come to, is the model's choice
(log 32). -/
def Obligations.OtherOpcodes : Prop :=
  (∀ (s : State) (b0 b1 : Byte), s.psl.tp = false → s.psl.cm = true → s.pc.getLsbD 0 = false →
    s.fetchByte 0 = .ok b0 → s.fetchByte 1 = .ok b1 →
    ¬ (b1 = 0x00 ∧ (b0 = 0x03 ∨ b0 = 0x04)) → b1 ≠ 0x88 → b1 ≠ 0x89 →
    step s = .refused (.unknownCompatWord (b1 ++ b0))) ∧
  (∀ (s : State) (code : Word) (n : Nat) (rest : List Byte) (before after : List ClassOp) (c : ClassOp)
    (specs : List Specifier), s.psl.tp = false → s.psl.cm = false →
    decode false s.sampleTrace.fetchWindow.1 = .unknownOpcode code n rest → code ∉ s.config.subsetOps →
    s.config.classOps = before ++ c :: after → (∀ c' ∈ before, c'.opcode ≠ code) → c.opcode = code →
    decodeSpecs c.operands rest = .cut specs →
    step s =
      match evalOperands c.operands specs (addrAdd s.pc n) s.sampleTrace.afterFetch with
      | .error e => raiseStop s.sampleTrace.afterFetch e
      | .ok _ => raiseStop s.sampleTrace.afterFetch s.sampleTrace.fetchWindow.2) ∧
  ∀ (s : State) (code : Word) (n : Nat) (rest : List Byte), s.psl.tp = false → s.psl.cm = false →
    decode false s.sampleTrace.fetchWindow.1 = .unknownOpcode code n rest → code ∉ s.config.subsetOps →
    ((∀ c ∈ s.config.classOps, c.opcode ≠ code) → step s = .refused (.unknownOpcode code)) ∧
    ∀ (before after : List ClassOp) (c : ClassOp) (specs : List Specifier) (rest' : List Byte),
      s.config.classOps = before ++ c :: after → (∀ c' ∈ before, c'.opcode ≠ code) → c.opcode = code →
      decodeSpecs c.operands rest = .whole specs rest' → step s = execClass c n specs s.sampleTrace.afterFetch

/-! ## POLYx -/

/-- POLYx of degree 0: the one coefficient is the result, in R0 and the registers after it that its type takes; the condition
codes are the oracle's of the result; no byte of memory changes; the registers POLYx leaves with values the spec does not
state are log 30 (R115; registers and flags log 29 to 31). -/
def Obligations.PolyDegreeZeroCompletes : Prop :=
  ∀ (arg degree tbladdr : Specifier) (s : State) (a b c : Evaluated) (coeff : Octaword) (i : Instr) (t : FloatType)
    (opLen : Nat),
    (i, t, opLen) ∈ [(Instr.polyf arg degree tbladdr, FloatType.f, 1), (.polyd arg degree tbladdr, .d, 1),
      (.polyg arg degree tbladdr, .g, 2), (.polyh arg degree tbladdr, .h, 2)] →
    s.psl.fpd = false → evalOperand ⟨.read, t.opType⟩ arg (addrAdd s.pc opLen) s = .ok a →
    evalOperand readWord degree a.next a.state = .ok b → evalOperand addressByte tbladdr b.next b.state = .ok c →
    b.word = 0 → (c.state.readBytes s.psl.cur t.opType.size c.long).map leOcta = .ok coeff →
    isReservedFloat t coeff = false →
    ∃ w, exec i s = .next w ∧ w.pc = c.next ∧ w.psl = s.psl.withCodes (Config.polyFlags t coeff) ∧
      w.readRegOperand t.opType 0 = coeff ∧
      (∀ q : Reg, q ≠ 15 → regCount t.opType + polyOtherRegs t ≤ q.val → w.getReg q = c.state.getReg q) ∧
      w.sps = c.state.sps ∧ w.mem = s.mem ∧ w.staleCode = s.staleCode ∧ sameSetting s w

/-- POLYx of degree 1, by what the oracle says of its one step: a normal step stores its result; an overflow, and an underflow
with FU set, suspend a processor that faults, with code 8 or 10 and FPD set in the saved PSL; on a processor that traps an
overflow stores the reserved operand and traps with code 3, an underflow's zero is the final result and, with FU set, the trap
with code 5 comes after the instruction (R109, R112, R114, R115). Of any degree up to 31, by what the oracle says of its steps in order
(`polyRun`): a coefficient that cannot be read, or is reserved (R125), stops it where it is reached; an overflow, or an underflow
with FU set on a processor that faults, in any step ends it there; else there is one trap with code 5 just when, with FU set,
some step underflowed, however many did. A degree over 31 raises the reserved operand fault (R149; log 29; registers and flags
log 30, 31). That a suspended POLYx leaves R0 to R13 as at its start is the model's choice (log 46). -/
def Obligations.PolyOneStep : Prop :=
  (∀ (arg degree tbladdr : Specifier) (s : State) (a b c : Evaluated) (i : Instr) (t : FloatType) (opLen : Nat),
    (i, t, opLen) ∈ [(Instr.polyf arg degree tbladdr, FloatType.f, 1), (.polyd arg degree tbladdr, .d, 1),
      (.polyg arg degree tbladdr, .g, 2), (.polyh arg degree tbladdr, .h, 2)] →
    s.psl.fpd = false → evalOperand ⟨.read, t.opType⟩ arg (addrAdd s.pc opLen) s = .ok a →
    evalOperand readWord degree a.next a.state = .ok b → evalOperand addressByte tbladdr b.next b.state = .ok c →
    (31 < b.word.toNat → exec i s = raiseStop s (.fault .reservedOperand)) ∧
    (b.word.toNat ≤ 31 → ∀ (coeffs : List Octaword) (stop : Option Stop),
      (∀ k, (h : k < coeffs.length) → isReservedFloat t coeffs[k] = false ∧
        (c.state.readBytes s.psl.cur t.opType.size (addrAdd c.long (k * t.opType.size))).map leOcta = .ok coeffs[k]) →
      (match stop with
        | none => coeffs.length = b.word.toNat + 1
        | some e => coeffs.length ≤ b.word.toNat ∧
            let next := c.state.readBytes s.psl.cur t.opType.size (addrAdd c.long (coeffs.length * t.opType.size))
            next = .error e ∨ ∃ bs, next = .ok bs ∧ isReservedFloat t (leOcta bs) = true ∧ e = .fault .reservedOperand) →
      exec i s =
        match polyRun (Config.polyStep t a.value) (s.psl.fu && s.config.floatStyle == .fault) coeffs, stop with
        | .overflow, _ =>
          match s.config.floatStyle with
          | .fault => raiseStop s (.floatingFault .floatingOverflow true)
          | .trap => raiseTrap (.arithmeticTrap .floatingOverflow)
              (polyStore t 0x8000 ⟨true, false, true, false⟩ (c.state.setPc c.next))
        | .underflow, _ => raiseStop s (.floatingFault .floatingUnderflow true)
        | .final _ _, some e => raiseStop s e
        | .final r underflowed, none =>
          if s.psl.fu = true ∧ underflowed = true then raiseTrap (.arithmeticTrap .floatingUnderflow)
            (polyStore t r (Config.polyFlags t r) (c.state.setPc c.next))
          else .next (polyStore t r (Config.polyFlags t r) (c.state.setPc c.next)))) ∧
  ∀ (arg degree tbladdr : Specifier) (s : State) (a b c : Evaluated) (c0 c1 : Octaword) (i : Instr) (t : FloatType)
    (opLen : Nat),
    (i, t, opLen) ∈ [(Instr.polyf arg degree tbladdr, FloatType.f, 1), (.polyd arg degree tbladdr, .d, 1),
      (.polyg arg degree tbladdr, .g, 2), (.polyh arg degree tbladdr, .h, 2)] →
    s.psl.fpd = false → evalOperand ⟨.read, t.opType⟩ arg (addrAdd s.pc opLen) s = .ok a →
    evalOperand readWord degree a.next a.state = .ok b → evalOperand addressByte tbladdr b.next b.state = .ok c →
    b.word = 1 → (c.state.readBytes s.psl.cur t.opType.size c.long).map leOcta = .ok c0 →
    (c.state.readBytes s.psl.cur t.opType.size (addrAdd c.long t.opType.size)).map leOcta = .ok c1 →
    isReservedFloat t c0 = false → isReservedFloat t c1 = false →
    match Config.polyStep t a.value c0 c1 with
    | .normal r => exec i s = .next (polyStore t r (Config.polyFlags t r) (c.state.setPc c.next))
    | .overflow =>
      match s.config.floatStyle with
      | .fault => exec i s = raiseStop s (.floatingFault .floatingOverflow true)
      | .trap => exec i s = raiseTrap (.arithmeticTrap .floatingOverflow)
          (polyStore t 0x8000 ⟨true, false, true, false⟩ (c.state.setPc c.next))
    | .underflow =>
      if s.psl.fu = true then
        match s.config.floatStyle with
        | .fault => exec i s = raiseStop s (.floatingFault .floatingUnderflow true)
        | .trap => exec i s = raiseTrap (.arithmeticTrap .floatingUnderflow)
            (polyStore t 0 (Config.polyFlags t 0) (c.state.setPc c.next))
      else exec i s = .next (polyStore t 0 (Config.polyFlags t 0) (c.state.setPc c.next))

/-! ## CALLS, CALLG, RET -/

/-- CALLG: where the entry mask's bits 13:12 are zero and the frame can be written, the procedure is entered, T unchanged; memory
changes in the frame alone, which holds the frame (43_trace.md R216, R220, R221; the frame is PRESUMED, log 33). -/
def Obligations.CallgEnters : Prop :=
  ∀ (arglist dst : Specifier) (s : State) (a d : Evaluated) (mask : Word),
    evalOperand addressByte arglist (addrAdd s.pc 1) s = .ok a → evalOperand addressByte dst a.next a.state = .ok d →
    d.state.readWord d.long = .ok mask → mask.extractLsb' 12 2 = 0#2 →
    d.state.canWrite s.psl.cur (callBottom mask d.state) (4 * (5 + (maskRegs mask).length)) →
    ∃ t, exec (.callg arglist dst) s = .next t ∧ calledFrom a.long d.long mask d.state t ∧ t.psl.t = s.psl.t ∧
      memorySameOutside s.psl.cur (callBottom mask d.state) (4 * (5 + (maskRegs mask).length)) d.state t ∧
      (s.wf → s.separate s.psl.cur (callBottom mask d.state) (4 * (5 + (maskRegs mask).length)) →
        memoryHolds s.psl.cur (callBottom mask d.state)
          ((callFrame false mask d.next d.state).flatMap fun v => leBytes 4 v.toNat) d.state t)

/-- CALLS: as CALLG, with the argument count pushed first and the argument list beginning there; memory changes in the count and
the frame alone (R216, R220; log 33). -/
def Obligations.CallsEnters : Prop :=
  ∀ (numarg dst : Specifier) (s : State) (a d : Evaluated) (mask : Word),
    evalOperand readLong numarg (addrAdd s.pc 1) s = .ok a → evalOperand addressByte dst a.next a.state = .ok d →
    d.state.readWord d.long = .ok mask → mask.extractLsb' 12 2 = 0#2 →
    d.state.canWrite s.psl.cur (d.state.sp - 4) 4 →
    d.state.canWrite s.psl.cur (callBottom mask (d.state.setSp (d.state.sp - 4))) (4 * (5 + (maskRegs mask).length)) →
    ∃ t, exec (.calls numarg dst) s = .next t ∧
      calledFrom (d.state.sp - 4) d.long mask (d.state.setSp (d.state.sp - 4)) t ∧ t.psl.t = s.psl.t ∧
      (∀ pa, (∀ i < 4, s.physical s.psl.cur .write (addrAdd (d.state.sp - 4) i) ≠ .ok pa) →
        (∀ i < 4 * (5 + (maskRegs mask).length),
          s.physical s.psl.cur .write (addrAdd (callBottom mask (d.state.setSp (d.state.sp - 4))) i) ≠ .ok pa) →
        t.physicalByte pa = s.physicalByte pa) ∧
      (s.wf → s.flat →
        memoryHolds s.psl.cur (d.state.sp - 4) (leBytes 4 a.long.toNat) s t ∧
        memoryHolds s.psl.cur (callBottom mask (d.state.setSp (d.state.sp - 4)))
          ((callFrame true mask d.next (d.state.setSp (d.state.sp - 4))).flatMap fun v => leBytes 4 v.toNat) s t)

/-- The status a call saves has T clear whatever PSL.T is, PSL.T is unchanged by the call, and a RET of that status leaves T
clear (R216). -/
def Obligations.CallSavesClearTrace : Prop :=
  ∀ (isCalls : Bool) (align : BitVec 2) (mask : Word) (p q : Psl),
    (callStatus isCalls align mask p).getLsbD 4 = false ∧ (procedurePsl mask p).t = p.t ∧
    (q.withPsw ((callStatus isCalls align mask p).setWidth 16)).t = false

/-- CALLG and CALLS of a procedure whose entry mask has bits 13:12 set, and RET from a frame whose saved status has a bit of 15:8
or the saved mask's reserved bit 28 set, raise the reserved operand fault, with nothing pushed or popped by the instruction (R220, R222;
41_memory_and_operand_exceptions.md R149; log 33, 34). -/
def Obligations.BadCallFramesFault : Prop :=
  ∀ s : State, canEnter .reservedOperand 2 s →
    (∀ (x dst : Specifier) (i : Instr) (k : OperandKind) (a d : Evaluated) (mask : Word),
      (i, k) ∈ [(Instr.callg x dst, addressByte), (.calls x dst, readLong)] →
      evalOperand k x (addrAdd s.pc 1) s = .ok a → evalOperand addressByte dst a.next a.state = .ok d →
      d.state.readWord d.long = .ok mask → mask.extractLsb' 12 2 ≠ 0#2 →
      ∃ t, exec i s = .next t ∧
        entered .reservedOperand { s.psl with tp := false } [({ s.psl with tp := false } : Psl).pack, s.pc] s t) ∧
    ∀ status : Longword, s.readLong (s.getReg fpReg + 4) = .ok status →
      (status.extractLsb' 8 8 ≠ 0#8 ∨ status.getLsbD 28 = true) →
      ∃ t, exec .ret s = .next t ∧
        entered .reservedOperand { s.psl with tp := false } [({ s.psl with tp := false } : Psl).pack, s.pc] s t

/-- RET from a frame at FP: the PC, AP and FP come from the frame, each register of the mask from its longword, the stack pointer
from the frame's end, the alignment and, for a CALLS frame, the argument list; the PSW from the status. No byte of memory
changes (43_trace.md R222; PRESUMED, log 34). -/
def Obligations.RetReturns : Prop :=
  ∀ (s : State) (status ap fp pc base count : Longword) (mask : Word),
    s.readLong (s.getReg fpReg + 4) = .ok status → s.readLong (s.getReg fpReg + 8) = .ok ap →
    s.readLong (s.getReg fpReg + 12) = .ok fp → s.readLong (s.getReg fpReg + 16) = .ok pc →
    status.extractLsb' 8 8 = 0#8 → status.getLsbD 28 = false → mask = (status.extractLsb' 16 12).setWidth 16 →
    s.canRead s.psl.cur (s.getReg fpReg + 20) (4 * (maskRegs mask).length) →
    base = s.getReg fpReg + 20 + BitVec.ofNat 32 (4 * (maskRegs mask).length) + (status.extractLsb' 30 2).setWidth 32 →
    (status.getLsbD 29 = true → s.readLong base = .ok count) →
    ∃ t, exec .ret s = .next t ∧ t.pc = pc ∧ t.getReg apReg = ap ∧ t.getReg fpReg = fp ∧
      (∀ i < 12, if mask.getLsbD i then
          s.readLong (s.getReg fpReg + 20 + BitVec.ofNat 32 (4 * maskRank mask i)) = .ok (t.getReg (Fin.ofNat 16 i))
        else t.getReg (Fin.ofNat 16 i) = s.getReg (Fin.ofNat 16 i)) ∧
      t.sp = (if status.getLsbD 29 then base + 4 + 4 * (count.extractLsb' 0 8).setWidth 32 else base) ∧
      t.psl = s.psl.withPsw (status.setWidth 16) ∧ sameOtherStacks s t ∧ t.mem = s.mem ∧ t.staleCode = s.staleCode ∧
      sameSetting s t ∧ t.draws = s.draws

/-- The RET that matches a CALLG, run at the procedure's entry: PC, stack pointer and every register R0 to R13 are again what
they were before the call; IV, FU and DV too; N, Z, V, C and T are clear (R216, R220 to R222; log 33, 34). So for CALLS, the
argument list removed: the stack pointer is past the arguments, as many longwords as the low byte of their count says. -/
def Obligations.RetUndoesCallg : Prop :=
  (∀ (numarg dst : Specifier) (s t : State) (a d : Evaluated) (mask : Word), s.wf → s.flat →
    evalOperand readLong numarg (addrAdd s.pc 1) s = .ok a → evalOperand addressByte dst a.next a.state = .ok d →
    d.state.readWord d.long = .ok mask → mask.extractLsb' 12 2 = 0#2 → exec (.calls numarg dst) s = .next t →
    ∃ u, exec .ret t = .next u ∧ u.pc = d.next ∧ u.regs = d.state.regs ∧
      u.sps = d.state.sps.set s.psl.stack (d.state.sp + 4 * (a.long.extractLsb' 0 8).setWidth 32) ∧
      u.psl = { s.psl with n := false, z := false, v := false, c := false, t := false }) ∧
  ∀ (arglist dst : Specifier) (s t : State) (a d : Evaluated) (mask : Word), s.wf → s.flat →
    evalOperand addressByte arglist (addrAdd s.pc 1) s = .ok a → evalOperand addressByte dst a.next a.state = .ok d →
    d.state.readWord d.long = .ok mask → mask.extractLsb' 12 2 = 0#2 → exec (.callg arglist dst) s = .next t →
    ∃ u, exec .ret t = .next u ∧ u.pc = d.next ∧ u.regs = d.state.regs ∧ u.sps = d.state.sps ∧
      u.psl = { s.psl with n := false, z := false, v := false, c := false, t := false }

/-! ## Operands -/

/-- The address of every memory form, with its register side effect (30_encoding.md R75, R76; log 13, 16, 17; the floating sizes
log 49): register deferred,
autodecrement and autoincrement by the operand's size, immediate, autoincrement deferred by 4, absolute, and the
displacements, whose base is the address after the specifier for register 15. -/
def Obligations.OperandAddresses : Prop :=
  ∀ (t : OpType) (pos : Longword) (s : State) (r : Reg), r ≠ 15 →
    let at' (b : BaseSpec) (a : Longword) (s' : State) : Prop :=
      evalOperand ⟨.address, t⟩ (.plain b) pos s =
        .ok ⟨a.setWidth 128, .mem a, addrAdd pos (b.length t), s'⟩
    at' (.deferred r) (s.getReg r) s ∧
    at' (.autodecrement r) (s.getReg r - BitVec.ofNat 32 t.size) (s.setReg r (s.getReg r - BitVec.ofNat 32 t.size)) ∧
    at' (.autoincrement r) (s.getReg r) (s.setReg r (addrAdd (s.getReg r) t.size)) ∧
    (∀ v, at' (.immediate v) (addrAdd pos 1) s) ∧
    (∀ a, s.readLong (s.getReg r) = .ok a → at' (.autoincrementDeferred r) a (s.setReg r (addrAdd (s.getReg r) 4))) ∧
    (∀ a, at' (.absolute a) a s) ∧
    (∀ d : Byte, at' (.byteDisp r d) (s.getReg r + d.signExtend 32) s ∧
      at' (.byteDisp 15 d) (addrAdd pos 2 + d.signExtend 32) s ∧
      (∀ a, s.readLong (s.getReg r + d.signExtend 32) = .ok a → at' (.byteDispDeferred r d) a s) ∧
      ∀ a, s.readLong (addrAdd pos 2 + d.signExtend 32) = .ok a → at' (.byteDispDeferred 15 d) a s) ∧
    (∀ d : Word, at' (.wordDisp r d) (s.getReg r + d.signExtend 32) s ∧
      at' (.wordDisp 15 d) (addrAdd pos 3 + d.signExtend 32) s ∧
      (∀ a, s.readLong (s.getReg r + d.signExtend 32) = .ok a → at' (.wordDispDeferred r d) a s) ∧
      ∀ a, s.readLong (addrAdd pos 3 + d.signExtend 32) = .ok a → at' (.wordDispDeferred 15 d) a s) ∧
    (∀ d : Longword, at' (.longDisp r d) (s.getReg r + d) s ∧ at' (.longDisp 15 d) (addrAdd pos 5 + d) s ∧
      (∀ a, s.readLong (s.getReg r + d) = .ok a → at' (.longDispDeferred r d) a s) ∧
      ∀ a, s.readLong (addrAdd pos 5 + d) = .ok a → at' (.longDispDeferred 15 d) a s)

/-- A short literal, a register, an immediate and an operand in memory, read: the value is the literal's, the register's, the one
that was fetched (R60, R75), the bytes', and nothing changes; the index form adds the index register times the operand's
size (R75, R76; log 15, 17). A register operand of 8 or 16 bytes takes the registers from its own up, the lowest lowest (log 16; which
types have 8 or 16 bytes, log 49);
one that reaches the PC has a free value in the parts past R14, and writing it leaves the PC free (R78; log 14). -/
def Obligations.OperandValues : Prop :=
  ∀ (pos : Longword) (s : State),
    (∀ v, evalOperand readLong (.plain (.immediate v)) pos s =
      .ok ⟨v, .mem (addrAdd pos 1), addrAdd pos 5, s⟩) ∧
    (∀ (t : OpType) (r : Reg) (o : Evaluated), r ≠ 15 → 4 ≤ t.size →
      evalOperand ⟨.read, t⟩ (.plain (.register r)) pos s = .ok o →
      o.place = .reg r ∧ o.next = addrAdd pos 1 ∧ o.state = s ∧
      ∀ k < t.size / 4,
        (r.val + k < 15 → o.value.extractLsb' (32 * k) 32 = s.getReg (Fin.ofNat 16 (r.val + k))) ∧
        (15 ≤ r.val + k → o.value.extractLsb' (32 * k) 32 =
          (Config.pcOperand s.draws (addrAdd pos 1)).extractLsb' (32 * (r.val + k - 15)) 32)) ∧
    (∀ (t : OpType) (r : Reg) (v : Octaword), r ≠ 15 → reachesPc t r = true →
      ∃ w, s.writePlace t v (.reg r) = .ok w ∧ w.pc = (Config.pcOperand s.draws s.pc).extractLsb' 96 32 ∧
        (∀ q : Reg, q ≠ 15 → w.getReg q =
          if q.val < r.val then s.getReg q else v.extractLsb' (32 * (q.val - r.val)) 32) ∧
        w.mem = s.mem ∧ w.staleCode = s.staleCode ∧ w.psl = s.psl ∧ sameSetting s w) ∧
    (∀ v : BitVec 6, evalOperand readLong (.plain (.literal v)) pos s =
      .ok ⟨v.setWidth 128, .literal, addrAdd pos 1, s⟩) ∧
    (∀ r : Reg, r ≠ 15 → ∃ o, evalOperand readLong (.plain (.register r)) pos s = .ok o ∧ o.long = s.getReg r ∧
      o.place = .reg r ∧ o.next = addrAdd pos 1 ∧ o.state = s) ∧
    (∀ r : Reg, r ≠ 15 → ∀ v, s.readLong (s.getReg r) = .ok v →
      ∃ o, evalOperand modifyLong (.plain (.deferred r)) pos s = .ok o ∧ o.long = v ∧ o.place = .mem (s.getReg r) ∧
        o.next = addrAdd pos 1 ∧ o.state = s) ∧
    (∀ x r : Reg, x ≠ 15 → r ≠ 15 →
      ∃ o, evalOperand writeLong (.indexed x (.deferred r)) pos s = .ok o ∧
        o.place = .mem (s.getReg r + s.getReg x * 4) ∧ o.next = addrAdd pos 2 ∧ o.state = s)

/-- Evaluating a specifier changes no register but the one it steps, no byte of memory, and nothing of the PSL or the setting
(R75, R76). Which forms step a register, and that the others beyond R76 step none, is log 13. -/
def Obligations.OperandChangesOnlyItsRegister : Prop :=
  ∀ (k : OperandKind) (sp : Specifier) (pos : Longword) (s : State) (o : Evaluated), evalOperand k sp pos s = .ok o →
    (∀ q : Reg, steppedRegister sp ≠ some q → o.state.getReg q = s.getReg q) ∧ sameOtherStacks s o.state ∧
    o.state.mem = s.mem ∧ o.state.staleCode = s.staleCode ∧ o.state.psl = s.psl ∧ o.state.pc = s.pc ∧
    sameSetting s o.state ∧ o.state.draws = s.draws ∧ o.next = addrAdd pos (sp.length k.type)

/-- The reserved addressing modes (R78; 41_memory_and_operand_exceptions.md R145): a short literal that is not only read, a
register whose address is taken, the PC as index register, an index before a literal, a register or another index. The PC
in register, register deferred and autodecrement mode, UNPREDICTABLE by R78, is refused (log 14). Where both hold, the PC as
index register before such a mode of the PC or an index byte before the PC as a register, that the fault is raised is
the model's choice (log 14). -/
def Obligations.DisallowedOperandForms : Prop :=
  ∀ (k : OperandKind) (pos : Longword) (s : State),
    (∀ v, k.access ≠ .read → evalOperand k (.plain (.literal v)) pos s = .error (.fault .reservedAddressingMode)) ∧
    (∀ r, k.access = .address → evalOperand k (.plain (.register r)) pos s = .error (.fault .reservedAddressingMode)) ∧
    (∀ b, evalOperand k (.indexed 15 b) pos s = .error (.fault .reservedAddressingMode)) ∧
    (∀ x v, evalOperand k (.indexed x (.literal v)) pos s = .error (.fault .reservedAddressingMode)) ∧
    (∀ x r, evalOperand k (.indexed x (.register r)) pos s = .error (.fault .reservedAddressingMode)) ∧
    (∀ x y, evalOperand k (.indexedTwice x y) pos s = .error (.fault .reservedAddressingMode)) ∧
    (k.access ≠ .address → evalOperand k (.plain (.register 15)) pos s = .error (.refused .unpredictablePcOperand)) ∧
    evalOperand k (.plain (.deferred 15)) pos s = .error (.refused .unpredictablePcOperand) ∧
    evalOperand k (.plain (.autodecrement 15)) pos s = .error (.refused .unpredictablePcOperand)

/-- A fault of an operand backs the instruction up: the exception is initiated from the state at its start, registers already
stepped restored, with the opcode's address as the saved PC (41_memory_and_operand_exceptions.md R142, R145, R146; 60_exceptions.md
R231; 43_trace.md R210). So for every native instruction, with its operands in order (POLYx with FPD clear and CHMx with IS
clear, as the others are refused); so for the read of the entry mask by CALLG and CALLS, for the pops of REI and RET, for the
write of a result of ADDL2, DIVL2 and INDEX and for the pushes of CALLG and CALLS (R142; 60_exceptions.md R242 phase 5; 43_trace.md
R218, R222; the frame is log 33, 34); so for the operands and the destination of a class instruction. That the fault of an access is
that of its first byte that cannot be made, whose address is pushed, is the model's choice (log 20). -/
def Obligations.OperandFaultBacksUp : Prop :=
  (∀ (i : Instr) (op : Opcode) (specs : List Specifier) (s : State) (e : Exc), i.native = some (op, specs) →
    (op ∈ [Opcode.polyf, .polyd, .polyg, .polyh] → s.psl.fpd = false) →
    (op ∈ [Opcode.chmk, .chme, .chms, .chmu] → s.psl.is = false) →
    evalOperands op.operands specs (addrAdd s.pc op.bytes.length) s = .error (.fault e) →
    exec i s = raiseFault e s ∧
    (canEnter e (e.frame s.pc { s.psl with tp := false } s).length s →
      ∃ t, exec i s = .next t ∧
        entered e { s.psl with tp := false } (e.frame s.pc { s.psl with tp := false } s) s t)) ∧
  (∀ (i : Instr) (op : Opcode) (specs : List Specifier) (s s' : State) (os : List Evaluated) (last : Evaluated)
    (next a : Longword) (j : Nat) (e : Exc), i.native = some (op, specs) → op ∈ [Opcode.addl2, .divl2, .index] →
    evalOperands op.operands specs (addrAdd s.pc op.bytes.length) s = .ok (os ++ [last], next, s') → last.place = .mem a →
    j < 4 → (∀ k < j, ∃ pa, s.physical s.psl.cur .write (addrAdd a k) = .ok pa) →
    s.physical s.psl.cur .write (addrAdd a j) = .error (.fault e) → exec i s = raiseFault e s) ∧
  (∀ (x dst : Specifier) (s : State) (a d : Evaluated) (i : Instr) (k : OperandKind) (e : Exc),
    (i, k) ∈ [(Instr.callg x dst, addressByte), (.calls x dst, readLong)] →
    evalOperand k x (addrAdd s.pc 1) s = .ok a → evalOperand addressByte dst a.next a.state = .ok d →
    d.state.readWord d.long = .error (.fault e) → exec i s = raiseFault e s) ∧
  (∀ (s : State) (e : Exc),
    s.readLong s.sp = .error (.fault e) ∨
      (∃ pc, s.readLong s.sp = .ok pc ∧ s.readLong (s.sp + 4) = .error (.fault e)) →
    exec .rei s = raiseFault e s) ∧
  (∀ (s : State) (e : Exc), s.readLong (s.getReg fpReg + 4) = .error (.fault e) → exec .ret s = raiseFault e s) ∧
  (∀ (s : State) (status a : Longword) (before after : List Longword) (e : Exc),
    s.readLong (s.getReg fpReg + 4) = .ok status → status.extractLsb' 8 8 = 0#8 → status.getLsbD 28 = false →
    let saved := (maskRegs ((status.extractLsb' 16 12).setWidth 16)).length
    [s.getReg fpReg + 8, s.getReg fpReg + 12, s.getReg fpReg + 16] ++
        (List.range saved).map (fun k => s.getReg fpReg + 20 + BitVec.ofNat 32 (4 * k)) ++
        (if status.getLsbD 29 then
          [s.getReg fpReg + 20 + BitVec.ofNat 32 (4 * saved) + (status.extractLsb' 30 2).setWidth 32] else []) =
      before ++ a :: after →
    (∀ b ∈ before, ∃ v, s.readLong b = .ok v) → s.readLong a = .error (.fault e) → exec .ret s = raiseFault e s) ∧
  (∀ (c : ClassOp) (n : Nat) (specs : List Specifier) (s : State) (e : Exc),
    (c.kind.isDecimal = true ∨ .string ∈ c.sources → s.psl.fpd = false) →
    evalOperands c.operands specs (addrAdd s.pc n) s = .error (.fault e) → execClass c n specs s = raiseFault e s) ∧
  (∀ (s : State) (a : Longword) (j size : Nat) (e : Exc), j < size →
    (∀ k < j, ∃ pa, s.physical s.psl.cur .write (addrAdd a k) = .ok pa) →
    s.physical s.psl.cur .write (addrAdd a j) = .error (.fault e) →
    (∀ (t : OpType) (x : Int) (c : Bool) (v w : Octaword), t.size = size →
      classInt t x c (.mem a) s = .error (.fault e) ∧ classIdiv t v w (.mem a) s = .error (.fault e)) ∧
    (∀ (t : FloatType) (v : Octaword) (cc : CondCodes), t.opType.size = size →
      classFlt t (.normal v cc) (.mem a) s = .error (.fault e)) ∧
    (∀ (o : DecOutcome) (len : Nat) (divisor : DecimalString), decimalSize len = size →
      classDec o len a s = .error (.fault e) ∧ classDdiv divisor o len a s = .error (.fault e)) ∧
    ∀ start : State, conclude start (.error (.fault e)) = raiseFault e start) ∧
  (∀ (x dst : Specifier) (s : State) (a d : Evaluated) (mask : Word),
    evalOperand addressByte x (addrAdd s.pc 1) s = .ok a → evalOperand addressByte dst a.next a.state = .ok d →
    d.state.readWord d.long = .ok mask → mask.extractLsb' 12 2 = 0#2 →
    ¬ d.state.canWrite s.psl.cur (callBottom mask d.state) (4 * (5 + (maskRegs mask).length)) →
    ∃ f va, exec (.callg x dst) s = raiseFault (.memory f va .write) s) ∧
  (∀ (x dst : Specifier) (s : State) (a d : Evaluated) (mask : Word),
    evalOperand readLong x (addrAdd s.pc 1) s = .ok a → evalOperand addressByte dst a.next a.state = .ok d →
    d.state.readWord d.long = .ok mask → mask.extractLsb' 12 2 = 0#2 →
    ¬ (d.state.canWrite s.psl.cur (d.state.sp - 4) 4 ∧
      d.state.canWrite s.psl.cur (callBottom mask (d.state.setSp (d.state.sp - 4))) (4 * (5 + (maskRegs mask).length))) →
    ∃ f va, exec (.calls x dst) s = raiseFault (.memory f va .write) s) ∧
  ∀ (x y : Specifier) (s : State) (e : Exc) (i : Instr), i = .addl2 x y ∨ i = .divl2 x y →
    (evalOperand readLong x (addrAdd s.pc 1) s = .error (.fault e) ∨
      ∃ a, evalOperand readLong x (addrAdd s.pc 1) s = .ok a ∧
        evalOperand modifyLong y a.next a.state = .error (.fault e)) →
    canEnter e (e.frame s.pc { s.psl with tp := false } s).length s →
    ∃ t, exec i s = .next t ∧
      entered e { s.psl with tp := false } (e.frame s.pc { s.psl with tp := false } s) s t

/-- A floating operand with sign 1 and exponent 0, whatever its fraction, raises the reserved operand fault where it is read or
modified, from registers or from memory, and no operand that is read or modified has such a value
(40_arithmetic_exceptions.md R105, R125). The sign is bit 15 of the first word and the reserved operand a trap stores is the
word 8000 for every type (R105); a zero divisor has sign 0 and exponent 0 (R122); the exponent field's place is log 19. That an
operand of 8 or 16 bytes in registers takes them lowest first is log 16, that D, G and H have these sizes log 49; that the fault is one of every instruction, not of
classes FLT and FDIV and POLYx alone, which R125 leaves open, is log 47. -/
def Obligations.ReservedFloatOperandFaults : Prop :=
  (∀ (t : FloatType) (v : Octaword),
    let exponentIsZero : Prop :=
      match t with
      | .f | .d => v.extractLsb' 7 8 = 0#8
      | .g => v.extractLsb' 4 11 = 0#11
      | .h => v.extractLsb' 0 15 = 0#15
    (isReservedFloat t v = true ↔ v.getLsbD 15 = true ∧ exponentIsZero) ∧
    (isFloatZero t v = true ↔ v.getLsbD 15 = false ∧ exponentIsZero) ∧
    isReservedFloat t 0x8000 = true ∧ isFloatZero t 0 = true) ∧
  ∀ (t : FloatType) (access : OpAccess) (pos : Longword) (s : State), access = .read ∨ access = .modify →
    (∀ r, reachesPc t.opType r = false → isReservedFloat t (s.readRegOperand t.opType r) = true →
      evalOperand ⟨access, t.opType⟩ (.plain (.register r)) pos s = .error (.fault .reservedOperand)) ∧
    (∀ r v, r ≠ 15 → (s.readBytes s.psl.cur t.opType.size (s.getReg r)).map leOcta = .ok v → isReservedFloat t v = true →
      evalOperand ⟨access, t.opType⟩ (.plain (.deferred r)) pos s = .error (.fault .reservedOperand)) ∧
    ∀ sp o, evalOperand ⟨access, t.opType⟩ sp pos s = .ok o → isReservedFloat t o.value = false

end
end

