-- ==== Sys2Proof/Laws/Bytes.lean ====
section
/-! SUPPORT. Little-endian bytes: what is written as bytes reads back as the same number. -/

namespace Sys2Proof

@[simp] theorem leBytes_length (n v : Nat) : (leBytes n v).length = n := by
  induction n generalizing v with
  | zero => rfl
  | succ n ih => simp [leBytes, ih]

theorem leNat_lt (bs : List Byte) : leNat bs < 256 ^ bs.length := by
  induction bs with
  | nil => simp [leNat]
  | cons b bs ih =>
    have := b.isLt
    simp only [leNat, List.length_cons, Nat.pow_succ]
    omega

theorem leNat_leBytes (n v : Nat) : leNat (leBytes n v) = v % 256 ^ n := by
  induction n generalizing v with
  | zero => simp [leBytes, leNat, Nat.mod_one]
  | succ n ih =>
    have h : 256 ^ (n + 1) = 256 * 256 ^ n := by rw [Nat.pow_succ, Nat.mul_comm]
    rw [h, Nat.mod_mul]
    simp only [leBytes, leNat, ih, BitVec.toNat_ofNat, Nat.reducePow]

theorem leBytes_leNat (bs : List Byte) : leBytes bs.length (leNat bs) = bs := by
  induction bs with
  | nil => rfl
  | cons b bs ih =>
    have hb := b.isLt
    simp only [List.length_cons, leBytes, leNat]
    have h1 : (b.toNat + 256 * leNat bs) / 256 = leNat bs := by omega
    have h2 : BitVec.ofNat 8 (b.toNat + 256 * leNat bs) = b := by
      apply BitVec.eq_of_toNat_eq
      simp only [BitVec.toNat_ofNat]
      omega
    rw [h1, h2, ih]

/-- A longword stored as four bytes reads back. -/
@[simp] theorem leLong_leBytes (v : Longword) : leLong (leBytes 4 v.toNat) = v := by
  apply BitVec.eq_of_toNat_eq
  have := v.isLt
  simp only [leLong, leNat_leBytes, BitVec.toNat_ofNat]
  omega

/-- A word stored as two bytes reads back. -/
@[simp] theorem leWord_leBytes (v : Word) : leWord (leBytes 2 v.toNat) = v := by
  apply BitVec.eq_of_toNat_eq
  have := v.isLt
  simp only [leWord, leNat_leBytes, BitVec.toNat_ofNat]
  omega

/-- An octaword that fits `n` bytes and is stored as them reads back. -/
theorem leOcta_leBytes (n : Nat) (v : Octaword) (h : v.toNat < 256 ^ n) : leOcta (leBytes n v.toNat) = v := by
  apply BitVec.eq_of_toNat_eq
  have := v.isLt
  simp only [leOcta, leNat_leBytes, BitVec.toNat_ofNat, Nat.mod_eq_of_lt h]
  exact Nat.mod_eq_of_lt this

@[simp] theorem addrAdd_zero (a : Longword) : addrAdd a 0 = a := by simp [addrAdd]

theorem addrAdd_succ (a : Longword) (n : Nat) : addrAdd (a + 1) n = addrAdd a (n + 1) := by
  have h : (BitVec.ofNat 32 (n + 1) : Longword) = 1 + BitVec.ofNat 32 n := by
    rw [Nat.add_comm, BitVec.ofNat_add]
    rfl
  simp only [addrAdd, h, BitVec.add_assoc]

/-- The same in the form `simp` gives the literal. -/
@[simp] theorem addrAdd_succ' (a : Longword) (n : Nat) : addrAdd (a + 1#32) n = addrAdd a (n + 1) := addrAdd_succ a n

theorem addrAdd_inj (a : Longword) {i j : Nat} (hi : i < 2 ^ 32) (hj : j < 2 ^ 32) (h : addrAdd a i = addrAdd a j) :
    i = j := by
  have := congrArg BitVec.toNat h
  simp only [addrAdd, BitVec.toNat_add, BitVec.toNat_ofNat] at this
  have := a.isLt
  omega

end Sys2Proof
end

