-- ==== Sys2Proof/Laws/Memory.lean ====
section
/-! SUPPORT. Physical memory: a byte written is read back, every other byte stays, and the canonical form is kept. -/

namespace Sys2Proof.Machine

open Sys2Proof

theorem Memory.read_of_lt (m : Memory) (lo a : Nat) (h : Memory.wfFrom lo m = true) (ha : a < lo) :
    Memory.read m a = unlistedByte := by
  induction m generalizing lo with
  | nil => rfl
  | cons c rest ih =>
    obtain ⟨k, b⟩ := c
    simp only [Memory.wfFrom, Bool.and_eq_true, decide_eq_true_eq] at h
    simp only [Memory.read]
    rw [if_neg (by omega)]
    exact ih (k + 1) h.2 (by omega)

theorem Memory.wfFrom_mono (m : Memory) (lo lo' : Nat) (h : Memory.wfFrom lo m = true) (hl : lo' ≤ lo) :
    Memory.wfFrom lo' m = true := by
  cases m with
  | nil => rfl
  | cons c rest =>
    obtain ⟨k, b⟩ := c
    simp only [Memory.wfFrom, Bool.and_eq_true, decide_eq_true_eq] at h ⊢
    exact ⟨⟨⟨by omega, h.1.1.2⟩, h.1.2⟩, h.2⟩

/-- A write leaves every other byte alone; no premise on the form of memory. -/
theorem Memory.read_write_other (m : Memory) (a a' : Nat) (b : Byte) (h : a' ≠ a) :
    Memory.read (Memory.write m a b) a' = Memory.read m a' := by
  induction m with
  | nil =>
    simp only [Memory.write]
    split
    · rfl
    · simp [Memory.read, Ne.symm h]
  | cons c rest ih =>
    obtain ⟨k, c⟩ := c
    simp only [Memory.write]
    split
    · split
      · rfl
      · simp [Memory.read, Ne.symm h]
    · split
      · rename_i hak
        subst hak
        split <;> simp [Memory.read, Ne.symm h]
      · simp only [Memory.read, ih]

/-- A byte written is read back. -/
theorem Memory.read_write_same (m : Memory) (lo a : Nat) (b : Byte) (h : Memory.wfFrom lo m = true) :
    Memory.read (Memory.write m a b) a = b := by
  induction m generalizing lo with
  | nil =>
    simp only [Memory.write]
    split
    · next hb => simp [Memory.read, hb]
    · simp [Memory.read]
  | cons c rest ih =>
    obtain ⟨k, c⟩ := c
    have hw := h
    simp only [Memory.wfFrom, Bool.and_eq_true, decide_eq_true_eq] at h
    simp only [Memory.write]
    split
    · next hak =>
      split
      · next hb =>
        rw [hb]
        refine Memory.read_of_lt _ k a ?_ hak
        simp only [Memory.wfFrom, Bool.and_eq_true, decide_eq_true_eq]
        exact ⟨⟨⟨Nat.le_refl _, h.1.1.2⟩, h.1.2⟩, h.2⟩
      · simp [Memory.read]
    · split
      · next hak =>
        split
        · next hb =>
          rw [hb]
          exact Memory.read_of_lt rest (k + 1) a h.2 (by omega)
        · simp [Memory.read]
      · next h1 h2 =>
        simp only [Memory.read]
        rw [if_neg (by omega)]
        exact ih (k + 1) h.2

theorem Memory.write_wfFrom (m : Memory) (lo a : Nat) (b : Byte) (h : Memory.wfFrom lo m = true) (hlo : lo ≤ a)
    (ha : a < 2 ^ 32) : Memory.wfFrom lo (Memory.write m a b) = true := by
  induction m generalizing lo with
  | nil =>
    simp only [Memory.write]
    split
    · rfl
    · next hb => simp [Memory.wfFrom, hlo, hb]; omega
  | cons c rest ih =>
    obtain ⟨k, c⟩ := c
    have hw := h
    simp only [Memory.wfFrom, Bool.and_eq_true, decide_eq_true_eq] at h
    simp only [Memory.write]
    split
    · split
      · exact hw
      · next hb =>
        simp only [Memory.wfFrom, Bool.and_eq_true, decide_eq_true_eq, bne_iff_ne]
        refine ⟨⟨⟨hlo, ha⟩, hb⟩, ⟨⟨by omega, h.1.1.2⟩, by simpa using h.1.2⟩, h.2⟩
    · split
      · split
        · exact Memory.wfFrom_mono _ _ _ h.2 (by omega)
        · next hb =>
          simp only [Memory.wfFrom, Bool.and_eq_true, decide_eq_true_eq, bne_iff_ne]
          exact ⟨⟨⟨hlo, ha⟩, hb⟩, by simp [*]⟩
      · simp only [Memory.wfFrom, Bool.and_eq_true, decide_eq_true_eq]
        exact ⟨h.1, ih (k + 1) h.2 (by omega)⟩

/-- A write keeps the canonical form. -/
theorem Memory.write_wf (m : Memory) (a : Nat) (b : Byte) (h : Memory.wf m = true) (ha : a < 2 ^ 32) :
    Memory.wf (Memory.write m a b) = true :=
  Memory.write_wfFrom m 0 a b h (Nat.zero_le _) ha

/-- Memories in canonical form that read alike from `lo` up are equal: the form is canonical. -/
theorem Memory.eq_of_read_eq (m m' : Memory) (lo : Nat) (h : Memory.wfFrom lo m = true) (h' : Memory.wfFrom lo m' = true)
    (hr : ∀ a, Memory.read m a = Memory.read m' a) : m = m' := by
  induction m generalizing lo m' with
  | nil =>
    cases m' with
    | nil => rfl
    | cons c rest =>
      obtain ⟨k, b⟩ := c
      simp only [Memory.wfFrom, Bool.and_eq_true, bne_iff_ne] at h'
      have := hr k
      simp only [Memory.read, if_true] at this
      exact absurd this.symm h'.1.2
  | cons c rest ih =>
    obtain ⟨k, b⟩ := c
    have hw := h
    simp only [Memory.wfFrom, Bool.and_eq_true, bne_iff_ne, decide_eq_true_eq] at h
    cases m' with
    | nil =>
      have := hr k
      simp only [Memory.read, if_true] at this
      exact absurd this h.1.2
    | cons c' rest' =>
      obtain ⟨k', b'⟩ := c'
      have hw' := h'
      simp only [Memory.wfFrom, Bool.and_eq_true, bne_iff_ne, decide_eq_true_eq] at h'
      have hk : k = k' := by
        rcases Nat.lt_trichotomy k k' with hlt | heq | hgt
        · have := hr k
          simp only [Memory.read, if_true, if_neg (show ¬ k' = k by omega)] at this
          rw [Memory.read_of_lt rest' (k' + 1) k h'.2 (by omega)] at this
          exact absurd this h.1.2
        · exact heq
        · have := hr k'
          simp only [Memory.read, if_true, if_neg (show ¬ k = k' by omega)] at this
          rw [Memory.read_of_lt rest (k + 1) k' h.2 (by omega)] at this
          exact absurd this.symm h'.1.2
      subst hk
      have hb : b = b' := by
        have := hr k
        simpa only [Memory.read, if_true] using this
      subst hb
      congr 1
      refine ih rest' (k + 1) h.2 h'.2 fun a => ?_
      by_cases ha : a = k
      · subst ha
        rw [Memory.read_of_lt rest _ _ h.2 (by omega), Memory.read_of_lt rest' _ _ h'.2 (by omega)]
      · have := hr a
        simpa only [Memory.read, if_neg (Ne.symm ha)] using this

end Sys2Proof.Machine
end

