-- ==== Sys2Proof/Laws/State.lean ====
section
/-! SUPPORT. One lemma per field per update of `State`, so that no proof unfolds a record update. -/

namespace Sys2Proof.Machine

open Sys2Proof

section

@[simp] theorem State.setPc_regs (s : State) (v : Longword) : (s.setPc v).regs = s.regs := rfl
@[simp] theorem State.setPc_sps (s : State) (v : Longword) : (s.setPc v).sps = s.sps := rfl
@[simp] theorem State.setPc_pc (s : State) (v : Longword) : (s.setPc v).pc = v := rfl
@[simp] theorem State.setPc_psl (s : State) (v : Longword) : (s.setPc v).psl = s.psl := rfl
@[simp] theorem State.setPc_scbb (s : State) (v : Longword) : (s.setPc v).scbb = s.scbb := rfl
@[simp] theorem State.setPc_translation (s : State) (v : Longword) : (s.setPc v).translation = s.translation := rfl
@[simp] theorem State.setPc_mem (s : State) (v : Longword) : (s.setPc v).mem = s.mem := rfl
@[simp] theorem State.setPc_staleCode (s : State) (v : Longword) : (s.setPc v).staleCode = s.staleCode := rfl
@[simp] theorem State.setPc_draws (s : State) (v : Longword) : (s.setPc v).draws = s.draws := rfl
@[simp] theorem State.setPc_config (s : State) (v : Longword) : (s.setPc v).config = s.config := rfl

end

section

@[simp] theorem State.setPsl_regs (s : State) (p : Psl) : (s.setPsl p).regs = s.regs := rfl
@[simp] theorem State.setPsl_sps (s : State) (p : Psl) : (s.setPsl p).sps = s.sps := rfl
@[simp] theorem State.setPsl_pc (s : State) (p : Psl) : (s.setPsl p).pc = s.pc := rfl
@[simp] theorem State.setPsl_psl (s : State) (p : Psl) : (s.setPsl p).psl = p := rfl
@[simp] theorem State.setPsl_scbb (s : State) (p : Psl) : (s.setPsl p).scbb = s.scbb := rfl
@[simp] theorem State.setPsl_translation (s : State) (p : Psl) : (s.setPsl p).translation = s.translation := rfl
@[simp] theorem State.setPsl_mem (s : State) (p : Psl) : (s.setPsl p).mem = s.mem := rfl
@[simp] theorem State.setPsl_staleCode (s : State) (p : Psl) : (s.setPsl p).staleCode = s.staleCode := rfl
@[simp] theorem State.setPsl_draws (s : State) (p : Psl) : (s.setPsl p).draws = s.draws := rfl
@[simp] theorem State.setPsl_config (s : State) (p : Psl) : (s.setPsl p).config = s.config := rfl

end

section

@[simp] theorem State.setCodes_regs (s : State) (cc : CondCodes) : (s.setCodes cc).regs = s.regs := rfl
@[simp] theorem State.setCodes_sps (s : State) (cc : CondCodes) : (s.setCodes cc).sps = s.sps := rfl
@[simp] theorem State.setCodes_pc (s : State) (cc : CondCodes) : (s.setCodes cc).pc = s.pc := rfl
@[simp] theorem State.setCodes_psl (s : State) (cc : CondCodes) : (s.setCodes cc).psl = s.psl.withCodes cc := rfl
@[simp] theorem State.setCodes_scbb (s : State) (cc : CondCodes) : (s.setCodes cc).scbb = s.scbb := rfl
@[simp] theorem State.setCodes_translation (s : State) (cc : CondCodes) : (s.setCodes cc).translation = s.translation := rfl
@[simp] theorem State.setCodes_mem (s : State) (cc : CondCodes) : (s.setCodes cc).mem = s.mem := rfl
@[simp] theorem State.setCodes_staleCode (s : State) (cc : CondCodes) : (s.setCodes cc).staleCode = s.staleCode := rfl
@[simp] theorem State.setCodes_draws (s : State) (cc : CondCodes) : (s.setCodes cc).draws = s.draws := rfl
@[simp] theorem State.setCodes_config (s : State) (cc : CondCodes) : (s.setCodes cc).config = s.config := rfl

end

section

@[simp] theorem State.advanceDraws_regs (s : State) (n : Nat) : (s.advanceDraws n).regs = s.regs := rfl
@[simp] theorem State.advanceDraws_sps (s : State) (n : Nat) : (s.advanceDraws n).sps = s.sps := rfl
@[simp] theorem State.advanceDraws_pc (s : State) (n : Nat) : (s.advanceDraws n).pc = s.pc := rfl
@[simp] theorem State.advanceDraws_psl (s : State) (n : Nat) : (s.advanceDraws n).psl = s.psl := rfl
@[simp] theorem State.advanceDraws_scbb (s : State) (n : Nat) : (s.advanceDraws n).scbb = s.scbb := rfl
@[simp] theorem State.advanceDraws_translation (s : State) (n : Nat) : (s.advanceDraws n).translation = s.translation := rfl
@[simp] theorem State.advanceDraws_mem (s : State) (n : Nat) : (s.advanceDraws n).mem = s.mem := rfl
@[simp] theorem State.advanceDraws_staleCode (s : State) (n : Nat) : (s.advanceDraws n).staleCode = s.staleCode := rfl
@[simp] theorem State.advanceDraws_draws (s : State) (n : Nat) : (s.advanceDraws n).draws = s.draws + n := rfl
@[simp] theorem State.advanceDraws_config (s : State) (n : Nat) : (s.advanceDraws n).config = s.config := rfl

end

section

@[simp] theorem State.setSp_regs (s : State) (v : Longword) : (s.setSp v).regs = s.regs := rfl
@[simp] theorem State.setSp_sps (s : State) (v : Longword) : (s.setSp v).sps = s.sps.set s.psl.stack v := rfl
@[simp] theorem State.setSp_pc (s : State) (v : Longword) : (s.setSp v).pc = s.pc := rfl
@[simp] theorem State.setSp_psl (s : State) (v : Longword) : (s.setSp v).psl = s.psl := rfl
@[simp] theorem State.setSp_scbb (s : State) (v : Longword) : (s.setSp v).scbb = s.scbb := rfl
@[simp] theorem State.setSp_translation (s : State) (v : Longword) : (s.setSp v).translation = s.translation := rfl
@[simp] theorem State.setSp_mem (s : State) (v : Longword) : (s.setSp v).mem = s.mem := rfl
@[simp] theorem State.setSp_staleCode (s : State) (v : Longword) : (s.setSp v).staleCode = s.staleCode := rfl
@[simp] theorem State.setSp_draws (s : State) (v : Longword) : (s.setSp v).draws = s.draws := rfl
@[simp] theorem State.setSp_config (s : State) (v : Longword) : (s.setSp v).config = s.config := rfl

end

section

@[simp] theorem State.putByte_regs (s : State) (pa : Longword) (b : Byte) : (s.putByte pa b).regs = s.regs := rfl
@[simp] theorem State.putByte_sps (s : State) (pa : Longword) (b : Byte) : (s.putByte pa b).sps = s.sps := rfl
@[simp] theorem State.putByte_pc (s : State) (pa : Longword) (b : Byte) : (s.putByte pa b).pc = s.pc := rfl
@[simp] theorem State.putByte_psl (s : State) (pa : Longword) (b : Byte) : (s.putByte pa b).psl = s.psl := rfl
@[simp] theorem State.putByte_scbb (s : State) (pa : Longword) (b : Byte) : (s.putByte pa b).scbb = s.scbb := rfl
@[simp] theorem State.putByte_translation (s : State) (pa : Longword) (b : Byte) : (s.putByte pa b).translation = s.translation := rfl
@[simp] theorem State.putByte_mem (s : State) (pa : Longword) (b : Byte) : (s.putByte pa b).mem = s.mem.write pa.toNat b := rfl
@[simp] theorem State.putByte_staleCode (s : State) (pa : Longword) (b : Byte) : (s.putByte pa b).staleCode = s.staleCode := rfl
@[simp] theorem State.putByte_draws (s : State) (pa : Longword) (b : Byte) : (s.putByte pa b).draws = s.draws := rfl
@[simp] theorem State.putByte_config (s : State) (pa : Longword) (b : Byte) : (s.putByte pa b).config = s.config := rfl

end

section

@[simp] theorem State.sampleTrace_regs (s : State) : s.sampleTrace.regs = s.regs := rfl
@[simp] theorem State.sampleTrace_sps (s : State) : s.sampleTrace.sps = s.sps := rfl
@[simp] theorem State.sampleTrace_pc (s : State) : s.sampleTrace.pc = s.pc := rfl
@[simp] theorem State.sampleTrace_psl (s : State) : s.sampleTrace.psl = { s.psl with tp := s.psl.t } := rfl
@[simp] theorem State.sampleTrace_scbb (s : State) : s.sampleTrace.scbb = s.scbb := rfl
@[simp] theorem State.sampleTrace_translation (s : State) : s.sampleTrace.translation = s.translation := rfl
@[simp] theorem State.sampleTrace_mem (s : State) : s.sampleTrace.mem = s.mem := rfl
@[simp] theorem State.sampleTrace_staleCode (s : State) : s.sampleTrace.staleCode = s.staleCode := rfl
@[simp] theorem State.sampleTrace_draws (s : State) : s.sampleTrace.draws = s.draws := rfl
@[simp] theorem State.sampleTrace_config (s : State) : s.sampleTrace.config = s.config := rfl

end

section

@[simp] theorem State.afterFetch_regs (s : State) : s.afterFetch.regs = s.regs := rfl
@[simp] theorem State.afterFetch_sps (s : State) : s.afterFetch.sps = s.sps := rfl
@[simp] theorem State.afterFetch_pc (s : State) : s.afterFetch.pc = s.pc := rfl
@[simp] theorem State.afterFetch_psl (s : State) : s.afterFetch.psl = s.psl := rfl
@[simp] theorem State.afterFetch_scbb (s : State) : s.afterFetch.scbb = s.scbb := rfl
@[simp] theorem State.afterFetch_translation (s : State) : s.afterFetch.translation = s.translation := rfl
@[simp] theorem State.afterFetch_mem (s : State) : s.afterFetch.mem = s.mem := rfl
@[simp] theorem State.afterFetch_staleCode (s : State) : s.afterFetch.staleCode = s.staleCode := rfl
@[simp] theorem State.afterFetch_draws (s : State) : s.afterFetch.draws = s.draws + fetchSpan := rfl
@[simp] theorem State.afterFetch_config (s : State) : s.afterFetch.config = s.config := rfl

end

/-! Register writes: the program counter changes only through register 15, the stack pointers only through 14. -/

@[simp] theorem State.setReg_psl (s : State) (r : Reg) (v : Longword) : (s.setReg r v).psl = s.psl := by
  unfold State.setReg; split
  · rfl
  · split <;> rfl

@[simp] theorem State.setReg_scbb (s : State) (r : Reg) (v : Longword) : (s.setReg r v).scbb = s.scbb := by
  unfold State.setReg; split
  · rfl
  · split <;> rfl

@[simp] theorem State.setReg_translation (s : State) (r : Reg) (v : Longword) : (s.setReg r v).translation = s.translation := by
  unfold State.setReg; split
  · rfl
  · split <;> rfl

@[simp] theorem State.setReg_mem (s : State) (r : Reg) (v : Longword) : (s.setReg r v).mem = s.mem := by
  unfold State.setReg; split
  · rfl
  · split <;> rfl

@[simp] theorem State.setReg_staleCode (s : State) (r : Reg) (v : Longword) : (s.setReg r v).staleCode = s.staleCode := by
  unfold State.setReg; split
  · rfl
  · split <;> rfl

@[simp] theorem State.setReg_draws (s : State) (r : Reg) (v : Longword) : (s.setReg r v).draws = s.draws := by
  unfold State.setReg; split
  · rfl
  · split <;> rfl

@[simp] theorem State.setReg_config (s : State) (r : Reg) (v : Longword) : (s.setReg r v).config = s.config := by
  unfold State.setReg; split
  · rfl
  · split <;> rfl

theorem State.setReg_pc (s : State) (r : Reg) (v : Longword) (h : r ≠ 15) : (s.setReg r v).pc = s.pc := by
  unfold State.setReg
  split
  · rfl
  · split
    · rfl
    · exact absurd (Fin.ext (by omega)) h

theorem State.setReg_regs_of_high (s : State) (r : Reg) (v : Longword) (h : 14 ≤ r.val) :
    (s.setReg r v).regs = s.regs := by
  unfold State.setReg
  split
  · omega
  · split <;> rfl

theorem State.setReg_sps (s : State) (r : Reg) (v : Longword) (h : r.val ≠ 14) : (s.setReg r v).sps = s.sps := by
  unfold State.setReg
  split
  · rfl
  · simp

/-! The stack pointers. -/

@[simp] theorem StackPointers.get_set_same (p : StackPointers) (i : StackId) (v : Longword) :
    (p.set i v).get i = v := by
  cases i <;> rfl

theorem StackPointers.get_set_other (p : StackPointers) (i j : StackId) (v : Longword) (h : j ≠ i) :
    (p.set i v).get j = p.get j := by
  cases i <;> cases j <;> first | rfl | exact absurd rfl h

@[simp] theorem StackPointers.set_set (p : StackPointers) (i : StackId) (v w : Longword) :
    (p.set i v).set i w = p.set i w := by
  cases i <;> rfl

theorem StackPointers.set_get_self (p : StackPointers) (i : StackId) : p.set i (p.get i) = p := by
  cases i <;> rfl

@[simp] theorem State.setSp_sp (s : State) (v : Longword) : (s.setSp v).sp = v := by
  simp [State.sp]

/-! Reading a register after writing one. -/

theorem State.getReg_setReg_same (s : State) (r : Reg) (v : Longword) : (s.setReg r v).getReg r = v := by
  unfold State.setReg State.getReg
  by_cases h : r.val < 14
  · simp [h]
  · by_cases h' : r.val = 14
    · simp [h']
    · simp [h, h']

theorem State.getReg_setReg_other (s : State) (r q : Reg) (v : Longword) (h : q ≠ r) :
    (s.setReg r v).getReg q = s.getReg q := by
  have hne : r.val ≠ q.val := fun e => h (Fin.ext e.symm)
  unfold State.setReg State.getReg
  by_cases hr : r.val < 14
  · by_cases hq : q.val < 14
    · simp [hr, hq, hne]
    · simp [hr, hq, State.sp]
  · by_cases hr' : r.val = 14
    · by_cases hq : q.val < 14
      · simp [hr', hq]
      · have : q.val ≠ 14 := by omega
        simp [hr', hq, this]
    · by_cases hq : q.val < 14
      · simp [hr, hr', hq]
      · have : q.val = 14 := by omega
        simp [hr, hr', this, State.sp]

/-! What a decimal-string instruction leaves in R0 to R5: six free values, and nothing else changed. -/

@[simp] theorem State.drawStringRegs_sps (s : State) : s.drawStringRegs.sps = s.sps := rfl
@[simp] theorem State.drawStringRegs_pc (s : State) : s.drawStringRegs.pc = s.pc := rfl
@[simp] theorem State.drawStringRegs_psl (s : State) : s.drawStringRegs.psl = s.psl := rfl
@[simp] theorem State.drawStringRegs_scbb (s : State) : s.drawStringRegs.scbb = s.scbb := rfl
@[simp] theorem State.drawStringRegs_translation (s : State) : s.drawStringRegs.translation = s.translation := rfl
@[simp] theorem State.drawStringRegs_mem (s : State) : s.drawStringRegs.mem = s.mem := rfl
@[simp] theorem State.drawStringRegs_staleCode (s : State) : s.drawStringRegs.staleCode = s.staleCode := rfl
@[simp] theorem State.drawStringRegs_config (s : State) : s.drawStringRegs.config = s.config := rfl
@[simp] theorem State.drawStringRegs_draws (s : State) : s.drawStringRegs.draws = s.draws + 6 := rfl

theorem State.drawStringRegs_getReg (s : State) (q : Reg) :
    s.drawStringRegs.getReg q = if q.val < 6 then s.drawn q.val else s.getReg q := by
  show (s.drawRegs 6 0 0).getReg q = _
  simp only [State.drawRegs]
  by_cases h : q.val < 6
  · have cases : ∀ q : Reg, q.val < 6 → q = 0 ∨ q = 1 ∨ q = 2 ∨ q = 3 ∨ q = 4 ∨ q = 5 := by decide
    rw [if_pos h]
    rcases cases q h with rfl | rfl | rfl | rfl | rfl | rfl <;>
      (repeat' first
        | rw [State.getReg_setReg_other _ _ _ _ (by decide)]
        | exact State.getReg_setReg_same _ _ _)
  · have ne (k : Reg) (hk : k.val < 6) : q ≠ k := fun e => h (e ▸ hk)
    rw [if_neg h]
    iterate 6 rw [State.getReg_setReg_other _ _ _ _ (ne _ (by decide))]

/-! The invariant and the setting of updates that touch neither. -/

theorem sameSetting.rfl' (s : State) : sameSetting s s := ⟨rfl, rfl, rfl⟩

theorem sameSetting.trans' {s t u : State} (h : sameSetting s t) (k : sameSetting t u) : sameSetting s u :=
  ⟨k.1.trans h.1, k.2.1.trans h.2.1, k.2.2.trans h.2.2⟩

end Sys2Proof.Machine
end

