-- ==== Sys2Proof/Laws/Access.lean ====
section
/-! SUPPORT. What memory accesses do, said once: a store succeeds exactly where its bytes translate, changes memory alone,
leaves every other byte, keeps the canonical form and reads back. -/

namespace Sys2Proof.Machine

open Sys2Proof

/-! Translation. -/

theorem State.physical_congr {s t : State} (h : t.translation = s.translation) : t.physical = s.physical := by
  funext m a va
  simp [State.physical, h]

theorem State.physical_flat {s : State} (h : s.flat) (m : Mode) (a : Access) (va : Longword) :
    s.physical m a va = .ok va := by
  simp [State.physical, translate, State.flat] at *
  rw [h]
  rfl

theorem State.canRead_flat {s : State} (h : s.flat) (m : Mode) (va : Longword) (n : Nat) : s.canRead m va n :=
  fun _ _ => ⟨_, State.physical_flat h _ _ _⟩

theorem State.canWrite_flat {s : State} (h : s.flat) (m : Mode) (va : Longword) (n : Nat) : s.canWrite m va n :=
  fun _ _ => ⟨_, State.physical_flat h _ _ _⟩

theorem State.separate_flat {s : State} (h : s.flat) (m : Mode) (va : Longword) (n : Nat) (hn : n ≤ 2 ^ 32) :
    s.separate m va n := by
  intro i hi j hj pa h1 h2
  rw [State.physical_flat h] at h1 h2
  have : addrAdd va i = addrAdd va j := by
    simp only [Except.ok.injEq] at h1 h2
    rw [h1, h2]
  exact addrAdd_inj va (by omega) (by omega) this

theorem State.canWrite_congr {s t : State} (h : t.translation = s.translation) (m : Mode) (va : Longword) (n : Nat) :
    t.canWrite m va n ↔ s.canWrite m va n := by
  simp [State.canWrite, State.physical_congr h]

theorem State.canRead_congr {s t : State} (h : t.translation = s.translation) (m : Mode) (va : Longword) (n : Nat) :
    t.canRead m va n ↔ s.canRead m va n := by
  simp [State.canRead, State.physical_congr h]

/-! Reads. -/

theorem State.readBytes_ok_iff (s : State) (m : Mode) (n : Nat) (va : Longword) :
    (∃ bs, s.readBytes m n va = .ok bs) ↔ s.canRead m va n := by
  induction n generalizing va with
  | zero => simp [State.readBytes, State.canRead]
  | succ n ih =>
    have step : (∃ bs, s.readBytes m (n + 1) va = .ok bs) ↔
        (∃ pa, s.physical m .read va = .ok pa) ∧ ∃ bs, s.readBytes m n (va + 1) = .ok bs := by
      simp only [State.readBytes]
      cases s.physical m .read va with
      | error e => simp
      | ok pa => cases s.readBytes m n (va + 1) <;> simp
    rw [step, ih]
    constructor
    · rintro ⟨h0, h⟩ i hi
      cases i with
      | zero => simpa using h0
      | succ i => rw [← addrAdd_succ]; exact h i (by omega)
    · intro h
      refine ⟨by simpa using h 0 (by omega), fun i hi => ?_⟩
      rw [addrAdd_succ]
      exact h (i + 1) (by omega)

theorem State.readBytes_length {s : State} {m : Mode} {n : Nat} {va : Longword} {bs : List Byte}
    (h : s.readBytes m n va = .ok bs) : bs.length = n := by
  induction n generalizing va bs with
  | zero => simp [State.readBytes] at h; simp [← h]
  | succ n ih =>
    simp only [State.readBytes] at h
    split at h
    · cases h
    · split at h
      · cases h
      · rename_i hbs
        cases h
        simp [ih hbs]

/-- Byte `i` of a read is the byte at the physical address of byte `i`. -/
theorem State.readBytes_getElem {s : State} {m : Mode} {n : Nat} {va : Longword} {bs : List Byte}
    (h : s.readBytes m n va = .ok bs) {i : Nat} (hi : i < bs.length) {pa : Longword}
    (hp : s.physical m .read (addrAdd va i) = .ok pa) : bs[i] = s.physicalByte pa := by
  induction n generalizing va bs i with
  | zero => simp [State.readBytes] at h; subst h; simp at hi
  | succ n ih =>
    simp only [State.readBytes] at h
    split at h
    · cases h
    · rename_i pa0 hpa0
      split at h
      · cases h
      · rename_i bs' hbs
        cases h
        cases i with
        | zero =>
          simp only [addrAdd_zero] at hp
          rw [hpa0] at hp
          cases hp
          rfl
        | succ i =>
          rw [← addrAdd_succ] at hp
          exact ih hbs (by simpa using hi) hp

/-- A read depends on the page table and the bytes read alone. -/
theorem State.readBytes_congr {s t : State} (ht : t.translation = s.translation) (m : Mode) (n : Nat) (va : Longword)
    (hb : ∀ i < n, ∀ pa, s.physical m .read (addrAdd va i) = .ok pa → t.physicalByte pa = s.physicalByte pa) :
    t.readBytes m n va = s.readBytes m n va := by
  induction n generalizing va with
  | zero => rfl
  | succ n ih =>
    simp only [State.readBytes, State.physical_congr ht]
    rw [ih (va + 1) (fun i hi pa hp => hb (i + 1) (by omega) pa (by rw [← addrAdd_succ]; exact hp))]
    cases hp : s.physical m .read va with
    | error e => rfl
    | ok pa => simp only [hb 0 (by omega) pa (by simpa using hp)]

/-! Writes, as a list of byte writes. -/

/-- The byte writes of a list of bytes at an address. -/
def cellsAt : List Byte → Longword → List (Longword × Byte)
  | [], _ => []
  | b :: bs, a => (a, b) :: cellsAt bs (a + 1)

/-- Byte writes in order. -/
def State.putAll (s : State) (m : Mode) : List (Longword × Byte) → Except Stop State
  | [] => .ok s
  | (a, b) :: rest =>
    match s.physical m .write a with
    | .error e => .error e
    | .ok pa => (s.putByte pa b).putAll m rest

theorem State.writeBytes_eq_putAll (s : State) (m : Mode) (bs : List Byte) (va : Longword) :
    s.writeBytes m bs va = s.putAll m (cellsAt bs va) := by
  induction bs generalizing s va with
  | nil => rfl
  | cons b bs ih =>
    simp only [State.writeBytes, cellsAt, State.putAll]
    split <;> simp [*]

theorem State.putAll_append (s : State) (m : Mode) (l l' : List (Longword × Byte)) :
    s.putAll m (l ++ l') = match s.putAll m l with | .error e => .error e | .ok s' => s'.putAll m l' := by
  induction l generalizing s with
  | nil => rfl
  | cons c l ih =>
    obtain ⟨a, b⟩ := c
    simp only [List.cons_append, State.putAll]
    split
    · rfl
    · exact ih _

theorem State.putAll_ok_iff (s : State) (m : Mode) (l : List (Longword × Byte)) :
    (∃ s', s.putAll m l = .ok s') ↔ ∀ c ∈ l, ∃ pa, s.physical m .write c.1 = .ok pa := by
  induction l generalizing s with
  | nil => simp [State.putAll]
  | cons c l ih =>
    obtain ⟨a, b⟩ := c
    simp only [State.putAll, List.forall_mem_cons]
    cases hp : s.physical m .write a with
    | error e => simp
    | ok pa =>
      simp only [Except.ok.injEq, exists_eq', true_and]
      rw [ih, State.physical_congr (s := s) (t := s.putByte pa b) rfl]

/-- Byte writes change memory alone, keep its canonical form, and leave every byte they are not made to. -/
theorem State.putAll_spec {s s' : State} {m : Mode} {l : List (Longword × Byte)} (h : s.putAll m l = .ok s') :
    s' = { s with mem := s'.mem } ∧ (s.wf → s'.wf) ∧
    ∀ pa, (∀ c ∈ l, s.physical m .write c.1 ≠ .ok pa) → s'.physicalByte pa = s.physicalByte pa := by
  induction l generalizing s with
  | nil => cases h; exact ⟨rfl, id, fun _ _ => rfl⟩
  | cons c l ih =>
    obtain ⟨a, b⟩ := c
    simp only [State.putAll] at h
    split at h
    · cases h
    · rename_i pa0 hpa0
      obtain ⟨h1, h2, h3⟩ := ih h
      refine ⟨h1, fun hw => h2 (Memory.write_wf _ _ _ hw pa0.isLt), fun pa hpa => ?_⟩
      have hne : pa ≠ pa0 := fun e => hpa (a, b) (by simp) (by rw [e]; exact hpa0)
      rw [h3 pa fun c hc => by
        rw [State.physical_congr (s := s) (t := s.putByte pa0 b) rfl]; exact hpa c (by simp [hc])]
      exact Memory.read_write_other _ _ _ _ fun e => hne (BitVec.eq_of_toNat_eq e)

/-- A physical byte to which only one value is written holds it. -/
theorem State.putAll_holds {s s' : State} {m : Mode} {l : List (Longword × Byte)} {pa : Longword} {b : Byte}
    (h : s.putAll m l = .ok s') (hw : s.wf) (he : ∃ c ∈ l, s.physical m .write c.1 = .ok pa)
    (hl : ∀ c ∈ l, s.physical m .write c.1 = .ok pa → c.2 = b) : s'.physicalByte pa = b := by
  induction l generalizing s with
  | nil => obtain ⟨c, hc, -⟩ := he; cases hc
  | cons c l ih =>
    obtain ⟨a, b0⟩ := c
    simp only [State.putAll] at h
    split at h
    · cases h
    · rename_i pa0 hpa0
      have hp := State.physical_congr (s := s) (t := s.putByte pa0 b0) rfl
      by_cases hlater : ∃ c ∈ l, s.physical m .write c.1 = .ok pa
      · exact ih h (Memory.write_wf _ _ _ hw pa0.isLt) (by rw [hp]; exact hlater)
          (by rw [hp]; exact fun c hc => hl c (by simp [hc]))
      · obtain ⟨c, hc, hcp⟩ := he
        rcases List.mem_cons.1 hc with rfl | hc
        · rw [hpa0] at hcp
          cases hcp
          rw [(State.putAll_spec h).2.2 pa fun c hc e => hlater ⟨c, hc, by rw [hp] at e; exact e⟩]
          rw [← hl (a, b0) (by simp) hpa0]
          exact Memory.read_write_same _ 0 _ _ hw
        · exact absurd ⟨c, hc, hcp⟩ hlater

theorem cellsAt_length (bs : List Byte) (a : Longword) : (cellsAt bs a).length = bs.length := by
  induction bs generalizing a with
  | nil => rfl
  | cons b bs ih => simp [cellsAt, ih]

theorem mem_cellsAt {bs : List Byte} {a : Longword} {c : Longword × Byte} :
    c ∈ cellsAt bs a ↔ ∃ i, ∃ h : i < bs.length, c = (addrAdd a i, bs[i]) := by
  induction bs generalizing a with
  | nil => simp [cellsAt]
  | cons b bs ih =>
    simp only [cellsAt, List.mem_cons, ih, List.length_cons]
    constructor
    · rintro (rfl | ⟨i, hi, rfl⟩)
      · exact ⟨0, by omega, by simp⟩
      · exact ⟨i + 1, by omega, by simp⟩
    · rintro ⟨i, hi, rfl⟩
      cases i with
      | zero => left; simp
      | succ i => right; exact ⟨i, by omega, by simp⟩

theorem cellsAt_append (bs bs' : List Byte) (a : Longword) :
    cellsAt (bs ++ bs') a = cellsAt bs a ++ cellsAt bs' (addrAdd a bs.length) := by
  induction bs generalizing a with
  | nil => simp [cellsAt]
  | cons b bs ih => simp [cellsAt, ih]

/-! A write of bytes at an address. -/

theorem State.writeBytes_ok_iff (s : State) (m : Mode) (bs : List Byte) (va : Longword) :
    (∃ s', s.writeBytes m bs va = .ok s') ↔ s.canWrite m va bs.length := by
  rw [State.writeBytes_eq_putAll, State.putAll_ok_iff]
  constructor
  · intro h i hi
    exact h (addrAdd va i, bs[i]) (mem_cellsAt.2 ⟨i, hi, rfl⟩)
  · intro h c hc
    obtain ⟨i, hi, rfl⟩ := mem_cellsAt.1 hc
    exact h i hi

/-- Everything a write does: memory alone changes, its form is kept, the other bytes stay, the bytes read back. -/
theorem State.writeBytes_spec {s s' : State} {m : Mode} {bs : List Byte} {va : Longword}
    (h : s.writeBytes m bs va = .ok s') :
    s' = { s with mem := s'.mem } ∧ (s.wf → s'.wf) ∧ memorySameOutside m va bs.length s s' ∧
    (s.wf → s.separate m va bs.length → memoryHolds m va bs s s') := by
  rw [State.writeBytes_eq_putAll] at h
  obtain ⟨h1, h2, h3⟩ := State.putAll_spec h
  refine ⟨h1, h2, fun pa hpa => h3 pa fun c hc => ?_, fun hw hs i hi pa hp => ?_⟩
  · obtain ⟨i, hi, rfl⟩ := mem_cellsAt.1 hc
    exact hpa i hi
  · refine State.putAll_holds h hw ⟨_, mem_cellsAt.2 ⟨i, hi, rfl⟩, hp⟩ fun c hc e => ?_
    obtain ⟨j, hj, rfl⟩ := mem_cellsAt.1 hc
    cases hs i hi j hj pa hp e
    rfl

/-! The store and push of an instruction. -/

theorem State.store_ok_iff (s : State) (bs : List Byte) (va : Longword) :
    (∃ s', s.store bs va = .ok s') ↔ s.canWrite s.psl.cur va bs.length := by
  rw [← State.writeBytes_ok_iff]
  simp only [State.store]
  cases s.writeBytes s.psl.cur bs va <;> simp

/-- Everything a store does. -/
theorem State.store_spec {s s' : State} {bs : List Byte} {va : Longword} (h : s.store bs va = .ok s') :
    s' = { s with mem := s'.mem, staleCode := s'.staleCode } ∧ (s.wf → s'.wf) ∧
    memorySameOutside s.psl.cur va bs.length s s' ∧
    (s.wf → s.separate s.psl.cur va bs.length → memoryHolds s.psl.cur va bs s s') := by
  simp only [State.store] at h
  split at h
  · cases h
  · rename_i s1 h1
    cases h
    obtain ⟨e, w, o, c⟩ := State.writeBytes_spec h1
    refine ⟨by rw [e], w, o, c⟩

/-- An instruction fetch may still see the bytes a store has replaced. -/
theorem State.store_staleCode {s s' : State} {bs : List Byte} {va : Longword} (h : s.store bs va = .ok s') :
    s'.staleCode = s.oldCells s.psl.cur bs.length va ++ s.staleCode := by
  simp only [State.store] at h
  split at h
  · cases h
  · cases h; rfl

/-- The byte that stood where the `i`-th byte is stored is among those an instruction fetch may still see. -/
theorem State.mem_oldCells {s : State} {m : Mode} {n i : Nat} {va pa : Longword} (hi : i < n)
    (h : s.physical m .write (addrAdd va i) = .ok pa) : (pa.toNat, s.physicalByte pa) ∈ s.oldCells m n va := by
  induction n generalizing va i with
  | zero => omega
  | succ n ih =>
    simp only [State.oldCells]
    cases i with
    | zero =>
      rw [show addrAdd va 0 = va by simp [addrAdd]] at h
      rw [h]
      exact List.mem_cons_self
    | succ i =>
      have := ih (va := va + 1) (i := i) (by omega) (by simpa using h)
      split
      · exact this
      · exact List.mem_cons_of_mem _ this

theorem State.push_ok_iff (s : State) (v : Longword) :
    (∃ s', s.push v = .ok s') ↔ s.canWrite s.psl.cur (s.sp - 4) 4 := by
  have := State.store_ok_iff s (leBytes 4 v.toNat) (s.sp - 4)
  rw [leBytes_length] at this
  rw [← this]
  simp only [State.push]
  cases s.store (leBytes 4 v.toNat) (s.sp - 4) <;> simp

/-- Everything a push does. -/
theorem State.push_spec {s s' : State} {v : Longword} (h : s.push v = .ok s') :
    s' = { s with mem := s'.mem, staleCode := s'.staleCode, sps := s.sps.set s.psl.stack (s.sp - 4) } ∧ (s.wf → s'.wf) ∧
    memorySameOutside s.psl.cur (s.sp - 4) 4 s s' ∧
    (s.wf → s.separate s.psl.cur (s.sp - 4) 4 → memoryHolds s.psl.cur (s.sp - 4) (leBytes 4 v.toNat) s s') := by
  simp only [State.push] at h
  split at h
  · cases h
  · rename_i s1 h1
    cases h
    obtain ⟨e, w, o, c⟩ := State.store_spec h1
    rw [leBytes_length] at o c
    refine ⟨?_, w, o, c⟩
    rw [e]
    rfl

/-! Errors of accesses are memory management faults. -/

theorem State.physical_error {s : State} {m : Mode} {a : Access} {va : Longword} {e : Stop}
    (h : s.physical m a va = .error e) : ∃ f, e = .fault (.memory f va a) := by
  simp only [State.physical] at h
  split at h
  · cases h
  · cases h; exact ⟨_, rfl⟩

/-- The invariant and what no step changes, for updates that touch neither. -/
theorem State.setReg_wf {s : State} (h : s.wf) (r : Reg) (v : Longword) : (s.setReg r v).wf := by
  simpa [State.wf] using h

theorem sameSetting_setReg (s : State) (r : Reg) (v : Longword) : sameSetting s (s.setReg r v) := by
  simp [sameSetting]

/-- The reset state's memory has the canonical form. -/
theorem State.reset_memory_wf : Memory.wf State.reset.mem = true := rfl

end Sys2Proof.Machine
end

