-- ==== Sys2Proof/Laws/Psl.lean ====
section
/-! SUPPORT. The PSL as a longword: unpacking what was packed gives it back; the modes and their numbers. -/

namespace Sys2Proof.Machine

open Sys2Proof

@[simp] theorem modeOfBits_modeBits (m : Mode) : modeOfBits (modeBits m) = m := by cases m <;> rfl

theorem modeBits_injective {a b : Mode} (h : modeBits a = modeBits b) : a = b := by
  have := congrArg modeOfBits h
  simpa using this

theorem morePrivileged_kernel (m : Mode) : morePrivileged m .kernel = false := by cases m <;> rfl

theorem mostPrivileged_self (m : Mode) : mostPrivileged m m = m := by cases m <;> rfl

theorem mostPrivileged_le (a b : Mode) : (modeBits (mostPrivileged a b)).toNat ≤ (modeBits a).toNat := by
  cases a <;> cases b <;> decide

/-- The layout holds every field (10_state.md R24). -/
@[simp] theorem Psl.unpack_pack (p : Psl) : Psl.unpack p.pack = p := by
  obtain ⟨c, v, z, n, t, iv, fu, dv, ipl, prv, cur, is, fpd, tp, cm⟩ := p
  have hipl : (Psl.pack ⟨c, v, z, n, t, iv, fu, dv, ipl, prv, cur, is, fpd, tp, cm⟩).extractLsb' 16 5 = ipl := by
    ext i hi
    have h1 : ¬ (16 + i < 8) := by omega
    have h3 : 16 + i - 8 - 8 = i := by omega
    simp only [Psl.pack, Psl.highWord, Psl.lowByte, BitVec.getElem_extractLsb', BitVec.getLsbD_setWidth,
      BitVec.getLsbD_append, h1, h3, hi, if_true, if_false, Nat.sub_sub]
    simp [hi, show 16 + i < 32 by omega, show i < 16 by omega]
    omega
  have hprv : (Psl.pack ⟨c, v, z, n, t, iv, fu, dv, ipl, prv, cur, is, fpd, tp, cm⟩).extractLsb' 22 2 = modeBits prv := by
    ext i hi
    have h : i = 0 ∨ i = 1 := by omega
    rcases h with rfl | rfl <;>
      simp only [Psl.pack, Psl.highWord, Psl.lowByte, BitVec.getElem_extractLsb', BitVec.getLsbD_setWidth,
        BitVec.getLsbD_append] <;> simp
  have hcur : (Psl.pack ⟨c, v, z, n, t, iv, fu, dv, ipl, prv, cur, is, fpd, tp, cm⟩).extractLsb' 24 2 = modeBits cur := by
    ext i hi
    have h : i = 0 ∨ i = 1 := by omega
    rcases h with rfl | rfl <;>
      simp only [Psl.pack, Psl.highWord, Psl.lowByte, BitVec.getElem_extractLsb', BitVec.getLsbD_setWidth,
        BitVec.getLsbD_append] <;> simp
  simp only [Psl.unpack, hipl, hprv, hcur, modeOfBits_modeBits]
  simp only [Psl.pack, Psl.highWord, Psl.lowByte, BitVec.getLsbD_setWidth, BitVec.getLsbD_append]
  simp

end Sys2Proof.Machine
end

