-- ==== Sys2Proof/Laws/Exceptions.lean ====
section
/-! SUPPORT. What taking an exception does, said once: a next state of `initiate` is the state `entered` describes; and the
answers of `raiseStop` and `conclude`. -/

namespace Sys2Proof.Machine

open Sys2Proof

/-! The frame. -/

/-- The byte writes of the pushes of a frame. -/
def frameCells : List Longword → Longword → List (Longword × Byte)
  | [], _ => []
  | v :: vs, sp => cellsAt (leBytes 4 v.toNat) (sp - 4) ++ frameCells vs (sp - 4)

/-- A frame as the bytes from the last longword pushed up. -/
abbrev frameBytes (vs : List Longword) : List Byte := vs.reverse.flatMap fun v => leBytes 4 v.toNat

theorem frameBytes_length (vs : List Longword) : (frameBytes vs).length = 4 * vs.length := by
  induction vs with
  | nil => rfl
  | cons v vs ih =>
    simp only [frameBytes, List.reverse_cons, List.flatMap_append, List.length_append, List.length_cons] at ih ⊢
    rw [ih]
    simp
    omega

theorem sub_four_mul_succ (sp : Longword) (n : Nat) :
    sp - BitVec.ofNat 32 (4 * (n + 1)) = sp - 4 - BitVec.ofNat 32 (4 * n) := by
  rw [show 4 * (n + 1) = 4 + 4 * n by omega, BitVec.ofNat_add]
  show sp - (4#32 + BitVec.ofNat 32 (4 * n)) = sp - 4#32 - BitVec.ofNat 32 (4 * n)
  generalize BitVec.ofNat 32 (4 * n) = x
  apply BitVec.eq_of_toNat_eq
  bv_omega

/-- The pushes of a frame write the bytes of the frame at its lowest address. -/
theorem frameCells_perm (vs : List Longword) (sp : Longword) :
    (frameCells vs sp).Perm (cellsAt (frameBytes vs) (sp - BitVec.ofNat 32 (4 * vs.length))) := by
  induction vs generalizing sp with
  | nil => simp [frameCells, frameBytes, cellsAt]
  | cons v vs ih =>
    have hb : frameBytes (v :: vs) = frameBytes vs ++ leBytes 4 v.toNat := by
      simp [frameBytes]
    have ha : addrAdd (sp - 4 - BitVec.ofNat 32 (4 * vs.length)) (4 * vs.length) = sp - 4 := by
      simp [addrAdd]
    rw [hb, List.length_cons, sub_four_mul_succ, cellsAt_append, frameBytes_length, ha, frameCells]
    exact (List.perm_append_comm).trans ((ih (sp - 4)).append_right _)

theorem State.pushFrame_eq_putAll (s : State) (m : Mode) (vs : List Longword) (sp : Longword) :
    s.pushFrame m vs sp =
      match s.putAll m (frameCells vs sp) with
      | .error e => .error e
      | .ok s' => .ok (sp - BitVec.ofNat 32 (4 * vs.length), s') := by
  induction vs generalizing s sp with
  | nil => simp [State.pushFrame, frameCells, State.putAll]
  | cons v vs ih =>
    simp only [State.pushFrame, frameCells, State.putAll_append, State.writeBytes_eq_putAll]
    cases s.putAll m (cellsAt (leBytes 4 v.toNat) (sp - 4)) with
    | error e => rfl
    | ok s1 =>
      simp only [ih]
      rw [List.length_cons, sub_four_mul_succ]

theorem State.pushFrame_ok_iff (s : State) (m : Mode) (vs : List Longword) (sp : Longword) :
    (∃ r, s.pushFrame m vs sp = .ok r) ↔
      s.canWrite m (sp - BitVec.ofNat 32 (4 * vs.length)) (4 * vs.length) := by
  have h : (∃ r, s.pushFrame m vs sp = .ok r) ↔ ∃ s', s.putAll m (frameCells vs sp) = .ok s' := by
    rw [State.pushFrame_eq_putAll]
    cases s.putAll m (frameCells vs sp) <;> simp
  rw [h, State.putAll_ok_iff]
  constructor
  · intro h i hi
    rw [← frameBytes_length] at hi
    exact h _ ((frameCells_perm vs sp).mem_iff.2 (mem_cellsAt.2 ⟨i, hi, rfl⟩))
  · intro h c hc
    obtain ⟨i, hi, rfl⟩ := mem_cellsAt.1 ((frameCells_perm vs sp).mem_iff.1 hc)
    exact h i (by rw [frameBytes_length] at hi; exact hi)

/-- Everything the pushes of a frame do. -/
theorem State.pushFrame_spec {s s' : State} {m : Mode} {vs : List Longword} {sp sp' : Longword}
    (h : s.pushFrame m vs sp = .ok (sp', s')) :
    sp' = sp - BitVec.ofNat 32 (4 * vs.length) ∧ s' = { s with mem := s'.mem } ∧ (s.wf → s'.wf) ∧
    memorySameOutside m (sp - BitVec.ofNat 32 (4 * vs.length)) (4 * vs.length) s s' ∧
    (s.wf → s.separate m (sp - BitVec.ofNat 32 (4 * vs.length)) (4 * vs.length) →
      memoryHolds m (sp - BitVec.ofNat 32 (4 * vs.length)) (frameBytes vs) s s') := by
  rw [State.pushFrame_eq_putAll] at h
  split at h
  · cases h
  · rename_i s1 h1
    cases h
    obtain ⟨e, w, o⟩ := State.putAll_spec h1
    refine ⟨rfl, e, w, fun pa hpa => o pa fun c hc => ?_, fun hw hs i hi pa hp => ?_⟩
    · obtain ⟨i, hi, rfl⟩ := mem_cellsAt.1 ((frameCells_perm vs sp).mem_iff.1 hc)
      exact hpa i (by rw [frameBytes_length] at hi; exact hi)
    · refine State.putAll_holds h1 hw
        ⟨_, (frameCells_perm vs sp).mem_iff.2 (mem_cellsAt.2 ⟨i, hi, rfl⟩), hp⟩ fun c hc e => ?_
      obtain ⟨j, hj, rfl⟩ := mem_cellsAt.1 ((frameCells_perm vs sp).mem_iff.1 hc)
      rw [frameBytes_length] at hi hj
      cases hs i hi j hj pa hp e
      rfl

/-! Initiation. -/

theorem enterRoutine_next {e : Exc} {pc : Longword} {p : Psl} {s t : State} (h : enterRoutine e pc p s = .next t) :
    entered e p (e.frame pc p s) s t ∧ (s.wf → t.wf) := by
  simp only [enterRoutine] at h
  split at h
  · cases h
  · rename_i sp s' hp
    obtain ⟨hsp, he, hw, ho, hc⟩ := State.pushFrame_spec hp
    cases h
    subst hsp
    have hr : s'.regs = s.regs := by rw [he]
    have hs : s'.sps = s.sps := by rw [he]
    refine ⟨⟨rfl, ⟨rfl, rfl, rfl, rfl, rfl, rfl, rfl, rfl, rfl⟩, ⟨rfl, rfl⟩, rfl, rfl, rfl, rfl, by simp [hs], fun i hi => ?_, hr,
      ⟨by rw [he], by rw [he], by rw [he]⟩, ⟨by rw [he], by rw [he]⟩, ho, hc⟩, hw⟩
    simp only [hs]
    exact StackPointers.get_set_other _ _ _ _ hi

/-- A next state of `initiate` is the routine entered; and it keeps the form of memory. -/
theorem initiate_next {e : Exc} {pc : Longword} {p : Psl} {s t : State} (h : initiate e pc p s = .next t) :
    entered e p (e.frame pc p s) s t ∧ (s.wf → t.wf) := by
  simp only [initiate] at h
  split at h
  · cases h
  · split at h
    · cases h
    · cases h
    · exact enterRoutine_next h
    · exact enterRoutine_next h

/-- Where the routine can be entered, `initiate` is `enterRoutine`, and it answers a next state. -/
theorem initiate_of_canEnter {e : Exc} {pc : Longword} {p : Psl} {s : State} (h : canEnter e (e.frame pc p s).length s) :
    ∃ t, initiate e pc p s = .next t := by
  obtain ⟨hm, hc, hp⟩ := h
  have hi : initiate e pc p s = enterRoutine e pc p s := by
    simp only [initiate, if_neg hm]
    rcases hc with hc | hc <;> rw [hc]
  rw [hi]
  obtain ⟨⟨sp, s'⟩, hr⟩ := (State.pushFrame_ok_iff s _ _ _).2 hp
  simp only [enterRoutine, hr]
  exact ⟨_, rfl⟩

/-- A next state of a raised stop is an entered routine. -/
theorem raiseStop_next {s t : State} {st : Stop} (h : raiseStop s st = .next t) :
    ∃ e p u, initiate e s.pc p u = .next t ∧ u = { s with draws := u.draws } ∧
      p.cur = s.psl.cur ∧ p.is = s.psl.is := by
  cases st with
  | fault e => exact ⟨e, _, s, h, rfl, rfl, rfl⟩
  | floatingFault c b =>
    exact ⟨.arithmeticFault c, floatingFaultPsl b s, s.advanceDraws 4, h, rfl, rfl, rfl⟩
  | refused r => cases h

/-- What `conclude` can answer as a next state. -/
theorem conclude_next {s t : State} {r : Except Stop Completion} (h : conclude s r = .next t) :
    (∃ st, r = .error st ∧ raiseStop s st = .next t) ∨ r = .ok (.done t) ∨
      ∃ e s', r = .ok (.trap e s') ∧ initiate e s'.pc s'.psl s' = .next t := by
  cases r with
  | error st => exact .inl ⟨st, rfl, h⟩
  | ok c =>
    cases c with
    | done s' => cases h; exact .inr (.inl rfl)
    | trap e s' => exact .inr (.inr ⟨e, s', rfl, h⟩)

/-- How many parameters a frame has. -/
theorem Exc.frame_length_of_fault (e : Exc) (pc : Longword) (p : Psl) (s : State) (h : e ≠ .subsetEmulationTrap) :
    (e.frame pc p s).length = 2 + (e.params s).length := by
  cases e <;> simp [Exc.frame] at * <;> omega

/-- REI inverted: everything it can answer. -/
theorem returnFromException_done {s : State} {c : Completion} (h : returnFromException s = .ok c) :
    ∃ newPc w, s.readLong s.sp = .ok newPc ∧ s.readLong (s.sp + 4) = .ok w ∧
      morePrivileged (Psl.unpack w).cur s.psl.cur = false ∧ (Psl.unpack w).is = false ∧ (Psl.unpack w).ipl = 0 ∧
      c = .done { s.setSp (s.sp + 8) with
        psl := { Psl.unpack w with tp := (Psl.unpack w).tp || s.psl.tp }, pc := newPc, staleCode := [] } := by
  simp only [returnFromException] at h
  split at h
  · cases h
  · rename_i newPc hpc
    split at h
    · cases h
    · rename_i w hw
      split at h
      · cases h
      · split at h
        · cases h
        · rename_i h1 h2
          simp only [Bool.or_eq_true, bne_iff_ne, not_or, Bool.not_eq_true, ne_eq, Decidable.not_not] at h1 h2
          cases h
          exact ⟨newPc, w, hpc, hw, h1, h2.1, h2.2, rfl⟩

/-- REI answers the state it returns to where nothing stands against it. -/
theorem returnFromException_ok {s : State} {newPc w : Longword} (hpc : s.readLong s.sp = .ok newPc)
    (hw : s.readLong (s.sp + 4) = .ok w) (h1 : morePrivileged (Psl.unpack w).cur s.psl.cur = false)
    (h2 : (Psl.unpack w).is = false) (h3 : (Psl.unpack w).ipl = 0) :
    returnFromException s = .ok (.done { s.setSp (s.sp + 8) with
      psl := { Psl.unpack w with tp := (Psl.unpack w).tp || s.psl.tp }, pc := newPc, staleCode := [] }) := by
  simp only [returnFromException, hpc, hw, h1, h2, h3]
  rfl

end Sys2Proof.Machine
end

