-- ==== Sys2Proof/Laws/Operands.lean ====
section
/-! SUPPORT. Operands: evaluating a specifier changes registers alone; writing a place stores the value there and changes
nothing else. -/

namespace Sys2Proof.Machine

open Sys2Proof

/-- Everything but R0 to R13 and the stack pointers is the same. -/
def onlyRegisters (s s' : State) : Prop := s' = { s with regs := s'.regs, sps := s'.sps }

theorem onlyRegisters.refl' (s : State) : onlyRegisters s s := rfl

theorem onlyRegisters.trans' {s t u : State} (h : onlyRegisters s t) (k : onlyRegisters t u) : onlyRegisters s u := by
  unfold onlyRegisters at *
  rw [k, h]

theorem onlyRegisters_setReg (s : State) (r : Reg) (v : Longword) (h : r ≠ 15) : onlyRegisters s (s.setReg r v) := by
  unfold onlyRegisters State.setReg
  split
  · rfl
  · split
    · rfl
    · exact absurd (Fin.ext (by omega)) h

theorem onlyRegisters.wf' {s t : State} (h : onlyRegisters s t) (w : s.wf) : t.wf := by rw [h]; exact w
theorem onlyRegisters.setting {s t : State} (h : onlyRegisters s t) : sameSetting s t := by
  rw [h]; exact ⟨rfl, rfl, rfl⟩
theorem onlyRegisters.psl' {s t : State} (h : onlyRegisters s t) : t.psl = s.psl := by rw [h]
theorem onlyRegisters.pc' {s t : State} (h : onlyRegisters s t) : t.pc = s.pc := by rw [h]
theorem onlyRegisters.mem' {s t : State} (h : onlyRegisters s t) : t.mem = s.mem := by rw [h]
theorem onlyRegisters.translation' {s t : State} (h : onlyRegisters s t) : t.translation = s.translation := by rw [h]
theorem onlyRegisters.config' {s t : State} (h : onlyRegisters s t) : t.config = s.config := by rw [h]
theorem onlyRegisters.draws' {s t : State} (h : onlyRegisters s t) : t.draws = s.draws := by rw [h]
theorem onlyRegisters.staleCode' {s t : State} (h : onlyRegisters s t) : t.staleCode = s.staleCode := by rw [h]

/-! Evaluating a specifier. -/

theorem map_eq_ok {ε α β : Type} {x : Except ε α} {f : α → β} {b : β} (h : x.map f = .ok b) :
    ∃ a, x = .ok a ∧ f a = b := by
  cases x with
  | error e => cases h
  | ok a => cases h; exact ⟨a, rfl, rfl⟩

/-- The address of a memory form: registers alone change. -/
theorem baseAddress_ok {t : OpType} {b : BaseSpec} {next a : Longword} {s s' : State}
    (h : baseAddress t b next s = .ok (a, s')) : onlyRegisters s s' := by
  cases b <;> simp only [baseAddress] at h <;>
    first
    | cases h; done
    | (cases h; exact onlyRegisters.refl' _)
    | (split at h
       · cases h
       · cases h
         first
         | exact onlyRegisters.refl' _
         | (exact onlyRegisters_setReg _ _ _ (by assumption)))
    | (obtain ⟨x, -, hx⟩ := map_eq_ok h
       cases hx
       exact onlyRegisters.refl' _)
    | (split at h
       · cases h
       · obtain ⟨x, -, hx⟩ := map_eq_ok h
         cases hx
         exact onlyRegisters_setReg _ _ _ (by assumption))

/-- A checked operand is the operand, and its value no reserved operand. -/
theorem checkedOperand_ok {k : OperandKind} {v : Octaword} {p : Place} {next : Longword} {s : State} {o : Evaluated}
    (h : checkedOperand k v p next s = .ok o) : readsReserved k.type v = false ∧ o = ⟨v, p, next, s⟩ := by
  simp only [checkedOperand] at h
  split at h
  · cases h
  · cases h; exact ⟨by simp_all, rfl⟩

theorem accessPlace_ok {k : OperandKind} {p : Place} {next : Longword} {s : State} {o : Evaluated}
    (h : accessPlace k p next s = .ok o) : o.place = p ∧ o.next = next ∧ o.state = s := by
  have checked : ∀ {v}, checkedOperand k v p next s = .ok o → o.place = p ∧ o.next = next ∧ o.state = s := fun hc => by
    rw [(checkedOperand_ok hc).2]; exact ⟨rfl, rfl, rfl⟩
  simp only [accessPlace] at h
  split at h
  · cases h; exact ⟨rfl, rfl, rfl⟩
  · split at h
    · cases h; exact ⟨rfl, rfl, rfl⟩
    · cases h
  · split at h
    · cases h
    · exact checked h
  · split at h
    · cases h
    · exact checked h

theorem accessImmediate_ok {k : OperandKind} {v : Octaword} {next : Longword} {s : State} {o : Evaluated}
    (h : accessImmediate k v next s = .ok o) :
    o.place = .mem (next - BitVec.ofNat 32 k.type.size) ∧ o.next = next ∧ o.state = s := by
  simp only [accessImmediate] at h
  split at h
  · rw [(checkedOperand_ok h).2]; exact ⟨rfl, rfl, rfl⟩
  · rw [(checkedOperand_ok h).2]; exact ⟨rfl, rfl, rfl⟩
  · exact accessPlace_ok h

/-- Whether an operand can be at a place: a literal only to be read, a register only where its address is not taken; never the PC. -/
def placeAllowed (k : OperandKind) : Place → Prop
  | .literal => k.access = .read
  | .reg r => k.access ≠ .address ∧ r ≠ 15
  | .mem _ => True

/-- A register operand of at most 4 bytes reaches the PC only where it is the PC. -/
theorem reachesPc_narrow {t : OpType} {r : Reg} (h : regCount t = 1) (hr : r ≠ 15) : reachesPc t r = false := by
  simp only [reachesPc, h, decide_eq_false_iff_not]
  intro hle
  exact hr (Fin.ext (by have := r.isLt; show r.val = 15; omega))

/-- Everything evaluating a specifier does besides the value it reads: registers alone change, the next specifier follows, and
the operand is at a place its access allows. -/
theorem evalOperand_ok {k : OperandKind} {sp : Specifier} {pos : Longword} {s : State} {o : Evaluated}
    (h : evalOperand k sp pos s = .ok o) :
    onlyRegisters s o.state ∧ o.next = addrAdd pos (sp.length k.type) ∧ placeAllowed k o.place := by
  unfold evalOperand at h
  dsimp only at h
  split at h
  · split at h
    · cases h
      exact ⟨onlyRegisters.refl' _, rfl, by assumption⟩
    · cases h
  · split at h
    · cases h
    · split at h
      · cases h
      · rename_i h1 h2
        obtain ⟨e1, e2, e3⟩ := accessPlace_ok h
        rw [e1, e2, e3]
        exact ⟨onlyRegisters.refl' _, rfl, h1, h2⟩
  · obtain ⟨e1, e2, e3⟩ := accessImmediate_ok h
    rw [e1, e2, e3]
    exact ⟨onlyRegisters.refl' _, rfl, trivial⟩
  · split at h
    · cases h
    · rename_i hb
      obtain ⟨e1, e2, e3⟩ := accessPlace_ok h
      rw [e1, e2, e3]
      exact ⟨baseAddress_ok hb, rfl, trivial⟩
  · split at h
    · cases h
    · split at h
      · cases h
      · rename_i hb
        obtain ⟨e1, e2, e3⟩ := accessPlace_ok h
        rw [e1, e2, e3]
        exact ⟨baseAddress_ok hb, rfl, trivial⟩
  · cases h

/-- Evaluating specifiers in order changes registers alone. -/
theorem evalOperands_ok {ks : List OperandKind} {sps : List Specifier} {pos next : Longword} {s s' : State}
    {os : List Evaluated} (h : evalOperands ks sps pos s = .ok (os, next, s')) : onlyRegisters s s' := by
  induction ks generalizing sps pos s os with
  | nil => simp only [evalOperands] at h; cases h; exact onlyRegisters.refl' _
  | cons k ks ih =>
    cases sps with
    | nil => simp only [evalOperands] at h; cases h; exact onlyRegisters.refl' _
    | cons sp sps =>
      simp only [evalOperands] at h
      split at h
      · cases h
      · rename_i o ho
        split at h
        · cases h
        · rename_i hos
          cases h
          exact (evalOperand_ok ho).1.trans' (ih hos)

/-! Register operands. -/

theorem regCount_mul (t : OpType) : 256 ^ t.size ∣ 2 ^ (32 * regCount t) := by
  cases t <;> decide

theorem size_le_sixteen (t : OpType) : t.size ≤ 16 := by cases t <;> decide

theorem reg_succ_val (r : Reg) (h : r.val < 15) : (r + 1).val = r.val + 1 := by
  rw [Fin.val_add]
  show (r.val + 1) % 16 = _
  omega

theorem onlyRegisters_writeRegs (s : State) (n : Nat) (r : Reg) (v : Nat) (h : r.val + n ≤ 15) :
    onlyRegisters s (s.writeRegs n r v) := by
  induction n generalizing s r v with
  | zero => exact onlyRegisters.refl' _
  | succ n ih =>
    simp only [State.writeRegs]
    refine (onlyRegisters_setReg s r _ (by intro e; subst e; simp at h)).trans' (ih _ _ _ ?_)
    rw [reg_succ_val r (by omega)]
    omega

theorem getReg_writeRegs_other (s : State) (n : Nat) (r : Reg) (v : Nat) (h : r.val + n ≤ 15) (q : Reg)
    (hq : q.val < r.val ∨ r.val + n ≤ q.val) : (s.writeRegs n r v).getReg q = s.getReg q := by
  induction n generalizing s r v with
  | zero => rfl
  | succ n ih =>
    have hr := reg_succ_val r (by omega)
    simp only [State.writeRegs]
    rw [ih _ _ _ (by omega) (by omega)]
    exact State.getReg_setReg_other _ _ _ _ fun e => by subst e; omega

theorem readRegs_writeRegs (s : State) (n : Nat) (r : Reg) (v : Nat) (h : r.val + n ≤ 15) :
    (s.writeRegs n r v).readRegs n r = v % 2 ^ (32 * n) := by
  induction n generalizing s r v with
  | zero => simp [State.readRegs, Nat.mod_one]
  | succ n ih =>
    have hr := reg_succ_val r (by omega)
    simp only [State.writeRegs, State.readRegs]
    rw [ih _ _ _ (by omega), getReg_writeRegs_other _ _ _ _ (by omega) _ (by omega), State.getReg_setReg_same]
    rw [show 32 * (n + 1) = 32 + 32 * n by omega, Nat.pow_add, Nat.mod_mul]
    simp

/-- Everything writing a register operand does. -/
theorem writeRegOperand_spec (s : State) (t : OpType) (r : Reg) (v : Octaword) (h : reachesPc t r = false) :
    onlyRegisters s (s.writeRegOperand t r v) ∧
    (s.writeRegOperand t r v).readRegOperand t r = BitVec.ofNat 128 (v.toNat % 256 ^ t.size) ∧
    ∀ q : Reg, (q.val < r.val ∨ r.val + regCount t ≤ q.val) → (s.writeRegOperand t r v).getReg q = s.getReg q := by
  have hc : 1 ≤ regCount t := by cases t <;> decide
  have hr : r.val + regCount t ≤ 15 := by
    simp only [reachesPc, decide_eq_false_iff_not] at h
    omega
  refine ⟨onlyRegisters_writeRegs _ _ _ _ hr, ?_, getReg_writeRegs_other _ _ _ _ hr⟩
  simp only [State.readRegOperand, State.writeRegOperand, readRegs_writeRegs _ _ _ _ hr]
  rw [Nat.mod_mod_of_dvd _ (regCount_mul t), Nat.mul_comm, Nat.mul_add_mod, Nat.mod_mod]

/-! Writing a place. -/

theorem State.writePlace_ok (s : State) (t : OpType) (v : Octaword) (p : Place) (h : p.writable t s) :
    ∃ s', s.writePlace t v p = .ok s' := by
  cases p with
  | literal => exact ⟨s, rfl⟩
  | reg r => exact ⟨_, rfl⟩
  | mem a => exact (State.store_ok_iff _ _ _).2 (by rw [leBytes_length]; exact h)

/-- Everything writing a place does: the value is stored there (`storedAt`); no other part of the state changes, but what
instruction fetch may still see of the bytes stored over. -/
theorem State.writePlace_spec {s s' : State} {t : OpType} {v : Octaword} {p : Place}
    (hp : ∀ r, p = .reg r → reachesPc t r = false) (h : s.writePlace t v p = .ok s') :
    storedAt t v p s s' ∧ (s.wf → s'.wf) ∧
    s' = { s with regs := s'.regs, sps := s'.sps, mem := s'.mem, staleCode := s'.staleCode } ∧
    ((∀ a, p ≠ .mem a) → s'.mem = s.mem ∧ s'.staleCode = s.staleCode) ∧
    ((∀ r, p ≠ .reg r) → s'.regs = s.regs ∧ s'.sps = s.sps) := by
  cases p with
  | literal => cases h; exact ⟨⟨fun _ _ => rfl, fun _ => rfl, rfl⟩, id, rfl, fun _ => ⟨rfl, rfl⟩, fun _ => ⟨rfl, rfl⟩⟩
  | reg r =>
    simp only [State.writePlace, hp r rfl, Bool.false_eq_true, if_false] at h
    cases h
    obtain ⟨h1, h2, h3⟩ := writeRegOperand_spec s t r v (hp r rfl)
    refine ⟨⟨h2, fun q _ hq => h3 q hq, fun pa => ?_, h1.staleCode'⟩, h1.wf', ?_, fun _ => ⟨h1.mem', h1.staleCode'⟩,
      fun hr => absurd rfl (hr r)⟩
    · simp only [State.physicalByte, h1.mem']
    · rw [h1]
  | mem a =>
    obtain ⟨e, w, o, c⟩ := State.store_spec h
    rw [leBytes_length] at o c
    have hreg : ∀ q, q ≠ 15 → s'.getReg q = s.getReg q := fun q _ => by
      rw [e]
      rfl
    exact ⟨⟨hreg, o, c, by rw [State.store_staleCode h, leBytes_length]⟩, w, by rw [e], fun ha => absurd rfl (ha a), fun _ => by rw [e]; exact ⟨rfl, rfl⟩⟩

end Sys2Proof.Machine
end

