-- ==== Sys2Proof/Laws/Run.lean ====
section
/-! SUPPORT. What an instruction's meaning can do, said once per shared operation and once per instruction: until an exception
is taken, the setting, the form of memory and the PSL's high fields stay (`ordinary`). -/

namespace Sys2Proof.Machine

open Sys2Proof

/-- What every instruction but REI keeps until it ends: the setting, memory's canonical form, and IPL, PRV, CUR, IS, FPD, TP
and CM. -/
structure ordinary (s t : State) : Prop where
  setting : sameSetting s t
  wf : s.wf → t.wf
  high : sameHighPsl s.psl t.psl

theorem ordinary.refl' (s : State) : ordinary s s := ⟨⟨rfl, rfl, rfl⟩, id, rfl⟩

theorem ordinary.trans' {s t u : State} (h : ordinary s t) (k : ordinary t u) : ordinary s u :=
  ⟨h.1.trans' k.1, fun w => k.2 (h.2 w), Eq.trans k.3 h.3⟩

theorem onlyRegisters.ordinary' {s t : State} (h : onlyRegisters s t) : ordinary s t :=
  ⟨h.setting, h.wf', by rw [h]; rfl⟩

theorem ordinary_setPc (s : State) (v : Longword) : ordinary s (s.setPc v) := ⟨⟨rfl, rfl, rfl⟩, id, rfl⟩
theorem ordinary_setSp (s : State) (v : Longword) : ordinary s (s.setSp v) := ⟨⟨rfl, rfl, rfl⟩, id, rfl⟩
theorem ordinary_setCodes (s : State) (cc : CondCodes) : ordinary s (s.setCodes cc) := ⟨⟨rfl, rfl, rfl⟩, id, rfl⟩
theorem ordinary_advanceDraws (s : State) (n : Nat) : ordinary s (s.advanceDraws n) := ⟨⟨rfl, rfl, rfl⟩, id, rfl⟩
theorem ordinary_setReg (s : State) (r : Reg) (v : Longword) : ordinary s (s.setReg r v) :=
  ⟨sameSetting_setReg s r v, fun h => State.setReg_wf h r v, by simp [sameHighPsl]⟩
theorem ordinary_setPsl (s : State) (p : Psl) (h : sameHighPsl s.psl p) : ordinary s (s.setPsl p) :=
  ⟨⟨rfl, rfl, rfl⟩, id, h⟩

theorem ordinary_store {s s' : State} {bs : List Byte} {va : Longword} (h : s.store bs va = .ok s') : ordinary s s' := by
  obtain ⟨e, w, -, -⟩ := State.store_spec h
  exact ⟨by rw [e]; exact ⟨rfl, rfl, rfl⟩, w, by rw [e]; rfl⟩

theorem ordinary_push {s s' : State} {v : Longword} (h : s.push v = .ok s') : ordinary s s' := by
  obtain ⟨e, w, -, -⟩ := State.push_spec h
  exact ⟨by rw [e]; exact ⟨rfl, rfl, rfl⟩, w, by rw [e]; rfl⟩

theorem ordinary_writeRegs (s : State) (n : Nat) (r : Reg) (v : Nat) : ordinary s (s.writeRegs n r v) := by
  induction n generalizing s r v with
  | zero => exact ordinary.refl' _
  | succ n ih => exact (ordinary_setReg s r _).trans' (ih _ _ _)

theorem ordinary_drawRegs (s : State) (n : Nat) (r : Reg) (i : Nat) : ordinary s (s.drawRegs n r i) := by
  induction n generalizing s r i with
  | zero => exact ordinary.refl' _
  | succ n ih => exact (ordinary_setReg s r _).trans' (ih _ _ _)

theorem ordinary_drawStringRegs (s : State) : ordinary s s.drawStringRegs :=
  (ordinary_drawRegs s 6 0 0).trans' (ordinary_advanceDraws _ 6)

theorem ordinary_writePlace {s s' : State} {t : OpType} {v : Octaword} {p : Place} (h : s.writePlace t v p = .ok s') :
    ordinary s s' := by
  cases p with
  | literal => cases h; exact ordinary.refl' _
  | reg r =>
    simp only [State.writePlace] at h
    split at h <;> cases h
    · exact (ordinary_writeRegs _ _ _ _).trans' (ordinary_setPc _ _)
    · exact ordinary_writeRegs _ _ _ _
  | mem a => exact ordinary_store h

theorem storeResult_ok {s s' : State} {t : OpType} {v : Octaword} {cc : CondCodes} {p : Place}
    (h : storeResult t v cc p s = .ok s') : ∃ u, s.writePlace t v p = .ok u ∧ s' = u.setCodes cc := by
  simp only [storeResult] at h
  split at h
  · cases h
  · cases h; exact ⟨_, by assumption, rfl⟩

theorem ordinary_storeResult {s s' : State} {t : OpType} {v : Octaword} {cc : CondCodes} {p : Place}
    (h : storeResult t v cc p s = .ok s') : ordinary s s' := by
  obtain ⟨u, hu, rfl⟩ := storeResult_ok h
  exact (ordinary_writePlace hu).trans' (ordinary_setCodes _ _)

/-- The state in which an instruction ended. -/
def Completion.state : Completion → State
  | .done s => s
  | .trap _ s => s

/-! The classes. -/

/-- Everything class INT does (40_arithmetic_exceptions.md R119). -/
theorem classInt_ok {t : OpType} {x : Int} {c : Bool} {p : Place} {s : State} {r : Completion}
    (h : classInt t x c p s = .ok r) :
    ∃ s', storeResult t (BitVec.ofNat 128 (lowOrder (8 * t.size) x)) (integerCodes (8 * t.size) x c) p s = .ok s' ∧
      r = if !fitsSigned (8 * t.size) x && s.psl.iv then .trap (.arithmeticTrap .integerOverflow) s' else .done s' := by
  simp only [classInt] at h
  split at h
  · cases h
  · rename_i s' hs
    refine ⟨s', hs, ?_⟩
    split at h
    · rename_i hc; cases h; simp [hc]
    · rename_i hc; cases h; simp only [if_neg hc]

theorem ordinary_classInt {t : OpType} {x : Int} {c : Bool} {p : Place} {s : State} {r : Completion}
    (h : classInt t x c p s = .ok r) : ordinary s r.state := by
  obtain ⟨s', hs, rfl⟩ := classInt_ok h
  have := ordinary_storeResult hs
  split <;> exact this

theorem ordinary_classIdiv {t : OpType} {a b : Octaword} {p : Place} {s : State} {r : Completion}
    (h : classIdiv t a b p s = .ok r) : ordinary s r.state := by
  simp only [classIdiv] at h
  split at h
  · split at h
    · cases h
    · rename_i hs; cases h; exact ordinary_storeResult hs
  · exact ordinary_classInt h

theorem ordinary_floatTrap {t : FloatType} {v : Octaword} {cc : CondCodes} {c : Option ArithTrap} {p : Place} {s : State}
    {r : Completion} (h : floatTrap t v cc c p s = .ok r) : ordinary s r.state := by
  simp only [floatTrap] at h
  split at h
  · cases h
  · rename_i hs
    split at h <;> (cases h; exact ordinary_storeResult hs)

theorem ordinary_classFlt {t : FloatType} {o : FloatOutcome} {p : Place} {s : State} {r : Completion}
    (h : classFlt t o p s = .ok r) : ordinary s r.state := by
  simp only [classFlt] at h
  split at h
  · cases h
  · exact ordinary_floatTrap h
  · split at h
    · exact ordinary_floatTrap h
    · cases h
  · split at h
    · split at h
      · exact ordinary_floatTrap h
      · cases h
    · exact ordinary_floatTrap h

theorem ordinary_classFdiv {t : FloatType} {a b : Octaword} {o : FloatOutcome} {p : Place} {s : State} {r : Completion}
    (h : classFdiv t a b o p s = .ok r) : ordinary s r.state := by
  simp only [classFdiv] at h
  split at h
  · cases h
  · split at h
    · split at h
      · exact ordinary_floatTrap h
      · cases h
    · exact ordinary_classFlt h

theorem ordinary_classDec {o : DecOutcome} {n : Nat} {a : Longword} {s : State} {r : Completion}
    (h : classDec o n a s = .ok r) : ordinary s r.state := by
  simp only [classDec] at h
  split at h
  · cases h
  · rename_i s' hs
    have := ((ordinary_store hs).trans' (ordinary_drawStringRegs s')).trans'
      (ordinary_setCodes _ ⟨o.n, o.z, decide (10 ^ n ≤ o.magnitude), o.c⟩)
    split at h <;> (cases h; exact this)

theorem ordinary_classDdiv {d : DecimalString} {o : DecOutcome} {n : Nat} {a : Longword} {s : State} {r : Completion}
    (h : classDdiv d o n a s = .ok r) : ordinary s r.state := by
  simp only [classDdiv] at h
  split at h
  · split at h
    · cases h
    · rename_i s' hs
      cases h
      exact (ordinary_store hs).trans' ((ordinary_drawRegs s' 6 0 0).trans'
        ((ordinary_setCodes _ _).trans' (ordinary_advanceDraws _ _)))
  · exact ordinary_classDec h

theorem ordinary_runScalarClass {c : ClassOp} {vs : List Octaword} {strs : List DecimalString} {d : Evaluated} {s : State}
    {r : Completion} (h : runScalarClass c vs strs d s = .ok r) : ordinary s r.state := by
  have hd : ordinary s (if strs.isEmpty then s else s.drawStringRegs) := by
    split
    · exact ordinary.refl' s
    · exact ordinary_drawStringRegs s
  simp only [runScalarClass] at h
  split at h
  · exact hd.trans' (ordinary_classInt h)
  · exact ordinary_classIdiv h
  · exact hd.trans' (ordinary_classFlt h)
  · exact ordinary_classFdiv h
  · cases h

theorem ordinary_runStringClass {c : ClassOp} {vs : List Octaword} {strs : List DecimalString} {l a : Evaluated} {s : State}
    {r : Completion} (h : runStringClass c vs strs l a s = .ok r) : ordinary s r.state := by
  simp only [runStringClass] at h
  split at h
  · cases h
  · split at h
    · cases h
    · split at h
      · exact ordinary_classDdiv h
      · exact ordinary_classDec h
      · cases h

/-! POLYx. -/

theorem ordinary_polyStore (t : FloatType) (v : Octaword) (cc : CondCodes) (s : State) :
    ordinary s (polyStore t v cc s) :=
  (ordinary_writeRegs _ _ _ _).trans' ((ordinary_drawRegs _ _ _ _).trans'
    ((ordinary_advanceDraws _ _).trans' (ordinary_setCodes _ _)))

theorem ordinary_polyEvaluate {t : FloatType} {arg : Octaword} {d : Word} {a : Longword} {s : State} {r : Completion}
    (h : polyEvaluate t arg d a s = .ok r) : ordinary s r.state := by
  simp only [polyEvaluate] at h
  split at h
  · cases h
  · split at h
    · cases h
    · split at h
      · cases h
      · cases h; exact ordinary_polyStore _ _ _ _
      · split at h <;> (cases h; exact ordinary_polyStore _ _ _ _)

/-! Calls and returns. -/

theorem bind_eq_ok {α β : Type} {x : Except Stop α} {f : α → Except Stop β} {b : β} (h : x >>= f = .ok b) :
    ∃ a, x = .ok a ∧ f a = .ok b := by
  cases x with
  | error e => cases h
  | ok a => exact ⟨a, rfl, h⟩

theorem ordinary_pushRegisters {mask : Word} {n : Nat} {s s' : State} (h : pushRegisters mask n s = .ok s') :
    ordinary s s' := by
  induction n generalizing s with
  | zero => cases h; exact ordinary.refl' _
  | succ n ih =>
    simp only [pushRegisters] at h
    split at h
    · split at h
      · cases h
      · rename_i hp; exact (ordinary_push hp).trans' (ih h)
    · exact ih h

theorem ordinary_pushAll {vs : List Longword} {s s' : State} (h : pushAll vs s = .ok s') : ordinary s s' := by
  induction vs generalizing s with
  | nil => cases h; exact ordinary.refl' _
  | cons v vs ih =>
    simp only [pushAll] at h
    split at h
    · cases h
    · rename_i hp; exact (ordinary_push hp).trans' (ih h)

theorem ordinary_callProcedure {b : Bool} {ap dst next : Longword} {mask : Word} {s : State} {r : Completion}
    (h : callProcedure b ap dst next mask s = .ok r) : ordinary s r.state := by
  obtain ⟨s1, h1, h⟩ := bind_eq_ok h
  obtain ⟨s2, h2, h⟩ := bind_eq_ok h
  cases h
  have o2 := ((ordinary_setSp s _).trans' (ordinary_pushRegisters h1)).trans' (ordinary_pushAll h2)
  have o3 := (o2.trans' (ordinary_setReg s2 fpReg s2.sp)).trans' (ordinary_setReg _ apReg ap)
  refine ⟨o3.1, o3.2, ?_⟩
  rfl

theorem State.pop_ok {s s' : State} {v : Longword} (h : s.pop = .ok (v, s')) :
    s.readLong s.sp = .ok v ∧ s' = s.setSp (s.sp + 4) := by
  simp only [State.pop] at h
  split at h
  · cases h
  · cases h; exact ⟨by assumption, rfl⟩

theorem ordinary_pop {s s' : State} {v : Longword} (h : s.pop = .ok (v, s')) : ordinary s s' := by
  obtain ⟨-, rfl⟩ := State.pop_ok h
  exact ordinary_setSp _ _

theorem ordinary_popRegisters {mask : Word} {n i : Nat} {s s' : State} (h : popRegisters mask n i s = .ok s') :
    ordinary s s' := by
  induction n generalizing s i with
  | zero => cases h; exact ordinary.refl' _
  | succ n ih =>
    simp only [popRegisters] at h
    split at h
    · split at h
      · cases h
      · rename_i hp; exact (ordinary_pop hp).trans' ((ordinary_setReg _ _ _).trans' (ih h))
    · exact ih h

theorem ordinary_removeArguments {s s' : State} (h : removeArguments s = .ok s') : ordinary s s' := by
  simp only [removeArguments] at h
  split at h
  · cases h
  · rename_i hp; cases h; exact (ordinary_pop hp).trans' (ordinary_setSp _ _)

/-! The instructions. -/

/-- What an instruction other than REI comes to: a state reached by ordinary changes, or a routine entered from one
(for a fault, from the state at its start up to the free values used). -/
def ordinaryAnswer (s t : State) : Prop :=
  ordinary s t ∨ ∃ e pc p u, ordinary s u ∧ p.cur = s.psl.cur ∧ p.is = s.psl.is ∧ initiate e pc p u = .next t

theorem sameHighPsl.cur' {p q : Psl} (h : sameHighPsl p q) : q.cur = p.cur := by
  have e : (q.withPsw 0).cur = (p.withPsw 0).cur := by rw [show q.withPsw 0 = p.withPsw 0 from h]
  exact e
theorem sameHighPsl.is' {p q : Psl} (h : sameHighPsl p q) : q.is = p.is := by
  have e : (q.withPsw 0).is = (p.withPsw 0).is := by rw [show q.withPsw 0 = p.withPsw 0 from h]
  exact e
theorem sameHighPsl.tp' {p q : Psl} (h : sameHighPsl p q) : q.tp = p.tp := by
  have e : (q.withPsw 0).tp = (p.withPsw 0).tp := by rw [show q.withPsw 0 = p.withPsw 0 from h]
  exact e

theorem ordinaryAnswer_raiseStop {s t : State} {st : Stop} (h : raiseStop s st = .next t) : ordinaryAnswer s t := by
  obtain ⟨e, p, u, hi, hu, hc, hs⟩ := raiseStop_next h
  refine .inr ⟨e, _, p, u, ?_, hc, hs, hi⟩
  rw [hu]
  exact ⟨⟨rfl, rfl, rfl⟩, id, rfl⟩

theorem ordinaryAnswer_conclude {s t : State} {r : Except Stop Completion} (h : conclude s r = .next t)
    (ho : ∀ c, r = .ok c → ordinary s c.state) : ordinaryAnswer s t := by
  rcases conclude_next h with ⟨st, -, hr⟩ | hd | ⟨e, s', hr, hi⟩
  · exact ordinaryAnswer_raiseStop hr
  · exact .inl (ho _ hd)
  · have := ho _ hr
    exact .inr ⟨e, _, _, s', this, this.high.cur', this.high.is', hi⟩

theorem ordinary_operand {k : OperandKind} {sp : Specifier} {pos : Longword} {s : State} {o : Evaluated}
    (h : evalOperand k sp pos s = .ok o) : ordinary s o.state := (evalOperand_ok h).1.ordinary'

theorem execNop_ordinary {s t : State} (h : execNop s = .next t) : ordinaryAnswer s t :=
  ordinaryAnswer_conclude h fun c hc => by cases hc; exact ordinary_setPc _ _

theorem execReservedFFFF_ordinary {s t : State} (h : execReservedFFFF s = .next t) : ordinaryAnswer s t :=
  ordinaryAnswer_conclude h fun c hc => by cases hc

theorem execXfc_ordinary {s t : State} (h : execXfc s = .next t) : ordinaryAnswer s t :=
  ordinaryAnswer_conclude h fun c hc => by cases hc

theorem execBpt_ordinary {s t : State} (h : execBpt s = .next t) : ordinaryAnswer s t :=
  ordinaryAnswer_conclude h fun c hc => by cases hc

theorem execBptCompat_ordinary {s t : State} (h : execBptCompat s = .next t) : ordinaryAnswer s t :=
  ordinaryAnswer_conclude h fun c hc => by cases hc

theorem execIotCompat_ordinary {s t : State} (h : execIotCompat s = .next t) : ordinaryAnswer s t :=
  ordinaryAnswer_conclude h fun c hc => by cases hc

theorem execEmtCompat_ordinary {b : Byte} {s t : State} (h : execEmtCompat b s = .next t) : ordinaryAnswer s t :=
  ordinaryAnswer_conclude h fun c hc => by cases hc

theorem execTrapCompat_ordinary {b : Byte} {s t : State} (h : execTrapCompat b s = .next t) : ordinaryAnswer s t :=
  ordinaryAnswer_conclude h fun c hc => by cases hc

theorem execBispsw_ordinary {m : Specifier} {s t : State} (h : execBispsw m s = .next t) : ordinaryAnswer s t :=
  ordinaryAnswer_conclude h fun c hc => by
    obtain ⟨a, ha, hc⟩ := bind_eq_ok hc
    split at hc
    · cases hc
    · cases hc
      exact (ordinary_operand ha).trans' ((ordinary_setPsl a.state (a.state.psl.orPsw a.word) rfl).trans' (ordinary_setPc _ _))

theorem changeMode_ordinary {m : Mode} {x : Specifier} {s t : State} (h : changeMode m x s = .next t) :
    ordinaryAnswer s t := by
  simp only [changeMode] at h
  split at h
  · cases h
  · exact ordinaryAnswer_conclude h fun c hc => by
      obtain ⟨a, ha, hc⟩ := bind_eq_ok hc
      cases hc
      exact (ordinary_operand ha).trans' (ordinary_setPc _ _)

theorem execAddl2_ordinary {a b : Specifier} {s t : State} (h : execAddl2 a b s = .next t) : ordinaryAnswer s t :=
  ordinaryAnswer_conclude h fun c hc => by
    obtain ⟨a, ha, hc⟩ := bind_eq_ok hc
    obtain ⟨b, hb, hc⟩ := bind_eq_ok hc
    exact (ordinary_operand ha).trans' ((ordinary_operand hb).trans'
      ((ordinary_setPc _ _).trans' (ordinary_classInt hc)))

theorem execDivl2_ordinary {a b : Specifier} {s t : State} (h : execDivl2 a b s = .next t) : ordinaryAnswer s t :=
  ordinaryAnswer_conclude h fun c hc => by
    obtain ⟨a, ha, hc⟩ := bind_eq_ok hc
    obtain ⟨b, hb, hc⟩ := bind_eq_ok hc
    exact (ordinary_operand ha).trans' ((ordinary_operand hb).trans'
      ((ordinary_setPc _ _).trans' (ordinary_classIdiv hc)))

theorem execIndex_ordinary {a b c d e f : Specifier} {s t : State} (h : execIndex a b c d e f s = .next t) :
    ordinaryAnswer s t :=
  ordinaryAnswer_conclude h fun r hc => by
    obtain ⟨a, ha, hc⟩ := bind_eq_ok hc
    obtain ⟨b, hb, hc⟩ := bind_eq_ok hc
    obtain ⟨c, hcc, hc⟩ := bind_eq_ok hc
    obtain ⟨d, hd, hc⟩ := bind_eq_ok hc
    obtain ⟨e, he, hc⟩ := bind_eq_ok hc
    obtain ⟨f, hf, hc⟩ := bind_eq_ok hc
    obtain ⟨u, hu, hc⟩ := bind_eq_ok hc
    have := (ordinary_operand ha).trans' ((ordinary_operand hb).trans' ((ordinary_operand hcc).trans'
      ((ordinary_operand hd).trans' ((ordinary_operand he).trans' ((ordinary_operand hf).trans'
        ((ordinary_setPc _ _).trans' (ordinary_storeResult hu)))))))
    split at hc <;> (cases hc; exact this)

theorem polyInstruction_ordinary {ft : FloatType} {n : Nat} {a b c : Specifier} {s t : State}
    (h : polyInstruction ft n a b c s = .next t) : ordinaryAnswer s t := by
  simp only [polyInstruction] at h
  split at h
  · cases h
  · exact ordinaryAnswer_conclude h fun r hc => by
      obtain ⟨a, ha, hc⟩ := bind_eq_ok hc
      obtain ⟨b, hb, hc⟩ := bind_eq_ok hc
      obtain ⟨c, hcc, hc⟩ := bind_eq_ok hc
      exact (ordinary_operand ha).trans' ((ordinary_operand hb).trans' ((ordinary_operand hcc).trans'
        ((ordinary_setPc _ _).trans' (ordinary_polyEvaluate hc))))

theorem execCallg_ordinary {a b : Specifier} {s t : State} (h : execCallg a b s = .next t) : ordinaryAnswer s t :=
  ordinaryAnswer_conclude h fun r hc => by
    obtain ⟨a, ha, hc⟩ := bind_eq_ok hc
    obtain ⟨b, hb, hc⟩ := bind_eq_ok hc
    obtain ⟨m, -, hc⟩ := bind_eq_ok hc
    exact (ordinary_operand ha).trans' ((ordinary_operand hb).trans' (ordinary_callProcedure hc))

theorem execCalls_ordinary {a b : Specifier} {s t : State} (h : execCalls a b s = .next t) : ordinaryAnswer s t :=
  ordinaryAnswer_conclude h fun r hc => by
    obtain ⟨a, ha, hc⟩ := bind_eq_ok hc
    obtain ⟨b, hb, hc⟩ := bind_eq_ok hc
    obtain ⟨m, -, hc⟩ := bind_eq_ok hc
    obtain ⟨u, hu, hc⟩ := bind_eq_ok hc
    exact (ordinary_operand ha).trans' ((ordinary_operand hb).trans' ((ordinary_push hu).trans'
      (ordinary_callProcedure hc)))

/-- Everything RET can answer as a completion. -/
theorem execRet_ordinary {s t : State} (h : execRet s = .next t) : ordinaryAnswer s t :=
  ordinaryAnswer_conclude h fun r hc => by
    obtain ⟨⟨st, s1⟩, h1, hc⟩ := bind_eq_ok hc
    dsimp only at hc
    split at hc
    · cases hc
    · obtain ⟨⟨ap, s2⟩, h2, hc⟩ := bind_eq_ok hc
      obtain ⟨⟨fp, s3⟩, h3, hc⟩ := bind_eq_ok hc
      obtain ⟨⟨pc, s4⟩, h4, hc⟩ := bind_eq_ok hc
      obtain ⟨s5, h5, hc⟩ := bind_eq_ok hc
      have o5 := (ordinary_setSp s _).trans' ((ordinary_pop h1).trans' ((ordinary_pop h2).trans' ((ordinary_pop h3).trans'
        ((ordinary_pop h4).trans' (ordinary_popRegisters h5)))))
      have fin : ∀ s7, ordinary s5 s7 → ordinary s5
          ((((s7.setReg fpReg fp).setReg apReg ap).setPsl (s7.psl.withPsw (st.setWidth 16))).setPc pc) := fun s7 o7 =>
        o7.trans' ((ordinary_setReg s7 fpReg fp).trans' ((ordinary_setReg _ apReg ap).trans' ⟨⟨rfl, rfl, rfl⟩, id, rfl⟩))
      split at hc
      · obtain ⟨s7, h7, hc⟩ := bind_eq_ok hc
        cases hc
        exact o5.trans' (fin s7 ((ordinary_setSp _ _).trans' (ordinary_removeArguments h7)))
      · cases hc
        exact o5.trans' (fin _ (ordinary_setSp _ _))

theorem execClass_ordinary {c : ClassOp} {n : Nat} {specs : List Specifier} {s t : State}
    (h : execClass c n specs s = .next t) : ordinaryAnswer s t := by
  simp only [execClass] at h
  split at h
  · cases h
  · refine ordinaryAnswer_conclude h fun r hc => ?_
    split at hc
    · cases hc
    · rename_i he
      have o1 := (evalOperands_ok he).ordinary'
      split at hc
      · cases hc
      · split at hc
        · exact o1.trans' ((ordinary_setPc _ _).trans' (ordinary_runStringClass hc))
        · exact o1.trans' ((ordinary_setPc _ _).trans' (ordinary_runScalarClass hc))
        · cases hc

/-- Everything REI can answer: it returns, or it raises an exception. -/
theorem execRei_next {s t : State} (h : execRei s = .next t) :
    returnFromException s = .ok (.done t) ∨ ordinaryAnswer s t := by
  rcases conclude_next h with ⟨st, -, hr⟩ | hd | ⟨e, s', hr, -⟩
  · exact .inr (ordinaryAnswer_raiseStop hr)
  · exact .inl hd
  · obtain ⟨_, _, _, _, _, _, _, hc⟩ := returnFromException_done hr
    cases hc

/-- What every instruction can answer. -/
theorem exec_next {i : Instr} {s t : State} (h : exec i s = .next t) :
    (i = .rei ∧ returnFromException s = .ok (.done t)) ∨ ordinaryAnswer s t := by
  cases i with
  | rei => exact (execRei_next h).imp (fun h => ⟨rfl, h⟩) id
  | reservedFFFF => exact .inr (execReservedFFFF_ordinary h)
  | xfc => exact .inr (execXfc_ordinary h)
  | nop => exact .inr (execNop_ordinary h)
  | bpt => exact .inr (execBpt_ordinary h)
  | ret => exact .inr (execRet_ordinary h)
  | index => exact .inr (execIndex_ordinary h)
  | polyf => exact .inr (polyInstruction_ordinary h)
  | polyd => exact .inr (polyInstruction_ordinary h)
  | polyg => exact .inr (polyInstruction_ordinary h)
  | polyh => exact .inr (polyInstruction_ordinary h)
  | bispsw => exact .inr (execBispsw_ordinary h)
  | chmk => exact .inr (changeMode_ordinary h)
  | chme => exact .inr (changeMode_ordinary h)
  | chms => exact .inr (changeMode_ordinary h)
  | chmu => exact .inr (changeMode_ordinary h)
  | addl2 => exact .inr (execAddl2_ordinary h)
  | divl2 => exact .inr (execDivl2_ordinary h)
  | callg => exact .inr (execCallg_ordinary h)
  | calls => exact .inr (execCalls_ordinary h)
  | bptCompat => exact .inr (execBptCompat_ordinary h)
  | iotCompat => exact .inr (execIotCompat_ordinary h)
  | emtCompat => exact .inr (execEmtCompat_ordinary (b := 0) h)
  | trapCompat => exact .inr (execTrapCompat_ordinary (b := 0) h)

end Sys2Proof.Machine
end

