-- ==== Sys2Proof/Laws/Call.lean ====
section
/-! SUPPORT. The pushes and pops of a procedure call and its return: the pushes of an instruction are those of a frame; the registers
of a mask are pushed as a list. -/

namespace Sys2Proof.Machine

open Sys2Proof

/-- Byte writes depend on the page table and memory alone. -/
theorem State.putAll_congr {s t s1 : State} {m : Mode} {l : List (Longword × Byte)} (ht : t.translation = s.translation)
    (hm : t.mem = s.mem) (h : s.putAll m l = .ok s1) : t.putAll m l = .ok { t with mem := s1.mem } := by
  induction l generalizing s t with
  | nil => cases h; simp only [State.putAll, ← hm]
  | cons c l ih =>
    obtain ⟨a, b⟩ := c
    simp only [State.putAll] at h ⊢
    rw [State.physical_congr ht]
    split at h
    · cases h
    · rename_i pa hpa
      exact ih (s := s.putByte pa b) (t := t.putByte pa b) ht (by simp [hm]) h

/-- The pushes of an instruction write the bytes of a frame and move the stack pointer. -/
theorem pushAll_putAll {vs : List Longword} {s s' : State} (h : pushAll vs s = .ok s') :
    ∃ s1, s.putAll s.psl.cur (frameCells vs s.sp) = .ok s1 ∧
      s' = { s1 with
        staleCode := s'.staleCode, sps := s.sps.set s.psl.stack (s.sp - BitVec.ofNat 32 (4 * vs.length)) } := by
  induction vs generalizing s with
  | nil =>
    simp only [pushAll, Except.ok.injEq] at h
    subst h
    refine ⟨s, rfl, ?_⟩
    simp [State.sp, StackPointers.set_get_self]
  | cons v vs ih =>
    simp only [pushAll] at h
    split at h
    · cases h
    · rename_i t ht
      obtain ⟨s1, h1, h2⟩ := ih h
      obtain ⟨et, -, -, -⟩ := State.push_spec ht
      have hpush : ∃ u, s.putAll s.psl.cur (cellsAt (leBytes 4 v.toNat) (s.sp - 4)) = .ok u ∧ u.mem = t.mem := by
        simp only [State.push, State.store] at ht
        split at ht
        · cases ht
        · rename_i x hx
          split at hx
          · cases hx
          · rename_i u hu
            cases hx
            cases ht
            exact ⟨u, by rw [← State.writeBytes_eq_putAll]; exact hu, rfl⟩
      obtain ⟨u, hu, hum⟩ := hpush
      have hue := (State.putAll_spec hu).1
      have hpsl : t.psl = s.psl := by rw [et]
      have hsp : t.sp = s.sp - 4 := by rw [et]; simp [State.sp]
      rw [hpsl, hsp] at h1
      have hc := State.putAll_congr (s := t) (t := u) (by rw [hue, et]) hum h1
      refine ⟨{ u with mem := s1.mem }, ?_, ?_⟩
      · rw [frameCells, State.putAll_append, hu]
        exact hc
      · have e1 : s1 = { t with mem := s1.mem } := (State.putAll_spec h1).1
        rw [h2, List.length_cons, sub_four_mul_succ, hpsl, hsp]
        rw [e1, hue, et]
        simp

theorem pushAll_ok_iff (vs : List Longword) (s : State) :
    (∃ s', pushAll vs s = .ok s') ↔
      s.canWrite s.psl.cur (s.sp - BitVec.ofNat 32 (4 * vs.length)) (4 * vs.length) := by
  have hframe : (∃ r, s.pushFrame s.psl.cur vs s.sp = .ok r) ↔
      ∀ c ∈ frameCells vs s.sp, ∃ pa, s.physical s.psl.cur .write c.1 = .ok pa := by
    rw [State.pushFrame_eq_putAll, ← State.putAll_ok_iff]
    cases s.putAll s.psl.cur (frameCells vs s.sp) <;> simp
  rw [← State.pushFrame_ok_iff, hframe]
  clear hframe
  induction vs generalizing s with
  | nil => simp [pushAll, frameCells]
  | cons v vs ih =>
    simp only [pushAll, frameCells, List.forall_mem_append]
    have hp := State.push_ok_iff s v
    have hc : s.canWrite s.psl.cur (s.sp - 4) 4 ↔
        ∀ c ∈ cellsAt (leBytes 4 v.toNat) (s.sp - 4), ∃ pa, s.physical s.psl.cur .write c.1 = .ok pa := by
      constructor
      · intro h c hc
        obtain ⟨i, hi, rfl⟩ := mem_cellsAt.1 hc
        exact h i (by simpa using hi)
      · intro h i hi
        exact h (_, (leBytes 4 v.toNat)[i]'(by simpa using hi)) (mem_cellsAt.2 ⟨i, by simpa using hi, rfl⟩)
    rw [← hc, ← hp]
    cases ht : s.push v with
    | error e => simp
    | ok t =>
      obtain ⟨et, -, -, -⟩ := State.push_spec ht
      have hpsl : t.psl = s.psl := by rw [et]
      have hsp : t.sp = s.sp - 4 := by rw [et]; simp [State.sp]
      have htr : t.translation = s.translation := by rw [et]
      have := ih t
      rw [hpsl, hsp, State.physical_congr htr] at this
      simp only [this, Except.ok.injEq, exists_eq', true_and]

/-- Everything the pushes of an instruction do. -/
theorem pushAll_spec {vs : List Longword} {s s' : State} (h : pushAll vs s = .ok s') :
    s' = { s with
      mem := s'.mem, staleCode := s'.staleCode
      sps := s.sps.set s.psl.stack (s.sp - BitVec.ofNat 32 (4 * vs.length)) } ∧ (s.wf → s'.wf) ∧
    memorySameOutside s.psl.cur (s.sp - BitVec.ofNat 32 (4 * vs.length)) (4 * vs.length) s s' ∧
    (s.wf → s.separate s.psl.cur (s.sp - BitVec.ofNat 32 (4 * vs.length)) (4 * vs.length) →
      memoryHolds s.psl.cur (s.sp - BitVec.ofNat 32 (4 * vs.length)) (frameBytes vs) s s') := by
  obtain ⟨s1, h1, h2⟩ := pushAll_putAll h
  have hf : s.pushFrame s.psl.cur vs s.sp = .ok (s.sp - BitVec.ofNat 32 (4 * vs.length), s1) := by
    rw [State.pushFrame_eq_putAll, h1]
  obtain ⟨-, e, w, o, c⟩ := State.pushFrame_spec hf
  have hmem : s'.mem = s1.mem := by rw [h2]
  refine ⟨by rw [h2, e], fun hw => ?_, fun pa hp => ?_, fun hw hs i hi pa hp => ?_⟩
  · have := w hw
    simpa [State.wf, hmem] using this
  · have := o pa hp
    simpa [State.physicalByte, hmem] using this
  · have := c hw hs i hi pa hp
    simpa [State.physicalByte, hmem] using this

/-- The registers an entry mask names below `n`, highest first: the order they are pushed in. -/
def pushedRegs (mask : Word) : Nat → List Reg
  | 0 => []
  | n + 1 => if mask.getLsbD n then Fin.ofNat 16 n :: pushedRegs mask n else pushedRegs mask n

theorem pushedRegs_eq (mask : Word) : pushedRegs mask 12 = (maskRegs mask).reverse := by
  have h : ∀ n, pushedRegs mask n = (((List.range n).filter fun i => mask.getLsbD i).map (Fin.ofNat 16)).reverse := by
    intro n
    induction n with
    | zero => rfl
    | succ n ih =>
      simp only [pushedRegs, ih, List.range_succ, List.filter_append, List.map_append, List.reverse_append]
      by_cases hb : mask.getLsbD n = true <;> simp [hb]
  exact h 12

/-- The registers of a mask are pushed as a list of their values. -/
theorem pushRegisters_eq (mask : Word) (n : Nat) (hn : n ≤ 12) (s : State) :
    pushRegisters mask n s = pushAll ((pushedRegs mask n).map s.getReg) s := by
  induction n generalizing s with
  | zero => rfl
  | succ n ih =>
    simp only [pushRegisters, pushedRegs]
    split
    · simp only [List.map_cons, pushAll]
      cases ht : s.push (s.getReg (Fin.ofNat 16 n)) with
      | error e => rfl
      | ok t =>
        simp only [ih (by omega)]
        congr 1
        obtain ⟨et, -, -, -⟩ := State.push_spec ht
        have hr : t.regs = s.regs := by rw [et]
        have : ∀ k, k ≤ 12 → (pushedRegs mask k).map t.getReg = (pushedRegs mask k).map s.getReg := by
          intro k hk
          induction k with
          | zero => rfl
          | succ k ihk =>
            simp only [pushedRegs]
            split
            · simp only [List.map_cons, ihk (by omega)]
              congr 1
              have hk14 : (Fin.ofNat 16 k).val < 14 := by
                simp only [Fin.ofNat]
                omega
              simp only [State.getReg, dif_pos hk14, hr]
            · exact ihk (by omega)
        exact this n (by omega)
    · exact ih (by omega) s

theorem pushAll_append (vs ws : List Longword) (s : State) :
    pushAll (vs ++ ws) s = match pushAll vs s with | .error e => .error e | .ok t => pushAll ws t := by
  induction vs generalizing s with
  | nil => rfl
  | cons v vs ih =>
    simp only [List.cons_append, pushAll]
    split
    · rfl
    · exact ih _

/-- A pop reads the longword at the stack pointer. -/
theorem State.pop_of_readLong {s : State} {v : Longword} (h : s.readLong s.sp = .ok v) :
    s.pop = .ok (v, s.setSp (s.sp + 4)) := by
  simp only [State.pop, h]

end Sys2Proof.Machine
end

