-- ==== Sys2Proof/Laws/Decode.lean ====
section
/-! SUPPORT. The pieces of the encoding: a specifier byte's fields, extensions read back, the opcode map looked up. -/

namespace Sys2Proof

@[simp] theorem specReg_specByte (m : BitVec 4) (r : Reg) : specReg (specByte m r) = r := by
  revert m r
  decide +kernel

@[simp] theorem specMode_specByte (m : BitVec 4) (r : Reg) : specMode (specByte m r) = m.toNat := by
  revert m r
  decide +kernel

theorem specMode_literal (v : BitVec 6) : specMode (v.setWidth 8) < 4 := by
  revert v
  decide +kernel

theorem extract_literal (v : BitVec 6) : (v.setWidth 8).extractLsb' 0 6 = v := by
  revert v
  decide +kernel

theorem specByte_fields (b : Byte) : specByte (b.extractLsb' 4 4) (specReg b) = b := by
  revert b
  decide +kernel

@[simp] theorem takeBytes_append (n : Nat) (ext rest : List Byte) (h : ext.length = n) :
    takeBytes n (ext ++ rest) = some (ext, rest) := by
  subst h
  simp [takeBytes]

theorem takeBytes_some {n : Nat} {bs ext rest : List Byte} (h : takeBytes n bs = some (ext, rest)) :
    ext.length = n ∧ bs = ext ++ rest := by
  simp only [takeBytes] at h
  split at h
  · cases h
  · cases h
    exact ⟨by simp; omega, (List.take_append_drop n bs).symm⟩

/-- An extension that is written is read back. -/
theorem decodeExtension_append (n : Nat) (ext rest : List Byte) (mk : List Byte → BaseSpec) (h : ext.length = n) :
    decodeExtension n (ext ++ rest) mk = some (mk ext, rest) := by
  simp [decodeExtension, h]

theorem decodeExtension_some {n : Nat} {bs rest : List Byte} {mk : List Byte → BaseSpec} {b : BaseSpec}
    (h : decodeExtension n bs mk = some (b, rest)) : ∃ ext, ext.length = n ∧ bs = ext ++ rest ∧ b = mk ext := by
  simp only [decodeExtension] at h
  split at h
  · rename_i ht
    cases h
    obtain ⟨h1, h2⟩ := takeBytes_some ht
    exact ⟨_, h1, h2, rfl⟩
  · cases h

/-- A byte stored as one byte reads back. -/
theorem ofNat_leBytes_one (d : Byte) : BitVec.ofNat 8 (leNat (leBytes 1 d.toNat)) = d := by
  revert d
  decide +kernel

@[simp] theorem BaseSpec.encode_length (t : OpType) (b : BaseSpec) : (encodeBase t b).length = b.length t := by
  cases b <;> simp [encodeBase, BaseSpec.length, Nat.add_comm]

@[simp] theorem Specifier.encode_length (t : OpType) (sp : Specifier) : (encodeSpec t sp).length = sp.length t := by
  cases sp <;> simp [encodeSpec, Specifier.length, Nat.add_comm]

/-! The opcode map. -/

/-- The row of an opcode's number is that opcode's (30_encoding.md R83: no two rows share a number). -/
theorem rowOfCode_code (o : Opcode) : rowOfCode o.code = some ⟨o.code, o, o.operands⟩ := by
  cases o <;> decide +kernel

theorem rowOfCode_some {c : Word} {r : OpcodeRow} (h : rowOfCode c = some r) :
    r.code = c ∧ c = r.op.code ∧ r.operands = r.op.operands := by
  have hm := List.mem_of_find?_eq_some h
  have hc : r.code = c := by simpa using List.find?_some h
  refine ⟨hc, ?_⟩
  subst hc
  revert r
  decide +kernel

/-- What `build` makes of an opcode and specifiers is the instruction with them. -/
theorem Opcode.build_some {o : Opcode} {l : List Specifier} {i : Instr} (h : o.build l = some i) : i.native = some (o, l) := by
  unfold Opcode.build at h
  split at h <;> cases h <;> rfl

theorem Opcode.build_native {i : Instr} {o : Opcode} {l : List Specifier} (h : i.native = some (o, l)) :
    o.build l = some i := by
  cases i <;> cases h <;> rfl

/-- A well-formed list of specifiers has one for each operand. -/
theorem wfSpecs_length {ks : List OperandKind} {sps : List Specifier} (h : wfSpecs ks sps = true) :
    sps.length = ks.length := by
  induction ks generalizing sps with
  | nil => cases sps <;> simp [wfSpecs] at *
  | cons k ks ih =>
    cases sps with
    | nil => simp [wfSpecs] at h
    | cons sp sps =>
      simp only [wfSpecs, Bool.and_eq_true] at h
      simp [ih h.2]

end Sys2Proof
end

