-- ==== Sys2Proof/Laws/PerInstr.lean ====
section
/-! SUPPORT. Statements for all instructions, one lemma per constructor. -/

namespace Sys2Proof

theorem Specifier.length_le (t : OpType) (sp : Specifier) : sp.length t ≤ 18 := by
  have ht : t.size ≤ 16 := by cases t <;> decide
  cases sp with
  | plain b => cases b <;> simp [Specifier.length, BaseSpec.length]; omega
  | indexed x b => cases b <;> simp [Specifier.length, BaseSpec.length]; omega
  | indexedTwice x y => simp [Specifier.length]

theorem encodeSpecs_length_le (ks : List OperandKind) (sps : List Specifier) :
    (encodeSpecs ks sps).length ≤ 18 * ks.length := by
  induction ks generalizing sps with
  | nil => simp [encodeSpecs]
  | cons k ks ih =>
    cases sps with
    | nil => simp [encodeSpecs]
    | cons sp sps =>
      have h1 := Specifier.length_le k.type sp
      have h2 := ih sps
      simp only [encodeSpecs, List.length_append, Specifier.encode_length, List.length_cons]
      omega

namespace Laws.FitsFetch

/-- An instruction is at least a byte long and no longer than the step reads of the instruction stream (log 42). -/
def Statement (i : Instr) : Prop := 1 ≤ i.length ∧ i.length ≤ fetchSpan

theorem of_native {i : Instr} {o : Opcode} {l : List Specifier} (h : i.native = some (o, l)) : Statement i := by
  have h1 : 1 ≤ o.bytes.length ∧ o.bytes.length ≤ 2 := by cases o <;> decide +kernel
  have h2 : o.operands.length ≤ 6 := by cases o <;> decide +kernel
  have h3 := encodeSpecs_length_le o.operands l
  simp only [Statement, Instr.length, encode, h, List.length_append, fetchSpan]
  omega

theorem reservedFFFF : Statement .reservedFFFF := of_native rfl
theorem xfc : Statement .xfc := of_native rfl
theorem nop : Statement .nop := of_native rfl
theorem rei : Statement .rei := of_native rfl
theorem bpt : Statement .bpt := of_native rfl
theorem ret : Statement .ret := of_native rfl
theorem index (a b c d e f : Specifier) : Statement (.index a b c d e f) := of_native rfl
theorem polyf (a b c : Specifier) : Statement (.polyf a b c) := of_native rfl
theorem polyd (a b c : Specifier) : Statement (.polyd a b c) := of_native rfl
theorem polyg (a b c : Specifier) : Statement (.polyg a b c) := of_native rfl
theorem polyh (a b c : Specifier) : Statement (.polyh a b c) := of_native rfl
theorem bispsw (a : Specifier) : Statement (.bispsw a) := of_native rfl
theorem chmk (a : Specifier) : Statement (.chmk a) := of_native rfl
theorem chme (a : Specifier) : Statement (.chme a) := of_native rfl
theorem chms (a : Specifier) : Statement (.chms a) := of_native rfl
theorem chmu (a : Specifier) : Statement (.chmu a) := of_native rfl
theorem addl2 (a b : Specifier) : Statement (.addl2 a b) := of_native rfl
theorem divl2 (a b : Specifier) : Statement (.divl2 a b) := of_native rfl
theorem callg (a b : Specifier) : Statement (.callg a b) := of_native rfl
theorem calls (a b : Specifier) : Statement (.calls a b) := of_native rfl
theorem bptCompat : Statement .bptCompat := ⟨by decide, by decide⟩
theorem iotCompat : Statement .iotCompat := ⟨by decide, by decide⟩
theorem emtCompat (c : Byte) : Statement (.emtCompat c) := by
  simp only [Statement, Instr.length, encode, Instr.native, leBytes_length, fetchSpan]
  omega
theorem trapCompat (c : Byte) : Statement (.trapCompat c) := by
  simp only [Statement, Instr.length, encode, Instr.native, leBytes_length, fetchSpan]
  omega

end Laws.FitsFetch

end Sys2Proof
end

