-- ==== Sys2Proof/Laws/Step.lean ====
section
/-! SUPPORT. What a step can do, said once: it runs a decoded instruction, or takes an exception, or runs an instruction of a
configured class. -/

namespace Sys2Proof.Machine

open Sys2Proof

/-- A state that differs from `s` in nothing a whole-machine rule looks at: setting, form of memory, mode, stack. -/
structure sameMachine (s u : State) : Prop where
  setting : sameSetting s u
  wf : s.wf → u.wf
  cur : u.psl.cur = s.psl.cur
  is : u.psl.is = s.psl.is

theorem sameMachine.refl' (s : State) : sameMachine s s := ⟨⟨rfl, rfl, rfl⟩, id, rfl, rfl⟩

theorem sameMachine_begun (s : State) : sameMachine s s.sampleTrace.afterFetch := ⟨⟨rfl, rfl, rfl⟩, id, rfl, rfl⟩

/-- Where an instruction of the table runs: no trace was owed, T has been sampled, the fetched bytes decode to it. -/
theorem beginStep_run {s u : State} {i : Instr} (h : beginStep s = .run i u) :
    s.psl.tp = false ∧ s.sampleTrace.oddFetch = false ∧ u = s.sampleTrace.afterFetch ∧
      ∃ rest, decode s.psl.cm s.sampleTrace.fetchWindow.1 = .instr i rest := by
  simp only [beginStep] at h
  split at h
  · cases h
  · rename_i htp
    simp only [fetchInstruction] at h
    split at h
    · cases h
    · rename_i hodd
      split at h
      · rename_i hd
        cases h
        exact ⟨by simpa using htp, by simpa using hodd, rfl, _, hd⟩
      · cases h
      · cases h
      · cases h

/-- A step that ends before an instruction of the table runs. -/
theorem beginStep_ended {s t : State} (h : beginStep s = .ended (.next t)) :
    ∃ u, sameMachine s u ∧ ordinaryAnswer u t := by
  simp only [beginStep] at h
  split at h
  · simp only [Begun.ended.injEq, traceOwed] at h
    have tr : ∀ v, sameMachine s v → raiseTrace v = .next t → ∃ u, sameMachine s u ∧ ordinaryAnswer u t := fun v hv hr =>
      ⟨v.setPsl { v.psl with tp := false }, ⟨hv.1, hv.2, hv.3, hv.4⟩,
        .inr ⟨_, _, _, _, ordinary.refl' _, rfl, rfl, hr⟩⟩
    split at h
    · exact tr (s.advanceDraws traceDraws) ⟨⟨rfl, rfl, rfl⟩, id, rfl, rfl⟩ h
    · split at h
      · exact ⟨s.advanceDraws traceDraws, ⟨⟨rfl, rfl, rfl⟩, id, rfl, rfl⟩, .inr ⟨_, _, _, _, ordinary.refl' _, rfl, rfl, h⟩⟩
      · exact tr (s.advanceDraws traceDraws) ⟨⟨rfl, rfl, rfl⟩, id, rfl, rfl⟩ h
  · simp only [fetchInstruction] at h
    split at h
    · simp only [Begun.ended.injEq] at h
      exact ⟨s.sampleTrace, ⟨⟨rfl, rfl, rfl⟩, id, rfl, rfl⟩, ordinaryAnswer_raiseStop (st := .fault _) h⟩
    · split at h
      · cases h
      · simp only [Begun.ended.injEq, cutShort] at h
        refine ⟨_, sameMachine_begun s, ?_⟩
        split at h <;> exact ordinaryAnswer_raiseStop h
      · simp only [Begun.ended.injEq, otherOpcode] at h
        refine ⟨_, sameMachine_begun s, ?_⟩
        split at h
        · simp only [emulate] at h
          split at h
          · exact ordinaryAnswer_raiseStop (st := .fault _) h
          · exact .inr ⟨_, _, _, _, ordinary_advanceDraws _ 1, rfl, rfl, h⟩
        · split at h
          · cases h
          · split at h
            · exact execClass_ordinary h
            · simp only [cutShort] at h
              split at h <;> exact ordinaryAnswer_raiseStop h
      · cases h

/-- Everything a step can answer as a next state. -/
theorem step_next {s t : State} (h : step s = .next t) :
    ∃ u, sameMachine s u ∧
      ((beginStep s = .run .rei u ∧ returnFromException u = .ok (.done t)) ∨ ordinaryAnswer u t) := by
  simp only [step] at h
  split at h
  · rename_i a ha
    subst h
    obtain ⟨u, h1, h2⟩ := beginStep_ended ha
    exact ⟨u, h1, .inr h2⟩
  · rename_i i u hi
    obtain ⟨-, -, rfl, -⟩ := beginStep_run hi
    rcases exec_next h with ⟨rfl, hr⟩ | ho
    · exact ⟨_, sameMachine_begun s, .inl ⟨hi, hr⟩⟩
    · exact ⟨_, sameMachine_begun s, .inr ho⟩

end Sys2Proof.Machine
end

