-- ==== Sys2Proof/Tests/Slice0.lean ====
section
/-! SUPPORT. Tests. Expected results are those of 95_test_vectors.md and of the rules named, or computed from them by hand;
the conventions are that file's: SCBB 0x10000, kernel stack pointer 0x20000, user stack pointer 0x7FFF0000, user PSL
0x03C00000. -/

namespace Sys2Proof.Tests

open Sys2Proof Sys2Proof.Machine

/-! ## Well-formedness: each check refuses an ill-formed term -/

/-- Register 15 in mode 8 is the immediate mode, in mode 9 the absolute mode (R75). -/
theorem test_wf_refuses_autoincrement_pc : Instr.wf (.bispsw (.plain (.autoincrement 15))) = false := by decide
theorem test_wf_refuses_autoincrement_deferred_pc :
    Instr.wf (.bispsw (.indexed 1 (.autoincrementDeferred 15))) = false := by decide

/-- An immediate value wider than its operand. -/
theorem test_wf_refuses_wide_immediate :
    Instr.wf (.bispsw (.plain (.immediate 0x10000))) = false ∧ Instr.wf (.bispsw (.plain (.immediate 0xFFFF))) = true := by
  decide

/-- Too few or too many specifiers for an opcode's operands. -/
theorem test_wf_refuses_specifier_count :
    wfSpecs Opcode.addl2.operands [.plain (.register 0)] = false ∧
    wfSpecs Opcode.nop.operands [.plain (.register 0)] = false := by decide

/-! ## Decoding: words written out from R75, R81 and R83 -/

/-- The opcodes without operands: FF FF, FC, 01, 02, 03, 04. -/
theorem test_decode_no_operands :
    decode false [0xFF, 0xFF] = .instr .reservedFFFF [] ∧ decode false [0xFC] = .instr .xfc [] ∧
    decode false [0x01] = .instr .nop [] ∧ decode false [0x02] = .instr .rei [] ∧
    decode false [0x03] = .instr .bpt [] ∧ decode false [0x04] = .instr .ret [] := by decide

/-- INDEX #11, #1, #10, #4, #0, R2: 0A 0B 01 0A 04 00 52 (95_test_vectors.md 2.5). -/
theorem test_decode_index :
    decode false [0x0A, 0x0B, 0x01, 0x0A, 0x04, 0x00, 0x52] =
      .instr (.index (.plain (.literal 11)) (.plain (.literal 1)) (.plain (.literal 10)) (.plain (.literal 4))
        (.plain (.literal 0)) (.plain (.register 2))) [] := by decide

/-- POLYx R0, #1, (R1): opcodes 55, 75, FD 55, FD 75 (R83). -/
theorem test_decode_poly :
    decode false [0x55, 0x50, 0x01, 0x61] =
      .instr (.polyf (.plain (.register 0)) (.plain (.literal 1)) (.plain (.deferred 1))) [] ∧
    decode false [0x75, 0x50, 0x01, 0x61] =
      .instr (.polyd (.plain (.register 0)) (.plain (.literal 1)) (.plain (.deferred 1))) [] ∧
    decode false [0xFD, 0x55, 0x50, 0x01, 0x61] =
      .instr (.polyg (.plain (.register 0)) (.plain (.literal 1)) (.plain (.deferred 1))) [] ∧
    decode false [0xFD, 0x75, 0x50, 0x01, 0x61] =
      .instr (.polyh (.plain (.register 0)) (.plain (.literal 1)) (.plain (.deferred 1))) [] := by decide

/-- BISPSW #16 and the four CHMx: B8, BC to BF (2.8, 2.9). -/
theorem test_decode_word_operand :
    decode false [0xB8, 0x10] = .instr (.bispsw (.plain (.literal 16))) [] ∧
    decode false [0xBC, 0x03] = .instr (.chmk (.plain (.literal 3))) [] ∧
    decode false [0xBD, 0x50] = .instr (.chme (.plain (.register 0))) [] ∧
    decode false [0xBE, 0x02] = .instr (.chms (.plain (.literal 2))) [] ∧
    decode false [0xBF, 0x02] = .instr (.chmu (.plain (.literal 2))) [] := by decide

/-- ADDL2, DIVL2, CALLG, CALLS: C0, C6, FA, FB (2.1, 2.2, R220, R221). -/
theorem test_decode_two_operands :
    decode false [0xC0, 0x50, 0x51] = .instr (.addl2 (.plain (.register 0)) (.plain (.register 1))) [] ∧
    decode false [0xC6, 0x00, 0x51] = .instr (.divl2 (.plain (.literal 0)) (.plain (.register 1))) [] ∧
    decode false [0xFA, 0x61, 0x62] = .instr (.callg (.plain (.deferred 1)) (.plain (.deferred 2))) [] ∧
    decode false [0xFB, 0x00, 0x62] = .instr (.calls (.plain (.literal 0)) (.plain (.deferred 2))) [] := by decide

/-- The compatibility-mode words 0x0003, 0x0004, 0x88nn, 0x89nn, low byte first (2.8). -/
theorem test_decode_compat :
    decode true [0x03, 0x00] = .instr .bptCompat [] ∧ decode true [0x04, 0x00] = .instr .iotCompat [] ∧
    decode true [0x05, 0x88] = .instr (.emtCompat 5) [] ∧ decode true [0xFF, 0x89] = .instr (.trapCompat 0xFF) [] ∧
    decode true [0x05, 0x00] = .unknownCompatWord 0x0005 := by decide

/-- R75's modes, register 2: 52, 62, 72, 82, 92, then the displacements A2 to F2. -/
theorem test_decode_modes :
    [[0x52], [0x62], [0x72], [0x82], [0x92], [0xA2, 0xFE], [0xB2, 0x01], [0xC2, 0x34, 0x12], [0xD2, 0x34, 0x12],
      [0xE2, 0x78, 0x56, 0x34, 0x12], [0xF2, 0x78, 0x56, 0x34, 0x12]].map (decodeSpec .long) =
    [.register 2, .deferred 2, .autodecrement 2, .autoincrement 2, .autoincrementDeferred 2, .byteDisp 2 0xFE,
      .byteDispDeferred 2 1, .wordDisp 2 0x1234, .wordDispDeferred 2 0x1234, .longDisp 2 0x12345678,
      .longDispDeferred 2 0x12345678].map fun b => some (.plain b, []) := by decide

/-- Register 15: 8F immediate, 9F absolute; the literals 00 to 3F; the index byte 43 before 62 and before 45. -/
theorem test_decode_pc_modes :
    decodeSpec .word [0x8F, 0x34, 0x12, 0x99] = some (.plain (.immediate 0x1234), [0x99]) ∧
    decodeSpec .word [0x9F, 0x78, 0x56, 0x34, 0x12] = some (.plain (.absolute 0x12345678), []) ∧
    decodeSpec .long [0x3F] = some (.plain (.literal 63), []) ∧
    decodeSpec .long [0x43, 0x62] = some (.indexed 3 (.deferred 2), []) ∧
    decodeSpec .long [0x43, 0x45] = some (.indexedTwice 3 5, []) := by decide

/-- An opcode of no row is named, not guessed to be reserved (R79). -/
theorem test_decode_unknown : decode false [0xD0, 0x50, 0x51] = .unknownOpcode 0x00D0 1 [0x50, 0x51] ∧
    decode false [0xFD, 0x00] = .unknownOpcode 0x00FD 2 [] := by decide

/-! ## One step -/

/-- A machine with code at its PC and one vector in its SCB. -/
def machine (psl pc : Longword) (code : List Byte) (vector : Nat × Longword) : State :=
  { State.reset with
    psl := Psl.unpack psl, pc := pc, scbb := 0x10000, sps := ⟨0x20000, 0, 0, 0x7FFF0000, 0x30000⟩ }
    |>.placeBytes code pc
    |>.placeBytes (leBytes 4 vector.2.toNat) (addrAdd 0x10000 vector.1)

/-- A user-mode machine: every PSL field but the modes clear, unless `bits` sets it. -/
def user (bits : Longword) (pc : Longword) (code : List Byte) (vector : Nat × Longword := (0x34, 0x8000)) : State :=
  machine (0x03C00000 ||| bits) pc code vector

/-- The answer is a next state with a property. -/
def leadsTo (a : Answer) (f : State → Bool) : Bool :=
  match a with
  | .next t => f t
  | _ => false

/-- The longwords of physical memory from `a` up. -/
def longsAt (s : State) (a : Longword) (n : Nat) : List Longword :=
  (List.range n).map fun i => s.physicalLong (addrAdd a (4 * i))

/-- P1: the integer overflow trap of `C0 50 51`. -/
theorem test_addl2_overflow_trap :
    leadsTo (step ((user 0x20 0x1000 [0xC0, 0x50, 0x51]).setReg 0 1 |>.setReg 1 0x7FFFFFFF)) (fun t =>
      t.pc == 0x8000 && t.psl.pack == 0x00C00000 && t.sps == ⟨0x1FFF4, 0, 0, 0x7FFF0000, 0x30000⟩ &&
      t.getReg 1 == 0x80000000 && longsAt t 0x1FFF4 3 == [1, 0x1003, 0x03C0002A]) = true := by decide

/-- 2.1: the same addition with IV clear; a carry without overflow. -/
theorem test_addl2_codes :
    leadsTo (step ((user 0 0x1000 [0xC0, 0x50, 0x51]).setReg 0 1 |>.setReg 1 0x7FFFFFFF)) (fun t =>
      t.pc == 0x1003 && t.psl.pack == 0x03C0000A) = true ∧
    leadsTo (step ((user 0x20 0x1000 [0xC0, 0x50, 0x51]).setReg 0 1 |>.setReg 1 0xFFFFFFFF)) (fun t =>
      t.getReg 1 == 0 && t.psl.pack == 0x03C00025) = true := by decide

/-- P2, step 1: `C6 00 51`, division by zero keeps the dividend and traps with code 2. -/
theorem test_divl2_by_zero :
    leadsTo (step ((user 0 0x1000 [0xC6, 0x00, 0x51]).setReg 1 7)) (fun t =>
      t.pc == 0x8000 && t.getReg 1 == 7 && longsAt t 0x1FFF4 3 == [2, 0x1003, 0x03C00002]) = true := by decide

/-- 2.2: `C6 02 51` on -7 gives -3; the most negative longword by -1 overflows. -/
theorem test_divl2_rounds_to_zero :
    leadsTo (step ((user 0 0x1000 [0xC6, 0x02, 0x51]).setReg 1 0xFFFFFFF9)) (fun t =>
      t.getReg 1 == 0xFFFFFFFD && t.psl.pack == 0x03C00008) = true ∧
    leadsTo (step ((user 0 0x1000 [0xC6, 0x50, 0x51]).setReg 0 0xFFFFFFFF |>.setReg 1 0x80000000)) (fun t =>
      t.getReg 1 == 0x80000000 && t.psl.pack == 0x03C0000A) = true := by decide

/-- P2, step 2: REI at 0x8000 pops 0x1003 and 0x03C00002 from 0x1FFF8. -/
theorem test_rei_returns :
    leadsTo (step { (machine 0x00C00000 0x8000 [0x02] (0x34, 0)).placeBytes
        [0x03, 0x10, 0, 0, 0x02, 0, 0xC0, 0x03] 0x1FFF8 with sps := ⟨0x1FFF8, 0, 0, 0x7FFF0000, 0⟩ })
      (fun t => t.pc == 0x1003 && t.psl.pack == 0x03C00002 && t.sps.kernel == 0x20000 && t.sp == 0x7FFF0000) = true := by
  decide

/-- 2.9: REI with T set as it begins makes TP set, whatever it pops (R214). -/
theorem test_rei_keeps_trace_owed :
    leadsTo (step ({ (machine 0x00C00010 0x8000 [0x02] (0x34, 0)).placeBytes
        [0x03, 0x10, 0, 0, 0x00, 0, 0xC0, 0x03] 0x1FFF8 with sps := ⟨0x1FFF8, 0, 0, 0x7FFF0000, 0⟩ }))
      (fun t => t.pc == 0x1003 && t.psl.pack == 0x43C00000) = true := by decide

/-- 2.5: subscript 11 of 1 to 10 stores 44 and traps with code 7; 10 stores 40 and does not. -/
theorem test_index_range :
    leadsTo (step (user 0 0x1000 [0x0A, 0x0B, 0x01, 0x0A, 0x04, 0x00, 0x52])) (fun t =>
      t.pc == 0x8000 && t.getReg 2 == 44 && longsAt t 0x1FFF4 3 == [7, 0x1007, 0x03C00000]) = true ∧
    leadsTo (step (user 0 0x1000 [0x0A, 0x0A, 0x01, 0x0A, 0x04, 0x00, 0x52])) (fun t =>
      t.pc == 0x1007 && t.getReg 2 == 40 && t.psl.pack == 0x03C00000) = true := by decide

/-- 2.5: `(4 + 2) ...` adds indexin before the product; the comparison is signed. -/
theorem test_index_computes :
    leadsTo (step (user 0 0x1000 [0x0A, 0x05, 0x01, 0x0A, 0x04, 0x02, 0x52])) (fun t => t.getReg 2 == 28) = true ∧
    leadsTo (step ((user 0 0x1000 [0x0A, 0x50, 0x01, 0x0A, 0x04, 0x00, 0x52]).setReg 0 0xFFFFFFFF)) (fun t =>
      t.getReg 2 == 0xFFFFFFFC && longsAt t 0x1FFF4 3 == [7, 0x1007, 0x03C00008]) = true := by decide

/-- 2.8: FF FF in user mode, and in kernel mode. -/
theorem test_reservedFFFF :
    leadsTo (step (user 0 0x1000 [0xFF, 0xFF] (0x10, 0xC000))) (fun t =>
      t.pc == 0xC000 && t.psl.pack == 0x00C00000 && longsAt t 0x1FFF8 2 == [0x1000, 0x03C00000]) = true ∧
    leadsTo (step (machine 0 0x1000 [0xFF, 0xFF] (0x10, 0xC000))) (fun t =>
      t.pc == 0xC000 && longsAt t 0x1FFF8 2 == [0x1000, 0]) = true := by decide

/-- 2.8: FC 07; the byte 07 is not looked at. -/
theorem test_xfc :
    leadsTo (step (user 0 0x2000 [0xFC, 0x07] (0x14, 0xC100))) (fun t =>
      t.pc == 0xC100 && longsAt t 0x1FFF8 2 == [0x2000, 0x03C00000]) = true := by decide

/-- P4: CHMK #3 with T set saves T and TP both set; 2.8: the operand is sign-extended. -/
theorem test_chmk :
    leadsTo (step (user 0x10 0x3000 [0xBC, 0x03] (0x40, 0xA000))) (fun t =>
      t.pc == 0xA000 && t.psl.pack == 0x00C00000 && longsAt t 0x1FFF4 3 == [3, 0x3002, 0x43C00010]) = true ∧
    leadsTo (step ((user 0 0x3000 [0xBC, 0x50] (0x40, 0xA000)).setReg 0 0x0000FFFF)) (fun t =>
      longsAt t 0x1FFF4 1 == [0xFFFFFFFF]) = true := by decide

/-- 2.8: CHMU #2 from user mode stays on the user stack. -/
theorem test_chmu :
    leadsTo (step (user 0 0x3000 [0xBF, 0x02] (0x4C, 0xA000))) (fun t =>
      t.pc == 0xA000 && t.psl.pack == 0x03C00000 && longsAt t 0x7FFEFFF4 3 == [2, 0x3002, 0x03C00000]) = true := by decide

/-- CHME and CHMS from user mode enter executive and supervisor mode on their stacks (R176, R177). -/
theorem test_chme_chms :
    leadsTo (step { user 0 0x3000 [0xBD, 0x01] (0x44, 0xA000) with sps := ⟨0x20000, 0x21000, 0x22000, 0, 0⟩ }) (fun t =>
      t.psl.pack == 0x01C00000 && t.sp == 0x20FF4) = true ∧
    leadsTo (step { user 0 0x3000 [0xBE, 0x01] (0x48, 0xA000) with sps := ⟨0x20000, 0x21000, 0x22000, 0, 0⟩ }) (fun t =>
      t.psl.pack == 0x02C00000 && t.sp == 0x21FF4) = true := by decide

/-- 2.8: BPT, with T set: saved T 1, saved TP 0. -/
theorem test_bpt :
    leadsTo (step (user 0x10 0x4000 [0x03] (0x2C, 0xB000))) (fun t =>
      t.pc == 0xB000 && t.psl.pack == 0x00C00000 && longsAt t 0x1FFF8 2 == [0x4000, 0x03C00010]) = true := by decide

/-- 2.9: a NOP with T set ends with TP set; P6, step 1: with TP set the trace fault comes first. -/
theorem test_nop_trace :
    leadsTo (step (user 0x10 0x2002 [0x01])) (fun t => t.pc == 0x2003 && t.psl.pack == 0x43C00010) = true ∧
    leadsTo (step (user 0x40000010 0x5000 [0xFF, 0xFF] (0x28, 0x9000))) (fun t =>
      t.pc == 0x9000 && t.psl.pack == 0x00C00000 && longsAt t 0x1FFF8 2 == [0x5000, 0x03C00010]) = true := by decide

/-- P3, step 1: BISPSW #16 sets T and leaves TP clear; 2.7: mask bit 8 raises the reserved operand fault. -/
theorem test_bispsw :
    leadsTo (step (user 0 0x2000 [0xB8, 0x10])) (fun t => t.pc == 0x2002 && t.psl.pack == 0x03C00010) = true ∧
    leadsTo (step ((user 0 0x2000 [0xB8, 0x50] (0x18, 0xC300)).setReg 0 0x0100)) (fun t =>
      t.pc == 0xC300 && longsAt t 0x1FFF8 2 == [0x2000, 0x03C00000]) = true := by decide

/-- 2.7: `C0 50 01` writes to a literal, `55 50 01 51` takes a register's address: reserved addressing mode. -/
theorem test_reserved_addressing :
    leadsTo (step (user 0 0x1000 [0xC0, 0x50, 0x01] (0x1C, 0xC200))) (fun t =>
      t.pc == 0xC200 && longsAt t 0x1FFF8 2 == [0x1000, 0x03C00000]) = true ∧
    leadsTo (step ((user 0 0x1000 [0x55, 0x50, 0x01, 0x51] (0x1C, 0xC200)).setReg 0 0x4080)) (fun t =>
      t.pc == 0xC200) = true := by decide

/-- 2.6: POLYx whose argument is a reserved operand: FPD of the saved PSL is clear. -/
theorem test_poly_reserved_argument :
    [[0x55, 0x50, 0x01, 0x61], [0x75, 0x50, 0x01, 0x61], [0xFD, 0x55, 0x50, 0x01, 0x61],
      [0xFD, 0x75, 0x50, 0x01, 0x61]].all (fun code =>
        leadsTo (step ((user 0 0x1000 code (0x18, 0xC300)).setReg 0 0x8000)) fun t =>
          t.pc == 0xC300 && longsAt t 0x1FFF8 2 == [0x1000, 0x03C00000]) = true := by decide

/-- R115: POLYF of degree 0 stores its one coefficient in R0 and leaves its argument's table alone. -/
theorem test_polyf_degree_zero :
    leadsTo (step ((user 0 0x1000 [0x55, 0x02, 0x00, 0x61]).placeBytes [0x80, 0x40, 0x34, 0x12] 0x5000 |>.setReg 1 0x5000))
      (fun t => t.pc == 0x1004 && t.getReg 0 == 0x12344080) = true := by decide

/-- 2.7: a page not valid for writing faults an ADDL2's destination (MM_PARAMS empty, log 20); registers are unchanged, the
saved PC is the opcode's. -/
theorem test_memory_fault :
    leadsTo (step (let s := (user 0 0x1000 [0xC0, 0x50, 0x61] (0x24, 0xE100)).setReg 1 0x6000
      { s with
        translation := .regions [⟨0x6000, 0x61FF, [.user], [.user], false, 0⟩]
        config := { s.config with mmParams := .nothing } })) (fun t =>
      t.pc == 0xE100 && t.getReg 1 == 0x6000 && longsAt t 0x1FFF8 2 == [0x1000, 0x03C00000]) = true := by decide

/-- 2.8: the compatibility-mode instructions and the odd address abort. -/
theorem test_compat :
    [([0x03, 0x00], 1), ([0x04, 0x00], 2), ([0x05, 0x88], 3), ([0xFF, 0x88], 3), ([0x00, 0x89], 4)].all (fun x =>
      leadsTo (step (user 0x80000000 0x200 x.1 (0x30, 0xD000))) fun t =>
        t.pc == 0xD000 && t.psl.pack == 0x00C00000 && longsAt t 0x1FFF4 3 == [x.2, 0x200, 0x83C00000]) = true ∧
    leadsTo (step (user 0x80000000 0x1001 [] (0x30, 0xD000))) (fun t =>
      longsAt t 0x1FFF4 3 == [6, 0x1001, 0x83C00000]) = true := by decide

/-- P7: a vector with bits 1:0 = 1 selects the interrupt stack. -/
theorem test_interrupt_stack :
    leadsTo (step (user 0x80000000 0x200 [0x05, 0x88] (0x30, 0xD001))) (fun t =>
      t.pc == 0xD000 && t.psl.pack == 0x04000000 && t.sps.interrupt == 0x2FFF4 && t.sps.kernel == 0x20000 &&
      longsAt t 0x2FFF4 3 == [3, 0x200, 0x83C00000]) = true := by decide

/-- 2.8: an omitted string instruction with FPD set raises the suspended emulation fault on the user stack. -/
theorem test_suspended_emulation :
    leadsTo (step (let s := user 0x08000000 0x1000 [0x28] (0xCC, 0xB100)
      { s with config := { s.config with subsetOps := [0x28] } })) (fun t =>
      t.pc == 0xB100 && t.psl.pack == 0x03C00000 && longsAt t 0x7FFEFFF8 2 == [0x1000, 0x0BC00000]) = true := by decide

/-- 2.9: CALLS with T set saves a status with bit 4 clear and leaves T set (R216); the procedure begins after its mask. -/
theorem test_calls :
    leadsTo (step ((user 0x10 0x1000 [0xFB, 0x00, 0x62]).placeBytes [0x04, 0x00] 0x6000 |>.setReg 2 0x6000)) (fun t =>
      t.pc == 0x6002 && t.psl.pack == 0x43C00010 && t.sp == 0x7FFEFFE4 &&
      longsAt t 0x7FFEFFE4 7 == [0, 0x20040000, 0, 0, 0x1003, 0x6000, 0]) = true := by decide

/-- R221: CALLG pushes no argument count; AP is the argument list. -/
theorem test_callg :
    leadsTo (step ((user 0 0x1000 [0xFA, 0x61, 0x62]).placeBytes [0x00, 0x80] 0x6000 |>.setReg 1 0x7000 |>.setReg 2 0x6000))
      (fun t => t.pc == 0x6002 && t.psl.pack == 0x03C00080 && t.getReg 12 == 0x7000 && t.sp == 0x7FFEFFEC) = true := by
  decide

/-- R222: RET from a CALLG frame at 0x7FFEFF00 that saved R2, with IV in its PSW. -/
theorem test_ret :
    leadsTo (step ((user 0x10 0x6002 [0x04]).placeBytes
        [0, 0, 0, 0, 0x20, 0, 0x04, 0, 0, 0x70, 0, 0, 0, 0x80, 0, 0, 0x03, 0x10, 0, 0, 0x44, 0x33, 0x22, 0x11] 0x7FFEFF00
        |>.setReg 13 0x7FFEFF00)) (fun t =>
      t.pc == 0x1003 && t.psl.pack == 0x43C00020 && t.getReg 2 == 0x11223344 && t.getReg 12 == 0x7000 &&
      t.getReg 13 == 0x8000 && t.sp == 0x7FFEFF18) = true := by decide

/-- R220, R222: CALLS with the count 0x30102 from an unaligned stack, then RET: two longwords of arguments are removed. -/
theorem test_calls_ret :
    let s := (((user 0x10 0x1000 []).placeBytes [0x01, 0xC8] 0x6000).setReg 2 0x6000).setSp 0x7FFF0003
    leadsTo (exec (.calls (.plain (.immediate 0x30102)) (.plain (.deferred 2))) s) (fun t =>
      t.sp == 0x7FFEFFE0 &&
      leadsTo (exec .ret t) fun u => u.pc == 0x1007 && u.regs == s.regs && u.sp == 0x7FFF000B && !u.psl.t) = true := by decide

/-! ## Witnesses

For each statement of the obligations that has hypotheses, a concrete state and operands that meet them, clause by clause. -/

/-- Whether all `n` bytes at `va` can be written. -/
def checkWrite (s : State) (mode : Mode) (va : Longword) (n : Nat) : Bool :=
  (List.range n).all fun i => (s.physical mode .write (addrAdd va i)).isOk

theorem canWrite_of_check {s : State} {mode : Mode} {va : Longword} {n : Nat} (h : checkWrite s mode va n = true) :
    s.canWrite mode va n := by
  intro i hi
  have := List.all_eq_true.1 h i (List.mem_range.2 hi)
  cases hp : s.physical mode .write (addrAdd va i) with
  | ok pa => exact ⟨pa, rfl⟩
  | error e => rw [hp] at this; cases this

/-- Whether an exception can be initiated with a frame of `n` longwords. -/
def checkEnter (e : Exc) (n : Nat) (s : State) : Bool :=
  !(decide (e = .customerReservedOpcode) && s.config.xfcMicrocode) &&
  (vectorCode (s.vector e) == .kernelStack || vectorCode (s.vector e) == .interruptStack) &&
  checkWrite s (e.newMode s.psl.cur)
    (s.sps.get (serviceStack e s.psl (vectorCode (s.vector e))) - BitVec.ofNat 32 (4 * n)) (4 * n)

theorem canEnter_of_check {e : Exc} {n : Nat} {s : State} (h : checkEnter e n s = true) : canEnter e n s := by
  simp only [checkEnter, Bool.and_eq_true, Bool.or_eq_true, beq_iff_eq] at h
  exact ⟨fun hx => by simp [hx.1, hx.2] at h, h.1.2, canWrite_of_check h.2⟩

/-- The page of the code at 0x1000, not valid, readable or not. -/
def pageOut (readable : Bool) (s : State) : State :=
  { s with translation := .regions [⟨0x1000, 0x11FF, if readable then [.user] else [], [], false, 0x1000⟩] }

/-- Every address from `a` up is not valid. -/
def invalidFrom (a : Longword) (s : State) : State :=
  { s with translation := .regions [⟨a, 0xFFFFFFFF, [.kernel, .user], [.kernel, .user], false, a⟩] }

theorem witness_EncodedInstructionDecodes :
    Instr.wf (.polyh (.plain (.immediate (BitVec.allOnes 128))) (.indexed 15 (.immediate 0xFFFF))
      (.plain (.longDispDeferred 15 0xFFFFFFFF))) = true ∧
    Instr.wf (.addl2 (.plain (.literal 63)) (.indexedTwice 15 15)) = true ∧ Instr.wf (.emtCompat 0xFF) = true := by decide

theorem witness_DecodedInstructionEncodes :
    decode false [0xC0, 0x8F, 0xFF, 0xFF, 0xFF, 0xFF, 0x51] =
      .instr (.addl2 (.plain (.immediate 0xFFFFFFFF)) (.plain (.register 1))) [] ∧
    decode true [0xFF, 0x88] = .instr (.emtCompat 0xFF) [] := by decide

theorem witness_StepRunsDecodedInstruction :
    (user 0x10 0x1000 [0x01]).psl.tp = false ∧ (user 0x10 0x1000 [0x01]).sampleTrace.oddFetch = false ∧
    decode (user 0x10 0x1000 [0x01]).psl.cm (user 0x10 0x1000 [0x01]).sampleTrace.fetchWindow.1 =
      .instr .nop (List.replicate 127 0) ∧
    (user 0x80000000 0x200 [0x03]).sampleTrace.oddFetch = false ∧
    decode true (user 0x80000000 0x200 [0x03]).sampleTrace.fetchWindow.1 = .instr .bptCompat (List.replicate 126 0) := by
  decide +kernel

/-- A page end: the instruction is whole before a page that cannot be read. -/
theorem witness_StepRunsStoredInstruction :
    let s := pageOut false (user 0 0x0FFF [0x01])
    Instr.wf .nop = true ∧ s.psl.tp = false ∧ s.staleCode = [] ∧ Instr.nop.native.isNone = s.psl.cm ∧
    (s.psl.cm = true → s.pc.getLsbD 0 = false) ∧ s.readBytes s.psl.cur Instr.nop.length s.pc = .ok (encode .nop) :=
  ⟨by decide, by decide, by decide, by decide, by decide, rfl⟩

theorem witness_StepRunsStoredInstruction_compat :
    let s := user 0x80000000 0x200 [0x05, 0x88]
    (Instr.emtCompat 5).native.isNone = s.psl.cm ∧ (s.psl.cm = true → s.pc.getLsbD 0 = false) ∧
    s.readBytes s.psl.cur (Instr.emtCompat 5).length s.pc = .ok (encode (.emtCompat 5)) :=
  ⟨by decide, by decide, rfl⟩

/-- A byte of the instruction stored over: the new byte and the old one are candidates; the next byte has one candidate. -/
theorem witness_StepRunsStoredInstruction_stored_over :
    let s := user 0 0x1000 [0x01, 0x02]
    ∃ s', s.store [0x03] 0x1000 = .ok s' ∧ s.physical s.psl.cur .write (addrAdd 0x1000 0) = .ok 0x1000 ∧
      s'.physical s'.psl.cur .read (addrAdd s'.pc 0) = .ok 0x1000 ∧ s'.fetchCandidates 0x1000 = [0x03, 0x01] ∧
      s'.physical s'.psl.cur .read (addrAdd s'.pc 1) = .ok 0x1001 ∧ ∀ b, (0x1001, b) ∉ s'.staleCode :=
  ⟨_, rfl, rfl, rfl, by decide, rfl, by decide⟩

theorem witness_NopAdvances :
    let s := user 0x10 0x1000 [0x01]
    s.psl.tp = false ∧ s.psl.cm = false ∧ s.staleCode = [] ∧ s.readBytes s.psl.cur 1 s.pc = .ok [0x01] :=
  ⟨by decide, by decide, by decide, rfl⟩

theorem witness_PendingTraceIsTakenFirst :
    let s := user 0x40000010 0x5000 [0xFF, 0xFF] (0x28, 0x9000)
    s.psl.tp = true ∧ s.fetchFault = none ∧ canEnter .traceFault 2 s :=
  ⟨by decide, by decide, canEnter_of_check (by decide)⟩

theorem witness_TraceAndFetchFaultInEitherOrder :
    (user 0xC0000000 0x1001 []).psl.tp = true ∧
    (user 0xC0000000 0x1001 []).fetchFault = some (.compatibilityMode .oddAddress) ∧
    (pageOut true (user 0x40000000 0x1000 [])).psl.tp = true ∧
    (pageOut true (user 0x40000000 0x1000 [])).fetchFault = some (.memory .translationNotValid 0x1000 .read) := by decide

theorem witness_OddAddressAborts :
    let s := user 0x80000010 0x1001 [] (0x30, 0xD000)
    s.psl.tp = false ∧ s.psl.cm = true ∧ s.pc.getLsbD 0 = true ∧ canEnter (.compatibilityMode .oddAddress) 3 s :=
  ⟨by decide, by decide, by decide, canEnter_of_check (by decide)⟩

theorem witness_FetchFaults_acv :
    let s := pageOut false (user 0 0x1000 [] (0x20, 0xE000))
    s.psl.tp = false ∧ (s.psl.cm = true → s.pc.getLsbD 0 = false) ∧
    (s.translation.entry s.pc .read s.psl.cur).allowed = false ∧
    canEnter (.memory .accessControlViolation s.pc .read)
      (2 + (memoryParams s.config.mmParams .accessControlViolation s.pc .read s.psl.cur).length) s :=
  ⟨by decide, by decide, by decide, canEnter_of_check (by decide)⟩

theorem witness_FetchFaults_tnv :
    let s := pageOut true (user 0 0x11FF [] (0x24, 0xE100))
    (s.translation.entry s.pc .read s.psl.cur).allowed = true ∧ (s.translation.entry s.pc .read s.psl.cur).valid = false ∧
    canEnter (.memory .translationNotValid s.pc .read)
      (2 + (memoryParams s.config.mmParams .translationNotValid s.pc .read s.psl.cur).length) s :=
  ⟨by decide, by decide, canEnter_of_check (by decide)⟩

/-- A later byte: the second of a compatibility-mode word, the second of a two-byte opcode, the last of an immediate value, the
first of a specifier after one that can, and after one that cannot be evaluated. -/
theorem witness_FetchFaults_later :
    let s := invalidFrom 0x201 (user 0x80000000 0x200 [0x03])
    let s1 := invalidFrom 0x1000 (user 0 0x0FFF [0xFD])
    let s2 := invalidFrom 0x1000 (user 0 0x0FFB [0xC0, 0x8F, 1, 0, 0])
    let s3 := invalidFrom 0x1000 (user 0 0x0FFD [0xC0, 0x4F, 0x61])
    (s.fetchByte 0 = .ok 0x03 ∧ (s.translation.entry (addrAdd s.pc 1) .read s.psl.cur).allowed = true ∧
      (s.translation.entry (addrAdd s.pc 1) .read s.psl.cur).valid = false) ∧
    (s1.fetchByte 0 = .ok 0xFD ∧ (s1.translation.entry (addrAdd s1.pc 1) .read s1.psl.cur).valid = false) ∧
    (s2.sampleTrace.fetchWindow.1 = Opcode.addl2.bytes ++ encodeSpecs Opcode.addl2.operands [] ++
        (encodeSpec .long (.plain (.immediate 1))).take 4 ∧
      wfSpecs (Opcode.addl2.operands.take 0) [] = true ∧ Opcode.addl2.operands[0]? = some readLong ∧
      (s2.translation.entry (addrAdd s2.pc 5) .read s2.psl.cur).valid = false ∧
      ∃ r, evalOperands Opcode.addl2.operands [] (addrAdd s2.pc 1) s2.sampleTrace.afterFetch = .ok r) ∧
    (s3.sampleTrace.fetchWindow.1 =
        Opcode.addl2.bytes ++ encodeSpecs Opcode.addl2.operands [.indexed 15 (.deferred 1)] ++ [] ∧
      wfSpecs (Opcode.addl2.operands.take 1) [.indexed 15 (.deferred 1)] = true ∧
      evalOperands Opcode.addl2.operands [.indexed 15 (.deferred 1)] (addrAdd s3.pc 1) s3.sampleTrace.afterFetch =
        .error (.fault .reservedAddressingMode)) :=
  ⟨⟨rfl, by decide, by decide⟩, ⟨rfl, by decide⟩, ⟨rfl, rfl, rfl, by decide, _, rfl⟩, rfl, by decide, rfl⟩

/-- A page that may not be read and is not valid either. -/
theorem witness_AccessControlComesFirst :
    ((pageOut false (user 0 0x1000 [])).translation.entry 0x1000 .read .user).allowed = false ∧
    ((pageOut false (user 0 0x1000 [])).translation.entry 0x1000 .read .user).valid = false := by decide

theorem witness_InitiateEntersRoutine :
    canEnter .breakpoint (Exc.frame .breakpoint 0x4000 (user 0 0x4000 []).psl (user 0 0x4000 [])).length
      (user 0 0x4000 []) ∧
    canEnter .breakpoint (Exc.frame .breakpoint 0x4000 (user 0 0x4000 []).psl (user 0 0x4000 [])).length
      (user 0 0x4000 [] (0x2C, 0xB001)) :=
  ⟨canEnter_of_check (by decide), canEnter_of_check (by decide)⟩

/-- A user-mode machine whose microcode handles XFC. -/
def withMicrocode (s : State) : State := { s with config := { s.config with xfcMicrocode := true } }

/-- No address can be written. -/
def nothingWritable (s : State) : State :=
  { s with translation := .regions [⟨0, 0xFFFFFFFF, [.kernel, .user], [], true, 0⟩] }

theorem witness_InitiateStops :
    (Exc.customerReservedOpcode = .customerReservedOpcode ∧ (withMicrocode (user 0 0x2000 [])).config.xfcMicrocode = true) ∧
    vectorCode ((user 0 0x4000 [] (0x2C, 0xB002)).vector .breakpoint) = .writableControlStore ∧
    vectorCode ((user 0 0x4000 [] (0x2C, 0xB003)).vector .breakpoint) = .reserved ∧
    vectorCode ((nothingWritable (user 0 0x4000 [])).vector .breakpoint) = .kernelStack ∧
    ¬ (nothingWritable (user 0 0x4000 [])).canWrite .kernel (0x20000 - BitVec.ofNat 32 (4 * 2)) (4 * 2) := by
  refine ⟨by decide, by decide, by decide, by decide, fun h => ?_⟩
  obtain ⟨pa, hpa⟩ := h 0 (by decide)
  cases hpa


/-- One exception of each kind; the two forms of MM_PARAMS that R141 names. -/
theorem witness_ServiceStackAndMode :
    let s := user 0 0x1000 []
    (∀ target code, Exc.traceFault ≠ .changeMode target code) ∧ Exc.isEmulation .traceFault = false ∧
    Exc.traceFault ≠ .subsetEmulationTrap ∧ { s.config with mmParams := .nothing }.mmParams = .nothing ∧
    s.config.mmParams = .addressAndFaultWord ∧ s.vector .traceFault = 0 ∧ s.vector (.arithmeticTrap .integerOverflow) = 0x8000 :=
  ⟨fun _ _ h => (by cases h), rfl, by decide, rfl, rfl, by decide, by decide⟩

/-- A breakpoint, and CHMK from user mode with a vector code of 0. -/
theorem witness_ReiUndoesException :
    let s := user 0 0x4000 []
    let p := { s.psl with t := true, tp := true, n := true }
    s.wf ∧ s.flat ∧ (∃ t, initiate .breakpoint 0x4000 p s = .next t) ∧ Exc.breakpoint ≠ .subsetEmulationTrap ∧
    p.cur = s.psl.cur ∧ p.is = false ∧ s.psl.is = false ∧ p.ipl = 0 ∧ vectorCode (s.vector .breakpoint) = .kernelStack ∧
    (Exc.frame .breakpoint 0x4000 p s).length ≤ 2 ^ 28 ∧ (∃ t, initiate (.changeMode .kernel 3) 0x4000 p s = .next t) ∧
    vectorCode (s.vector (.changeMode .kernel 3)) = .kernelStack :=
  ⟨by simp only [State.wf]; decide, rfl, ⟨_, rfl⟩, by decide, rfl, by decide, by decide, by decide, by decide, by decide,
    ⟨_, rfl⟩, by decide⟩

/-- A breakpoint on the interrupt stack, its vector's code 1. -/
theorem witness_ReiUndoesException_interrupt :
    let s := user 0 0x4000 [] (0x2C, 0xB001)
    (∃ t, initiate .breakpoint 0x4000 s.psl s = .next t) ∧ vectorCode (s.vector .breakpoint) = .interruptStack ∧
    ((∀ m c, Exc.breakpoint ≠ .changeMode m c) ∧ Exc.isEmulation .breakpoint = false) :=
  ⟨⟨_, rfl⟩, by decide, fun _ _ h => (by cases h), rfl⟩

/-- A kernel-mode machine about to execute REI, with a saved PC and PSL on its stack. -/
def returning (bits pc psl : Longword) : State :=
  { (machine bits 0x8000 [0x02] (0x18, 0xC300)).placeBytes (leBytes 4 pc.toNat ++ leBytes 4 psl.toNat) 0x1FFF8 with
    sps := ⟨0x1FFF8, 0x1FFF8, 0x1FFF8, 0x1FFF8, 0⟩ }

/-- REI to user mode; a breakpoint to kernel mode. -/
theorem witness_ModeChanges :
    leadsTo (step (returning 0 0x1003 0x03C00002)) (fun t => morePrivileged Mode.kernel t.psl.cur) = true ∧
    leadsTo (step (user 0 0x4000 [0x03])) (fun t => morePrivileged t.psl.cur Mode.user) = true := by decide

theorem witness_TracePendingIsSampledT :
    let s := user 0x10 0x1000 [0x01]
    (∃ u, beginStep s = .run .nop u ∧ ∃ t, exec .nop u = .next t) ∧ Instr.nop ≠ .rei :=
  ⟨⟨_, rfl, _, rfl⟩, by decide⟩

theorem witness_StepKeepsMemoryForm :
    (user 0 0x3000 [0xBC, 0x03]).wf ∧ ∃ t, step (user 0 0x3000 [0xBC, 0x03]) = .next t :=
  ⟨by simp only [State.wf]; decide, _, rfl⟩

theorem witness_StepKeepsSetting :
    (∃ t, step (user 0 0x3000 [0xBC, 0x03]) = .next t) ∧ (user 0 0x3000 [0xBC, 0x03]).configWf := by
  refine ⟨⟨_, rfl⟩, by decide, rfl, fun o h => ?_, .inl rfl, fun c h => ?_, fun c h => ?_⟩
  · simp only [List.mem_cons, List.not_mem_nil, or_false] at h
    rcases h with rfl | rfl | rfl | rfl | rfl | rfl | rfl | rfl | rfl | rfl | rfl | rfl | rfl | rfl <;> rfl
  · cases h
  · cases h

theorem witness_ReiReturns :
    let s := returning 0x10 0x1003 0x43C00002
    s.readLong s.sp = .ok 0x1003 ∧ s.readLong (s.sp + 4) = .ok 0x43C00002 ∧
    morePrivileged (Psl.unpack 0x43C00002).cur s.psl.cur = false ∧ (Psl.unpack 0x43C00002).is = false ∧
    (Psl.unpack 0x43C00002).ipl = 0 := ⟨rfl, rfl, by decide, by decide, by decide⟩

/-- From user mode to supervisor mode; IS set; IPL 1. -/
theorem witness_ReiChecksSavedPsl :
    let s := returning 0x03C00000 0x1003 0x02000000
    let s1 := returning 0 0x1003 0x04000000
    let s2 := returning 0 0x1003 0x00010000
    (s.readLong s.sp = .ok 0x1003 ∧ s.readLong (s.sp + 4) = .ok 0x02000000 ∧
      morePrivileged (Psl.unpack 0x02000000).cur s.psl.cur = true ∧ canEnter .reservedOperand 2 s) ∧
    (s1.readLong s1.sp = .ok 0x1003 ∧ s1.readLong (s1.sp + 4) = .ok 0x04000000 ∧
      morePrivileged (Psl.unpack 0x04000000).cur s1.psl.cur = false ∧ (Psl.unpack 0x04000000).is = true) ∧
    (s2.readLong s2.sp = .ok 0x1003 ∧ s2.readLong (s2.sp + 4) = .ok 0x00010000 ∧
      morePrivileged (Psl.unpack 0x00010000).cur s2.psl.cur = false ∧ (Psl.unpack 0x00010000).ipl ≠ 0) :=
  ⟨⟨rfl, rfl, by decide, canEnter_of_check (by decide)⟩, ⟨rfl, rfl, by decide, by decide⟩,
    ⟨rfl, rfl, by decide, by decide⟩⟩

/-- The mask 0xFF, in R0. -/
theorem witness_BispswSetsBits :
    let s := (user 0 0x2000 [0xB8, 0x50]).setReg 0 0xFF
    ∃ a, evalOperand readWord (.plain (.register 0)) (addrAdd s.pc 1) s = .ok a ∧ a.word.extractLsb' 8 8 = 0#8 :=
  ⟨_, rfl, by decide⟩

/-- The mask 0x100, in R0. -/
theorem witness_BispswReservedMask :
    let s := (user 0 0x2000 [0xB8, 0x50] (0x18, 0xC300)).setReg 0 0x100
    (∃ a, evalOperand readWord (.plain (.register 0)) (addrAdd s.pc 1) s = .ok a ∧ a.word.extractLsb' 8 8 ≠ 0#8) ∧
    canEnter .reservedOperand 2 s := ⟨⟨_, rfl, by decide⟩, canEnter_of_check (by decide)⟩

theorem witness_BispswTracesFromSecondInstruction :
    let s := user 0 0x2000 [0xB8, 0x10, 0x01]
    s.psl.t = false ∧ ∃ u a t v w, beginStep s = .run (.bispsw (.plain (.literal 16))) u ∧
      evalOperand readWord (.plain (.literal 16)) (addrAdd u.pc 1) u = .ok a ∧ a.word.extractLsb' 8 8 = 0#8 ∧
      a.word.getLsbD 4 = true ∧ exec (.bispsw (.plain (.literal 16))) u = .next t ∧ beginStep t = .run .nop v ∧
      exec .nop v = .next w := ⟨by decide, _, _, _, _, _, rfl, rfl, by decide, by decide, rfl, rfl, rfl⟩

theorem witness_FaultingInstructionsEnter :
    let s := user 0x10 0x1000 []
    canEnter .reservedOrPrivilegedInstruction 2 s ∧ canEnter .customerReservedOpcode 2 s ∧ canEnter .breakpoint 2 s ∧
    canEnter (.compatibilityMode .bpt) 3 s ∧ canEnter (.compatibilityMode .iot) 3 s ∧
    canEnter (.compatibilityMode .emt) 3 s ∧ canEnter (.compatibilityMode .trap) 3 s :=
  ⟨canEnter_of_check (by decide), canEnter_of_check (by decide), canEnter_of_check (by decide),
    canEnter_of_check (by decide), canEnter_of_check (by decide), canEnter_of_check (by decide),
    canEnter_of_check (by decide)⟩

theorem witness_OpcodeFFFFAlwaysFaults :
    let s := user 0 0x1000 [0xFF, 0xFF]
    let s' := user 0x40000000 0x1000 [0xFF, 0xFF]
    s.psl.cm = false ∧ s.staleCode = [] ∧ s.readBytes s.psl.cur 2 s.pc = .ok [0xFF, 0xFF] ∧ s.psl.tp = false ∧
    s'.psl.cm = false ∧ s'.readBytes s'.psl.cur 2 s'.pc = .ok [0xFF, 0xFF] ∧ s'.psl.tp = true :=
  ⟨by decide, by decide, rfl, by decide, by decide, rfl, by decide⟩

/-- Each CHMx from user mode, code 63. -/
theorem witness_ChangeModeEnters :
    let s := user 0x10 0x3000 []
    s.psl.is = false ∧ ∃ a, evalOperand readWord (.plain (.literal 63)) (addrAdd s.pc 1) s = .ok a ∧
      canEnter (.changeMode .kernel a.word) 3 (a.state.setPc a.next) ∧
      canEnter (.changeMode .executive a.word) 3 (a.state.setPc a.next) ∧
      canEnter (.changeMode .supervisor a.word) 3 (a.state.setPc a.next) ∧
      canEnter (.changeMode .user a.word) 3 (a.state.setPc a.next) :=
  ⟨by decide, _, rfl, canEnter_of_check (by decide), canEnter_of_check (by decide), canEnter_of_check (by decide),
    canEnter_of_check (by decide)⟩

theorem witness_ChangeModeSavesTrace :
    ∃ u a t, beginStep (user 0x10 0x3000 [0xBC, 0x03]) = .run (.chmk (.plain (.literal 3))) u ∧
      evalOperand readWord (.plain (.literal 3)) (addrAdd u.pc 1) u = .ok a ∧
      exec (.chmk (.plain (.literal 3))) u = .next t := ⟨_, _, _, rfl, rfl, rfl⟩

theorem witness_InstructionRefusals :
    (withMicrocode (user 0 0x2000 [])).config.xfcMicrocode = true ∧ (machine 0x04000000 0 [] (0, 0)).psl.is = true ∧
    (user 0x08000000 0 []).psl.fpd = true := by decide

/-- A longword into R14, a word into memory, no register at all; a byte divisor of zero, and one of -1. -/
theorem witness_ClassIntResult :
    let s := user 0x20 0x1000 []
    (0x100 : Octaword).setWidth (8 * OpType.size .byte) = 0#(8 * OpType.size .byte) ∧
    (0xFF : Octaword).setWidth (8 * OpType.size .byte) ≠ 0#(8 * OpType.size .byte) ∧
    (Place.reg 14).writable .long s ∧ (∀ r, Place.reg 14 = .reg r → reachesPc .long r = false) ∧
    (Place.mem 0xFFFFFFFF).writable .word s ∧ (∀ r, Place.mem 0xFFFFFFFF = .reg r → reachesPc .word r = false) :=
  ⟨by decide, by decide, trivial, fun r h => by cases h; decide, canWrite_of_check (by decide), fun _ h => by cases h⟩

/-- IV clear with an overflow, and IV set with the largest sum, 2^31 - 1. -/
theorem witness_Addl2Adds :
    let s := ((user 0 0x1000 []).setReg 0 1).setReg 1 0x7FFFFFFF
    let s' := ((user 0x20 0x1000 []).setReg 0 1).setReg 1 0x7FFFFFFE
    (∃ a b, evalOperand readLong (.plain (.register 0)) (addrAdd s.pc 1) s = .ok a ∧
      evalOperand modifyLong (.plain (.register 1)) a.next a.state = .ok b ∧ b.place.writable .long b.state ∧
      s.psl.iv = false) ∧
    ∃ a b, evalOperand readLong (.plain (.register 0)) (addrAdd s'.pc 1) s' = .ok a ∧
      evalOperand modifyLong (.plain (.register 1)) a.next a.state = .ok b ∧ b.place.writable .long b.state ∧
      (-(2 ^ 31 : Int) ≤ b.long.toInt + a.long.toInt ∧ b.long.toInt + a.long.toInt < 2 ^ 31) :=
  ⟨⟨_, _, rfl, rfl, trivial, by decide⟩, _, _, rfl, rfl, trivial, by decide⟩

/-- The least sum that overflows, 2^31; the state it completes in can take the trap. -/
theorem witness_Addl2OverflowTraps :
    let s := ((user 0x20 0x1000 []).setReg 0 1).setReg 1 0x7FFFFFFF
    (∃ a b, evalOperand readLong (.plain (.register 0)) (addrAdd s.pc 1) s = .ok a ∧
      evalOperand modifyLong (.plain (.register 1)) a.next a.state = .ok b ∧ b.place.writable .long b.state ∧
      (b.long.toInt + a.long.toInt < -(2 ^ 31) ∨ (2 ^ 31 : Int) ≤ b.long.toInt + a.long.toInt)) ∧ s.psl.iv = true ∧
    canEnter (.arithmeticTrap .integerOverflow) 3
      ((((s.setReg 1 0x80000000).setPc 0x1003).setCodes ⟨true, false, true, false⟩)) :=
  ⟨⟨_, _, rfl, rfl, trivial, by decide⟩, by decide, canEnter_of_check (by decide)⟩

/-- IV set with -2^31 by 1, and IV clear with -2^31 by -1. -/
theorem witness_Divl2Divides :
    let s := (user 0x20 0x1000 []).setReg 1 0x80000000
    let s' := ((user 0 0x1000 []).setReg 0 0xFFFFFFFF).setReg 1 0x80000000
    (∃ a b, evalOperand readLong (.plain (.literal 1)) (addrAdd s.pc 1) s = .ok a ∧
      evalOperand modifyLong (.plain (.register 1)) a.next a.state = .ok b ∧ b.place.writable .long b.state ∧
      a.long ≠ 0 ∧ ¬ (b.long = 0x80000000 ∧ a.long = 0xFFFFFFFF)) ∧
    ∃ a b, evalOperand readLong (.plain (.register 0)) (addrAdd s'.pc 1) s' = .ok a ∧
      evalOperand modifyLong (.plain (.register 1)) a.next a.state = .ok b ∧ b.place.writable .long b.state ∧
      a.long ≠ 0 ∧ s'.psl.iv = false :=
  ⟨⟨_, _, rfl, rfl, trivial, by decide, by decide⟩, _, _, rfl, rfl, trivial, by decide, by decide⟩

/-- 7 by zero; -2^31 by -1 with IV set. -/
theorem witness_Divl2ByZeroTraps :
    let s := (user 0 0x1000 []).setReg 1 7
    let s' := ((user 0x20 0x1000 []).setReg 0 0xFFFFFFFF).setReg 1 0x80000000
    ((∃ a b, evalOperand readLong (.plain (.register 0)) (addrAdd s'.pc 1) s' = .ok a ∧
      evalOperand modifyLong (.plain (.register 1)) a.next a.state = .ok b ∧ b.place.writable .long b.state ∧
      b.long = 0x80000000 ∧ a.long = 0xFFFFFFFF) ∧ s'.psl.iv = true ∧
      canEnter (.arithmeticTrap .integerOverflow) 3 ((s'.setPc 0x1003).setCodes ⟨true, false, true, false⟩)) ∧
    (∃ a b, evalOperand readLong (.plain (.literal 0)) (addrAdd s.pc 1) s = .ok a ∧
      evalOperand modifyLong (.plain (.register 1)) a.next a.state = .ok b ∧ b.place.writable .long b.state ∧
      a.long = 0) ∧
    canEnter (.arithmeticTrap .integerDivideByZero) 3 ((s.setPc 0x1003).setCodes ⟨false, false, true, false⟩) :=
  ⟨⟨⟨_, _, rfl, rfl, trivial, by decide, by decide⟩, by decide, canEnter_of_check (by decide)⟩,
    ⟨_, _, rfl, rfl, trivial, by decide⟩, canEnter_of_check (by decide)⟩

/-- The subscripts 10 (the high end), and 11, of 1 to 10. -/
theorem witness_IndexComputes :
    let s := user 0 0x1000 []
    (∃ a b c d e f, evalOperand readLong (.plain (.literal 10)) (addrAdd s.pc 1) s = .ok a ∧
      evalOperand readLong (.plain (.literal 1)) a.next a.state = .ok b ∧
      evalOperand readLong (.plain (.literal 10)) b.next b.state = .ok c ∧
      evalOperand readLong (.plain (.literal 4)) c.next c.state = .ok d ∧
      evalOperand readLong (.plain (.literal 0)) d.next d.state = .ok e ∧
      evalOperand writeLong (.plain (.register 2)) e.next e.state = .ok f ∧ f.place.writable .long f.state ∧
      (b.long.toInt ≤ a.long.toInt ∧ a.long.toInt ≤ c.long.toInt)) ∧
    (∃ a b c, evalOperand readLong (.plain (.literal 11)) (addrAdd s.pc 1) s = .ok a ∧
      evalOperand readLong (.plain (.literal 1)) a.next a.state = .ok b ∧
      evalOperand readLong (.plain (.literal 10)) b.next b.state = .ok c ∧ c.long.toInt < a.long.toInt) ∧
    canEnter (.arithmeticTrap .subscriptRange) 3 ((s.setReg 2 44).setPc 0x1007) :=
  ⟨⟨_, _, _, _, _, _, rfl, rfl, rfl, rfl, rfl, rfl, trivial, by decide⟩, ⟨_, _, _, rfl, rfl, rfl, by decide⟩,
    canEnter_of_check (by decide)⟩

/-- On a processor that faults instead. -/
def faulting (s : State) : State := { s with config := { s.config with floatStyle := .fault } }

/-- A D-floating value into R13 and R14, and memory; FU clear, and FU set; the outcome is a choice of the statement's. -/
theorem witness_ClassFloatOutcomes :
    let s := user 0x40 0x1000 []
    (Place.reg 13).writable FloatType.d.opType s ∧
    (∀ r, Place.reg 13 = .reg r → reachesPc FloatType.d.opType r = false) ∧
    (Place.mem 0).writable FloatType.h.opType s ∧ s.config.floatStyle = .trap ∧ s.psl.fu = true ∧
    (user 0 0 []).psl.fu = false :=
  ⟨trivial, fun r h => by cases h; decide, canWrite_of_check (by decide), rfl, by decide, by decide⟩

theorem witness_ClassFloatFaults :
    (faulting (user 0x40 0x1000 [])).config.floatStyle = .fault ∧ (faulting (user 0x40 0x1000 [])).psl.fu = true := by
  decide

/-- A reserved divisor with a fraction; a zero divisor with a fraction; neither. -/
theorem witness_ClassFloatDivide :
    isReservedFloat .f 0xFFFF807F = true ∧ isReservedFloat .f 0x4080 = false ∧ isFloatZero .f 0x4080 = false ∧
    isReservedFloat .f 0xFFFF007F = false ∧ isFloatZero .f 0xFFFF007F = true ∧ isReservedFloat .h 0x8000 = true ∧
    isFloatZero .g 0x000F = true ∧ (user 0 0 []).config.floatStyle = .trap ∧ (Place.reg 14).writable .ffloat (user 0 0 []) ∧
    (∀ r, Place.reg 14 = .reg r → reachesPc .ffloat r = false) :=
  ⟨by decide, by decide, by decide, by decide, by decide, by decide, by decide, rfl, trivial,
    fun r h => by cases h; decide⟩

/-- A class instruction on decimal strings. -/
def stringOp (kind : ClassKind) (sources : List ClassSource) (modify : Bool) : ClassOp :=
  ⟨0xC1, kind, sources, .long, modify⟩

/-- A string operand: the length #31, the address in R6. -/
def string31 : List Specifier := [.plain (.literal 31), .plain (.deferred 6)]

/-- Strings of 31 digits and of none; class DEC instructions of one scalar, of one string and of two; lengths of 31 and 32; FPD
set. -/
theorem witness_ClassDecimal :
    let s := user 0x80 0x1000 []
    (s.canWrite .user 0xFFFFFFFF (decimalSize 31) ∧ s.canWrite .user 0 (decimalSize 0) ∧ s.wf ∧
      s.separate .user 0x6000 (decimalSize 31)) ∧
    (∃ x len addr next s', evalOperands (stringOp .dec [.scalar .long] false).operands
      (.plain (.register 0) :: string31) (addrAdd s.pc 1) s = .ok ([x] ++ [len, addr], next, s') ∧ len.word = 31) ∧
    (∃ l a len addr next s', evalOperands (stringOp .dec [.string] true).operands (string31 ++ string31) (addrAdd s.pc 1) s =
      .ok ([l, a] ++ [len, addr], next, s') ∧ l.word.toNat ≤ 31) ∧
    (∃ l a l' a' len addr next s', evalOperands (stringOp .dec [.string, .string] false).operands
      (string31 ++ string31 ++ string31) (addrAdd s.pc 1) s = .ok ([l, a, l', a'] ++ [len, addr], next, s')) ∧
    (∃ l, evalOperand readWord (.plain (.literal 32)) (addrAdd s.pc 1) s = .ok l ∧ 31 < l.word.toNat) ∧
    s.psl.fpd = false ∧ (user 0x08000000 0x1000 []).psl.fpd = true ∧ ClassKind.dec.isDecimal = true ∧
    .string ∈ (stringOp .int [.string] false).sources ∧
    (pageOut true s).readBytes s.psl.cur 16 0x1000 = .error (.fault (.memory .translationNotValid 0x1000 .read)) ∧
    ∃ bs, s.readBytes s.psl.cur 16 0x6000 = .ok bs :=
  ⟨⟨canWrite_of_check (by decide), canWrite_of_check (by decide), by simp only [State.wf]; decide,
    State.separate_flat (s := user 0x80 0x1000 []) rfl _ _ _ (by decide)⟩, ⟨_, _, _, _, _, rfl, by decide⟩,
    ⟨_, _, _, _, _, _, rfl, by decide⟩, ⟨_, _, _, _, _, _, _, _, rfl⟩, ⟨_, rfl, by decide⟩, by decide, by decide, rfl, by decide, rfl, _, rfl⟩

/-- A class INT instruction with a string source entered with FPD set is refused (U20, N12). -/
theorem test_class_int_string_fpd :
    execClass (stringOp .int [.string] false) 1 (string31 ++ [.plain (.register 2)]) (user 0x08000000 0x1000 []) =
      .refused .resumeSuspended := rfl

/-- Divisor and dividend strings, and a divisor string with the dividend in the destination. -/
theorem witness_ClassDecimalDivide :
    let s := user 0 0x1000 []
    (∃ l a l' a' len addr next s', evalOperands (stringOp .ddiv [.string, .string] false).operands
      (string31 ++ string31 ++ string31) (addrAdd s.pc 1) s = .ok (l :: a :: [l', a'] ++ [len, addr], next, s')) ∧
    (∃ l a len addr next s', evalOperands (stringOp .ddiv [.string] true).operands (string31 ++ string31) (addrAdd s.pc 1) s =
      .ok (l :: a :: [] ++ [len, addr], next, s')) ∧ s.psl.fpd = false ∧
    s.canWrite s.psl.cur 0x6000 (decimalSize 31) ∧ s.wf ∧ s.separate s.psl.cur 0x6000 (decimalSize 31) :=
  ⟨⟨_, _, _, _, _, _, _, _, rfl⟩, ⟨_, _, _, _, _, _, rfl⟩, by decide, canWrite_of_check (by decide),
    by simp only [State.wf]; decide, State.separate_flat (s := user 0 0x1000 []) rfl _ _ _ (by decide)⟩

/-- One class instruction of each scalar kind: `opcode R1 -> R2`, divisor R0, dividend R1. -/
def scalarOp (kind : ClassKind) (t : OpType) : ClassOp := ⟨0xC1, kind, [.scalar t, .scalar t], t, false⟩

theorem witness_ScalarClassInstructions :
    let s := user 0 0x1000 []
    (∀ k ∈ [(ClassKind.int, OpType.long), (.idiv, .word), (.flt, .ffloat), (.fdiv, .gfloat)],
      (scalarOp k.1 k.2).sources = [k.2, k.2].map .scalar) ∧
    (∃ a b dst next s', evalOperands (scalarOp .int .long).operands
        [.plain (.register 0), .plain (.register 1), .plain (.register 2)] (addrAdd s.pc 1) s =
      .ok ([a, b] ++ [dst], next, s') ∧
      [a, b].map Evaluated.value ++ (if (scalarOp .int .long).modify then [dst.value] else []) =
        a.value :: b.value :: []) ∧
    (∃ a b dst next s', evalOperands (scalarOp .fdiv .gfloat).operands
        [.plain (.register 0), .plain (.register 2), .plain (.register 4)] (addrAdd s.pc 1) s =
      .ok ([a, b] ++ [dst], next, s')) ∧
    (scalarOp .int .long).dest.float = none ∧ (scalarOp .idiv .word).dest.float = none ∧
    (scalarOp .flt .ffloat).dest.float = some .f ∧ (scalarOp .fdiv .gfloat).dest.float = some .g ∧
    (stringOp .int [.string] false).dest.float = none ∧ s.psl.fpd = false ∧
    ∃ len addr dst next s', evalOperands (stringOp .int [.string] false).operands (string31 ++ [.plain (.register 2)])
      (addrAdd s.pc 1) s = .ok ([len, addr, dst], next, s') :=
  ⟨by decide, ⟨_, _, _, _, _, rfl, rfl⟩, ⟨_, _, _, _, _, rfl⟩, rfl, rfl, rfl, rfl, rfl, by decide, _, _, _, _, _, rfl⟩

/-- An opcode, D0, of no row of the table. -/
def withSubset (s : State) : State := { s with config := { s.config with subsetOps := [0xD0] } }
def withClass (s : State) : State := { s with config := { s.config with classOps := [scalarOp .int .long] } }

theorem witness_EmulationExceptions :
    let s := withSubset (user 0 0x1000 [0xD0])
    let s' := withSubset (user 0x08000000 0x1000 [0xD0])
    (s.psl.tp = false ∧ s.psl.cm = false ∧ s.psl.fpd = false ∧
      decode false s.sampleTrace.fetchWindow.1 = .unknownOpcode 0xD0 1 (List.replicate 127 0) ∧
      (0xD0 : Word) ∈ s.config.subsetOps) ∧
    (s'.psl.tp = false ∧ s'.psl.cm = false ∧ s'.psl.fpd = true ∧
      decode false s'.sampleTrace.fetchWindow.1 = .unknownOpcode 0xD0 1 (List.replicate 127 0) ∧
      (0xD0 : Word) ∈ s'.config.subsetOps) ∧
    canEnter .suspendedEmulationFault 2 s'.sampleTrace.afterFetch :=
  ⟨by decide +kernel, by decide +kernel, canEnter_of_check (by decide)⟩

/-- A compatibility-mode word, 0x0005, of no row; a class instruction that the end of a page cuts short. -/
theorem witness_OtherOpcodes_refused_or_cut :
    let s := user 0x80000000 0x200 [0x05, 0x00]
    let s' := withClass (pageOut true (user 0 0x0FFD [0xC1, 0x50, 0x51]))
    (s.psl.cm = true ∧ s.pc.getLsbD 0 = false ∧ s.fetchByte 0 = .ok 0x05 ∧ s.fetchByte 1 = .ok 0x00) ∧
    s'.psl.cm = false ∧ decode false s'.sampleTrace.fetchWindow.1 = .unknownOpcode 0xC1 1 [0x50, 0x51] ∧
    (0xC1 : Word) ∉ s'.config.subsetOps ∧ s'.config.classOps = [] ++ scalarOp .int .long :: [] ∧
    decodeSpecs (scalarOp .int .long).operands [0x50, 0x51] = .cut [.plain (.register 0), .plain (.register 1)] :=
  ⟨⟨by decide, by decide, rfl, rfl⟩, by decide, by decide, by decide, rfl, by decide⟩

theorem witness_OtherOpcodes :
    let s := user 0 0x1000 [0xD0]
    let s' := withClass (user 0 0x1000 [0xC1, 0x50, 0x51, 0x52])
    (decode false s.sampleTrace.fetchWindow.1 = .unknownOpcode 0xD0 1 (List.replicate 127 0) ∧
      (0xD0 : Word) ∉ s.config.subsetOps ∧ ∀ c ∈ s.config.classOps, c.opcode ≠ 0xD0) ∧
    (decode false s'.sampleTrace.fetchWindow.1 =
        .unknownOpcode 0xC1 1 (0x50 :: 0x51 :: 0x52 :: List.replicate 124 0) ∧ (0xC1 : Word) ∉ s'.config.subsetOps ∧
      s'.config.classOps = [] ++ scalarOp .int .long :: [] ∧
      decodeSpecs (scalarOp .int .long).operands (0x50 :: 0x51 :: 0x52 :: List.replicate 124 0) =
        .whole [.plain (.register 0), .plain (.register 1), .plain (.register 2)] (List.replicate 124 0)) := by
  decide +kernel

/-- Degree 0 (POLYH) and degree 1 (POLYF), the table at 0x5000. -/
theorem witness_PolyDegreeZeroCompletes :
    let s := ((user 0 0x1000 []).placeBytes [0x80, 0x40, 0x34, 0x12] 0x5000).setReg 6 0x5000
    s.psl.fpd = false ∧ ∃ a b c, evalOperand ⟨.read, FloatType.h.opType⟩ (.plain (.literal 8)) (addrAdd s.pc 2) s = .ok a ∧
      evalOperand readWord (.plain (.literal 0)) a.next a.state = .ok b ∧
      evalOperand addressByte (.plain (.deferred 6)) b.next b.state = .ok c ∧ b.word = 0 ∧
      (c.state.readBytes s.psl.cur FloatType.h.opType.size c.long).map leOcta = .ok 0x12344080 ∧
      isReservedFloat .h 0x12344080 = false := ⟨by decide, _, _, _, rfl, rfl, rfl, by decide, rfl, by decide⟩

theorem witness_PolyOneStep :
    let s := ((user 0 0x1000 []).placeBytes [0x80, 0x40, 0x34, 0x12, 0, 0x41] 0x5000).setReg 6 0x5000
    s.psl.fpd = false ∧ ∃ a b c, evalOperand ⟨.read, FloatType.f.opType⟩ (.plain (.literal 8)) (addrAdd s.pc 1) s = .ok a ∧
      evalOperand readWord (.plain (.literal 1)) a.next a.state = .ok b ∧
      evalOperand addressByte (.plain (.deferred 6)) b.next b.state = .ok c ∧ b.word = 1 ∧
      (c.state.readBytes s.psl.cur FloatType.f.opType.size c.long).map leOcta = .ok 0x12344080 ∧
      (c.state.readBytes s.psl.cur FloatType.f.opType.size (addrAdd c.long FloatType.f.opType.size)).map leOcta =
        .ok 0x4100 ∧
      isReservedFloat .f 0x12344080 = false ∧ isReservedFloat .f 0x4100 = false :=
  ⟨by decide, _, _, _, rfl, rfl, rfl, by decide, rfl, rfl, by decide, by decide⟩

/-- Degree 32; the table of degree 2 whole, its last coefficient reserved, its last coefficient on a page that is not valid. -/
theorem witness_PolyOneStep_any_degree :
    let s := ((user 0 0x1000 []).placeBytes [0x80, 0x40, 0, 0, 0, 0x41, 0, 0, 0, 0x80] 0x5000).setReg 6 0x5000
    let s' := { s with translation := .regions [⟨0x5008, 0x51FF, [.user], [.user], false, 0x5008⟩] }
    (∃ a b, evalOperand ⟨.read, FloatType.f.opType⟩ (.plain (.literal 8)) (addrAdd s.pc 1) s = .ok a ∧
      evalOperand readWord (.plain (.literal 32)) a.next a.state = .ok b ∧ 31 < b.word.toNat) ∧
    (∃ a b c, evalOperand ⟨.read, FloatType.f.opType⟩ (.plain (.literal 8)) (addrAdd s.pc 1) s = .ok a ∧
      evalOperand readWord (.plain (.literal 1)) a.next a.state = .ok b ∧
      evalOperand addressByte (.plain (.deferred 6)) b.next b.state = .ok c ∧ b.word.toNat + 1 = [0x4080, 0x4100].length ∧
      (c.state.readBytes s.psl.cur 4 (addrAdd c.long (0 * 4))).map leOcta = .ok 0x4080 ∧
      (c.state.readBytes s.psl.cur 4 (addrAdd c.long (1 * 4))).map leOcta = .ok 0x4100 ∧
      ∃ bs, c.state.readBytes s.psl.cur 4 (addrAdd c.long (2 * 4)) = .ok bs ∧ isReservedFloat .f (leOcta bs) = true) ∧
    isReservedFloat .f 0x4080 = false ∧ isReservedFloat .f 0x4100 = false ∧
    s'.readBytes s'.psl.cur 4 (addrAdd 0x5000 (2 * 4)) = .error (.fault (.memory .translationNotValid 0x5008 .read)) :=
  ⟨⟨_, _, rfl, rfl, by decide⟩, ⟨_, _, _, rfl, rfl, rfl, by decide, rfl, rfl, _, rfl, by decide⟩, by decide, by decide, rfl⟩

/-- R109: two underflows come to one flag, the result after them zero; the other ends, each in the second of three steps. -/
theorem test_polyRun :
    polyRun (fun _ c => if c = 1 then .underflow else .normal (c + 1)) false [0, 1, 5, 1] = .final 0 true ∧
    polyRun (fun r c => .normal (r + c)) true [1, 2, 3, 4] = .final 10 false ∧
    polyRun (fun _ c => if c = 3 then .underflow else .normal c) true [1, 2, 3, 4] = .underflow ∧
    polyRun (fun _ c => if c = 3 then .overflow else .normal c) true [1, 2, 3, 4] = .overflow := by decide

/-- An entry mask naming R0 and R11, with IV and DV, at 0x6000. -/
def calling : State :=
  ((((user 0x10 0x1000 []).placeBytes [0x01, 0xC8] 0x6000).setReg 1 0x7000).setReg 2 0x6000)

theorem witness_CallgEnters :
    (∃ a d, evalOperand addressByte (.plain (.deferred 1)) (addrAdd calling.pc 1) calling = .ok a ∧
      evalOperand addressByte (.plain (.deferred 2)) a.next a.state = .ok d ∧ d.state.readWord d.long = .ok 0xC801 ∧
      (0xC801 : Word).extractLsb' 12 2 = 0#2 ∧
      d.state.canWrite calling.psl.cur (callBottom 0xC801 d.state) (4 * (5 + (maskRegs 0xC801).length))) ∧
    calling.wf ∧ calling.separate .user (callBottom 0xC801 calling) (4 * (5 + (maskRegs 0xC801).length)) :=
  ⟨⟨_, _, rfl, rfl, rfl, by decide, canWrite_of_check (by decide)⟩, by simp only [State.wf]; decide,
    State.separate_flat (s := calling) rfl _ _ _ (by decide)⟩

theorem witness_CallsEnters :
    (∃ a d, evalOperand readLong (.plain (.literal 2)) (addrAdd calling.pc 1) calling = .ok a ∧
      evalOperand addressByte (.plain (.deferred 2)) a.next a.state = .ok d ∧ d.state.readWord d.long = .ok 0xC801 ∧
      (0xC801 : Word).extractLsb' 12 2 = 0#2 ∧ d.state.canWrite calling.psl.cur (d.state.sp - 4) 4 ∧
      d.state.canWrite calling.psl.cur (callBottom 0xC801 (d.state.setSp (d.state.sp - 4)))
        (4 * (5 + (maskRegs 0xC801).length))) ∧ calling.wf ∧ calling.flat :=
  ⟨⟨_, _, rfl, rfl, rfl, by decide, canWrite_of_check (by decide), canWrite_of_check (by decide)⟩,
    by simp only [State.wf]; decide, rfl⟩

/-- Mask bit 12 of a CALLG, mask bit 13 of a CALLS; status bit 8, status bit 15, status bit 28. -/
theorem witness_BadCallFramesFault :
    let s := calling.placeBytes [0x00, 0x10] 0x6000
    let s' := calling.placeBytes [0x00, 0x20] 0x6000
    (canEnter .reservedOperand 2 s ∧ canEnter .reservedOperand 2 s') ∧
    (∃ a d, evalOperand addressByte (.plain (.deferred 1)) (addrAdd s.pc 1) s = .ok a ∧
      evalOperand addressByte (.plain (.deferred 2)) a.next a.state = .ok d ∧ d.state.readWord d.long = .ok 0x1000 ∧
      (0x1000 : Word).extractLsb' 12 2 ≠ 0#2) ∧
    (∃ a d, evalOperand readLong (.plain (.literal 2)) (addrAdd s'.pc 1) s' = .ok a ∧
      evalOperand addressByte (.plain (.deferred 2)) a.next a.state = .ok d ∧ d.state.readWord d.long = .ok 0x2000 ∧
      (0x2000 : Word).extractLsb' 12 2 ≠ 0#2) ∧
    ((calling.setReg 13 0x6100).placeBytes [0, 1] 0x6104).readLong 0x6104 = .ok 0x100 ∧
    (0x100 : Longword).extractLsb' 8 8 ≠ 0#8 ∧ (0x8000 : Longword).extractLsb' 8 8 ≠ 0#8 ∧
    ((calling.setReg 13 0x6100).placeBytes [0, 0, 0, 0x10] 0x6104).readLong 0x6104 = .ok 0x10000000 ∧
    (0x10000000 : Longword).getLsbD 28 = true :=
  ⟨⟨canEnter_of_check (by decide), canEnter_of_check (by decide)⟩, ⟨_, _, rfl, rfl, rfl, by decide⟩,
    ⟨_, _, rfl, rfl, rfl, by decide⟩, rfl, by decide, by decide, rfl, by decide⟩

/-- A CALLS frame at 0x6000 that saved R0 and R11, with two arguments, its stack aligned by 3. -/
def framed : State :=
  (((user 0 0x1000 []).setReg 13 0x6000).placeBytes [0xE0, 0, 0x01, 0xE8] 0x6004).placeBytes [0x02] 0x601F

theorem witness_RetReturns :
    let s := framed
    s.readLong (s.getReg fpReg + 4) = .ok 0xE80100E0 ∧ s.readLong (s.getReg fpReg + 8) = .ok 0 ∧
    s.readLong (s.getReg fpReg + 12) = .ok 0 ∧ s.readLong (s.getReg fpReg + 16) = .ok 0 ∧
    (0xE80100E0 : Longword).extractLsb' 8 8 = 0#8 ∧ (0xE80100E0 : Longword).getLsbD 28 = false ∧
    ((0xE80100E0 : Longword).extractLsb' 16 12).setWidth 16 = (0x801 : Word) ∧
    s.canRead s.psl.cur (s.getReg fpReg + 20) (4 * (maskRegs 0x801).length) ∧
    s.readLong (s.getReg fpReg + 20 + 8 + 3) = .ok 2 ∧
    ((user 0 0x1000 []).setReg 13 0x6000).readLong 0x6004 = .ok 0 ∧ (0 : Longword).getLsbD 29 = false :=
  ⟨rfl, rfl, rfl, rfl, by decide, by decide, by decide, State.canRead_flat (s := framed) rfl _ _ _, rfl, rfl, by decide⟩

theorem witness_RetUndoesCallg :
    calling.wf ∧ calling.flat ∧ ∃ a d t,
      evalOperand addressByte (.plain (.deferred 1)) (addrAdd calling.pc 1) calling = .ok a ∧
      evalOperand addressByte (.plain (.deferred 2)) a.next a.state = .ok d ∧ d.state.readWord d.long = .ok 0xC801 ∧
      (0xC801 : Word).extractLsb' 12 2 = 0#2 ∧
      exec (.callg (.plain (.deferred 1)) (.plain (.deferred 2))) calling = .next t :=
  ⟨by simp only [State.wf]; decide, rfl, _, _, _, rfl, rfl, rfl, by decide, rfl⟩

theorem witness_RetUndoesCallg_calls :
    ∃ a d t, evalOperand readLong (.plain (.literal 2)) (addrAdd calling.pc 1) calling = .ok a ∧
      evalOperand addressByte (.plain (.deferred 2)) a.next a.state = .ok d ∧ d.state.readWord d.long = .ok 0xC801 ∧
      exec (.calls (.plain (.literal 2)) (.plain (.deferred 2))) calling = .next t := ⟨_, _, _, rfl, rfl, rfl, rfl⟩

/-- The registers 0 and 14; an address held in memory. -/
theorem witness_OperandAddresses :
    (0 : Reg) ≠ 15 ∧ (14 : Reg) ≠ 15 ∧
    (((user 0 0 []).placeBytes [0x34, 0x12] 0x6000).setReg 0 0x6000).readLong 0x6000 = .ok 0x1234 ∧
    ((user 0 0 []).placeBytes [0x34, 0x12] 0x5FFE).readLong (addrAdd 0x6000 2 + (0xFC : Byte).signExtend 32) = .ok 0x1234 :=
  ⟨by decide, by decide, rfl, rfl⟩

/-- Registers 0 and 14; a G-floating operand in R13 and R14, and one in R14 and the PC. -/
theorem witness_OperandValues :
    let s := ((user 0 0 []).placeBytes [0x34, 0x12] 0x6000).setReg 0 0x6000
    ((0 : Reg) ≠ 15 ∧ (14 : Reg) ≠ 15 ∧ s.readLong (s.getReg 0) = .ok 0x1234) ∧
    (∃ o, evalOperand ⟨.read, .gfloat⟩ (.plain (.register 13)) 0x1001 s = .ok o) ∧ reachesPc .gfloat 14 = true ∧
    ∃ o, evalOperand ⟨.read, .gfloat⟩ (.plain (.register 14)) 0x1001 s = .ok o := by
  intro s
  refine ⟨⟨by decide, by decide, rfl⟩, ⟨⟨s.readRegOperand .gfloat 13, .reg 13, addrAdd 0x1001 1, s⟩, ?_⟩, by decide, ?_⟩
  · have sign : readsReserved .gfloat (s.readRegOperand .gfloat 13) = false := by decide
    show checkedOperand ⟨.read, .gfloat⟩ (s.readRegOperand .gfloat 13) _ _ s = _
    simp only [checkedOperand, sign]
    rfl
  have sign : readsReserved .gfloat (s.readPastRegs .gfloat 14 (addrAdd 0x1001 1)) = false := by
    have r14 : s.readRegs 1 14 = 0x7FFF0000 := by decide
    simp only [readsReserved, OpType.float, isReservedFloat, floatSign, State.readPastRegs, BitVec.getLsbD_ofNat]
    show (decide (15 < 128) &&
      ((s.readRegs 1 14 + 2 ^ 32 * (Config.pcOperand s.draws (addrAdd 0x1001 1)).toNat) % 2 ^ 64).testBit 15 && _) = false
    rw [r14, Nat.testBit_mod_two_pow, Nat.add_comm, Nat.testBit_two_pow_mul_add _ (by decide)]
    rfl
  refine ⟨⟨s.readPastRegs .gfloat 14 (addrAdd 0x1001 1), .reg 14, addrAdd 0x1001 1, s⟩, ?_⟩
  show checkedOperand ⟨.read, .gfloat⟩ (s.readPastRegs .gfloat 14 (addrAdd 0x1001 1)) _ _ s = _
  simp only [checkedOperand, sign]
  rfl

theorem witness_OperandChangesOnlyItsRegister :
    ∃ o, evalOperand readLong (.indexed 1 (.autoincrement 2)) 0x1001 (user 0 0x1000 []) = .ok o ∧
      steppedRegister (.indexed 1 (.autoincrement 2)) = some 2 := ⟨_, rfl, rfl⟩

theorem witness_DisallowedOperandForms :
    modifyLong.access ≠ .read ∧ addressByte.access = .address ∧ readLong.access ≠ .address := by decide

/-- ADDL2 whose second operand is a literal, and whose first operand's page is not valid; an INDEX whose indexout is a literal;
an ADDL2 whose sum and a CALLG and a CALLS whose frames cannot be written. -/
theorem witness_OperandFaultBacksUp :
    let s := user 0 0x1000 [] (0x1C, 0xC200)
    let s' := pageOut true (user 0 0x2000 [])
    let six := List.replicate 6 (Specifier.plain (.literal 1))
    ((Instr.index (.plain (.literal 1)) (.plain (.literal 1)) (.plain (.literal 1)) (.plain (.literal 1))
        (.plain (.literal 1)) (.plain (.literal 1))).native = some (.index, six) ∧
      evalOperands Opcode.index.operands six (addrAdd s.pc Opcode.index.bytes.length) s =
        .error (.fault .reservedAddressingMode)) ∧
    ((nothingWritable s).psl.fpd = false ∧ (nothingWritable s).psl.is = false ∧
      (∃ a last next t, evalOperands Opcode.addl2.operands [.plain (.literal 1), .plain (.absolute 0x6000)]
          (addrAdd s.pc Opcode.addl2.bytes.length) (nothingWritable s) = .ok ([a] ++ [last], next, t) ∧
        last.place = .mem 0x6000) ∧
      (nothingWritable s).physical .user .write (addrAdd 0x6000 0) =
        .error (.fault (.memory .accessControlViolation 0x6000 .write))) ∧
    (∃ a d, evalOperand addressByte (.plain (.deferred 1)) (addrAdd calling.pc 1) (nothingWritable calling) = .ok a ∧
      evalOperand addressByte (.plain (.deferred 2)) a.next a.state = .ok d ∧ d.state.readWord d.long = .ok 0xC801 ∧
      ¬ d.state.canWrite .user (callBottom 0xC801 d.state) (4 * (5 + (maskRegs 0xC801).length))) ∧
    (∃ a d, evalOperand readLong (.plain (.literal 2)) (addrAdd calling.pc 1) (nothingWritable calling) = .ok a ∧
      evalOperand addressByte (.plain (.deferred 2)) a.next a.state = .ok d ∧ d.state.readWord d.long = .ok 0xC801 ∧
      ¬ (d.state.canWrite .user (d.state.sp - 4) 4 ∧ d.state.canWrite .user
        (callBottom 0xC801 (d.state.setSp (d.state.sp - 4))) (4 * (5 + (maskRegs 0xC801).length)))) ∧
    (∃ a, evalOperand readLong (.plain (.autoincrement 0)) (addrAdd s.pc 1) s = .ok a ∧
      evalOperand modifyLong (.plain (.literal 1)) a.next a.state = .error (.fault .reservedAddressingMode)) ∧
    canEnter .reservedAddressingMode (Exc.frame .reservedAddressingMode s.pc { s.psl with tp := false } s).length s ∧
    evalOperand readLong (.plain (.absolute 0x1000)) (addrAdd s'.pc 1) s' =
      .error (.fault (.memory .translationNotValid 0x1000 .read)) ∧
    canEnter (.memory .translationNotValid 0x1000 .read)
      (Exc.frame (.memory .translationNotValid 0x1000 .read) s'.pc { s'.psl with tp := false } s').length s' :=
  ⟨⟨rfl, rfl⟩, ⟨by decide, by decide, ⟨_, _, _, _, rfl, rfl⟩, rfl⟩,
    ⟨_, _, rfl, rfl, rfl, fun h => by obtain ⟨pa, hpa⟩ := h 0 (by decide); cases hpa⟩,
    ⟨_, _, rfl, rfl, rfl, fun h => by obtain ⟨pa, hpa⟩ := h.1 0 (by decide); cases hpa⟩,
    ⟨_, rfl, rfl⟩, canEnter_of_check (by decide), rfl, canEnter_of_check (by decide)⟩

/-- The entry mask on a page that is not valid; REI's first and second longword; RET's status, and the first register of its
frame; a class instruction's operand; the second byte of its destination, a longword, an F-floating one, a string of 6
digits. -/
theorem witness_OperandFaultBacksUp_later :
    let s := invalidFrom 0x6000 { calling with sps := ⟨0x5000, 0, 0, 0x5000, 0⟩ }
    let rei := returning 0 0x1003 0x03C00002
    let ret := invalidFrom 0x6014 framed
    (∃ a d, evalOperand addressByte (.plain (.deferred 1)) (addrAdd s.pc 1) s = .ok a ∧
      evalOperand addressByte (.plain (.deferred 2)) a.next a.state = .ok d ∧
      d.state.readWord d.long = .error (.fault (.memory .translationNotValid 0x6000 .read))) ∧
    (∃ a d, evalOperand readLong (.plain (.literal 2)) (addrAdd s.pc 1) s = .ok a ∧
      evalOperand addressByte (.plain (.deferred 2)) a.next a.state = .ok d ∧
      d.state.readWord d.long = .error (.fault (.memory .translationNotValid 0x6000 .read))) ∧
    ((invalidFrom 0x1FFF8 rei).readLong 0x1FFF8 = .error (.fault (.memory .translationNotValid 0x1FFF8 .read)) ∧
      (invalidFrom 0x1FFFC rei).readLong 0x1FFF8 = .ok 0x1003 ∧
      (invalidFrom 0x1FFFC rei).readLong (0x1FFF8 + 4) = .error (.fault (.memory .translationNotValid 0x1FFFC .read))) ∧
    (invalidFrom 0x6004 framed).readLong (framed.getReg fpReg + 4) =
      .error (.fault (.memory .translationNotValid 0x6004 .read)) ∧
    (ret.readLong (ret.getReg fpReg + 4) = .ok 0xE80100E0 ∧ (maskRegs 0x801).length = 2 ∧
      (∀ b ∈ [(0x6008 : Longword), 0x600C, 0x6010], ∃ v, ret.readLong b = .ok v) ∧
      ret.readLong 0x6014 = .error (.fault (.memory .translationNotValid 0x6014 .read))) ∧
    evalOperands (scalarOp .int .long).operands [.indexed 15 (.deferred 1)] (addrAdd s.pc 1) s =
      .error (.fault .reservedAddressingMode) ∧
    ((∃ pa, s.physical s.psl.cur .write (addrAdd 0x5FFF 0) = .ok pa) ∧
      s.physical s.psl.cur .write (addrAdd 0x5FFF 1) = .error (.fault (.memory .translationNotValid 0x6000 .write)) ∧
      OpType.long.size = 4 ∧ FloatType.f.opType.size = 4 ∧ decimalSize 6 = 4) := by
  refine ⟨⟨_, _, rfl, rfl, rfl⟩, ⟨_, _, rfl, rfl, rfl⟩, ⟨rfl, rfl, rfl⟩, rfl, ⟨rfl, by decide, fun b h => ?_, rfl⟩, rfl,
    ⟨_, rfl⟩, rfl, rfl, rfl, by decide⟩
  simp only [List.mem_cons, List.not_mem_nil, or_false] at h
  rcases h with rfl | rfl | rfl <;> exact ⟨_, rfl⟩

/-- A reserved operand in R14 and in memory; a literal, which is none; a modified operand. -/
theorem witness_ReservedFloatOperandFaults :
    let s := (((user 0 0x1000 []).setReg 14 0xFFFF8000).setReg 0 0x6000).placeBytes [0, 0x80] 0x6000
    reachesPc FloatType.f.opType 14 = false ∧ isReservedFloat .f (s.readRegOperand FloatType.f.opType 14) = true ∧
    (s.readBytes s.psl.cur FloatType.d.opType.size (s.getReg 0)).map leOcta = .ok 0x8000 ∧
    isReservedFloat .d 0x8000 = true ∧
    (∃ o, evalOperand ⟨.read, FloatType.h.opType⟩ (.plain (.literal 63)) 0x1001 s = .ok o) ∧
    ∃ o, evalOperand ⟨.modify, FloatType.f.opType⟩ (.plain (.register 1)) 0x1001 s = .ok o :=
  ⟨by decide, by decide, rfl, by decide, ⟨_, rfl⟩, _, rfl⟩

end Sys2Proof.Tests
end

section
/-! SUPPORT. No step changes the setting: of a step's ways to a next state (`step_next`), each keeps the parameters, SCBB and the
page table. -/

namespace Sys2Proof.Machine

open Sys2Proof

/-- An instruction other than REI keeps the setting, also where it ends in an exception's routine. -/
theorem ordinaryAnswer.setting {s t : State} (h : ordinaryAnswer s t) : sameSetting s t := by
  rcases h with hord | ⟨e, pc, p, u, hord, -, -, hinit⟩
  · exact hord.setting
  · exact hord.setting.trans' (initiate_next hinit).1.setting

/-- REI keeps the setting: it pops the PC and the PSL alone. -/
theorem returnFromException_setting {s t : State} (h : returnFromException s = .ok (.done t)) : sameSetting s t := by
  obtain ⟨_, _, -, -, -, -, -, hdone⟩ := returnFromException_done h
  cases hdone
  exact ⟨rfl, rfl, rfl⟩

theorem step_sameSetting {s t : State} (h : step s = .next t) : sameSetting s t := by
  obtain ⟨u, hbegun, ⟨-, hrei⟩ | hord⟩ := step_next h
  · exact hbegun.setting.trans' (returnFromException_setting hrei)
  · exact hbegun.setting.trans' hord.setting

/-- What the spec demands of the parameters speaks of the setting alone. -/
theorem sameSetting.configWf {s t : State} (h : sameSetting s t) (hs : s.configWf) : t.configWf := by
  obtain ⟨hconfig, hscbb, -⟩ := h
  unfold State.configWf at *
  rwa [hconfig, hscbb]

/-- Settles O22: every way to a next state keeps the setting, and `configWf` depends on it alone. -/
theorem stepKeepsSetting : Obligations.StepKeepsSetting := fun _ _ h =>
  have hsame := step_sameSetting h
  ⟨hsame, hsame.configWf⟩

end Sys2Proof.Machine
end

section
/-! SUPPORT. Decoding an encoding, level by level: a base specifier, a specifier, the specifiers of an instruction, a native
instruction, a compatibility-mode word. Each level reads back exactly its own bytes, whatever follows them. -/

namespace Sys2Proof

/-- No base specifier begins with an index byte: mode 4 is `encodeSpec`'s (30_encoding.md R75). -/
theorem encodeBase_head (t : OpType) (b : BaseSpec) :
    ∃ b0 ext, encodeBase t b = b0 :: ext ∧ specMode b0 ≠ 4 := by
  cases b with
  | literal v => exact ⟨_, _, rfl, Nat.ne_of_lt (specMode_literal v)⟩
  | _ => exact ⟨_, _, rfl, by simp⟩

/-- A base specifier reads back. -/
theorem decodeBase_encodeBase {t : OpType} {b : BaseSpec} (h : b.wf t = true) (rest : List Byte) :
    decodeBase t (encodeBase t b ++ rest) = some (b, rest) := by
  cases b with
  | literal v =>
    have hlt := specMode_literal v
    have hmode : specMode (v.setWidth 8) = 0 ∨ specMode (v.setWidth 8) = 1 ∨ specMode (v.setWidth 8) = 2 ∨
        specMode (v.setWidth 8) = 3 := by omega
    rcases hmode with hm | hm | hm | hm <;> simp [encodeBase, decodeBase, hm, extract_literal]
  | immediate v =>
    have hfits : v.toNat < 256 ^ t.size := by simpa [BaseSpec.wf] using h
    simp [encodeBase, decodeBase, decodeExtension_append, leOcta_leBytes _ _ hfits]
  | autoincrement r =>
    have hr : r ≠ 15 := by simpa [BaseSpec.wf] using h
    simp [encodeBase, decodeBase, hr]
  | autoincrementDeferred r =>
    have hr : r ≠ 15 := by simpa [BaseSpec.wf] using h
    simp [encodeBase, decodeBase, hr]
  | byteDisp r d => simp [encodeBase, decodeBase, decodeExtension_append, ofNat_leBytes_one]
  | byteDispDeferred r d => simp [encodeBase, decodeBase, decodeExtension_append, ofNat_leBytes_one]
  | _ => simp [encodeBase, decodeBase, decodeExtension_append]

/-- An operand specifier reads back. -/
theorem decodeSpec_encodeSpec {t : OpType} {sp : Specifier} (h : sp.wf t = true) (rest : List Byte) :
    decodeSpec t (encodeSpec t sp ++ rest) = some (sp, rest) := by
  cases sp with
  | plain b =>
    obtain ⟨b0, ext, henc, hmode⟩ := encodeBase_head t b
    have hbase := decodeBase_encodeBase (b := b) h rest
    rw [henc, List.cons_append] at hbase
    simp [encodeSpec, henc, decodeSpec, hmode, hbase]
  | indexed x b =>
    obtain ⟨b0, ext, henc, hmode⟩ := encodeBase_head t b
    have hbase := decodeBase_encodeBase (b := b) h rest
    rw [henc, List.cons_append] at hbase
    simp [encodeSpec, henc, decodeSpec, hmode, hbase]
  | indexedTwice x y => simp [encodeSpec, decodeSpec]

/-- The operand specifiers of an instruction read back, one for each operand. -/
theorem decodeSpecs_encodeSpecs {ks : List OperandKind} {sps : List Specifier} (h : wfSpecs ks sps = true)
    (rest : List Byte) : decodeSpecs ks (encodeSpecs ks sps ++ rest) = .whole sps rest := by
  induction ks generalizing sps with
  | nil =>
    cases sps with
    | nil => rfl
    | cons sp sps => cases h
  | cons k ks ih =>
    cases sps with
    | nil => cases h
    | cons sp sps =>
      simp only [wfSpecs, Bool.and_eq_true] at h
      obtain ⟨hsp, hsps⟩ := h
      simp [encodeSpecs, decodeSpecs, decodeSpec_encodeSpec hsp, ih hsps]

/-- An opcode's number from its bytes: the second byte of a two-byte opcode is the high one, and a one-byte opcode has a high
byte of zero (30_encoding.md R71, R84). -/
theorem Opcode.code_eq_from_bytes (o : Opcode) :
    o.code = if announcesSecondByte (o.code.extractLsb' 0 8) then o.code.extractLsb' 8 8 ++ o.code.extractLsb' 0 8
      else (o.code.extractLsb' 0 8).setWidth 16 := by
  cases o <;> decide +kernel

/-- The bytes of an opcode are read as that opcode, and nothing after them. -/
theorem decodeNative_bytes (o : Opcode) (rest : List Byte) :
    decodeNative (o.bytes ++ rest) = decodeAfterOpcode o.code o.bytes.length rest := by
  have hcode := o.code_eq_from_bytes
  by_cases h : announcesSecondByte (o.code.extractLsb' 0 8) = true
  · rw [if_pos h] at hcode
    simp [Opcode.bytes, decodeNative, h, ← hcode]
  · rw [if_neg h] at hcode
    simp [Opcode.bytes, decodeNative, h, ← hcode]

/-- A native instruction reads back. -/
theorem decodeNative_encode {i : Instr} {o : Opcode} {l : List Specifier} (hn : i.native = some (o, l))
    (hwf : wfSpecs o.operands l = true) (rest : List Byte) : decodeNative (encode i ++ rest) = .instr i rest := by
  have henc : encode i = o.bytes ++ encodeSpecs o.operands l := by simp only [encode, hn]
  rw [henc, List.append_assoc, decodeNative_bytes]
  simp only [decodeAfterOpcode, rowOfCode_code, decodeSpecs_encodeSpecs hwf, Opcode.build_native hn]

/-- The word of a compatibility-mode instruction is that instruction's. -/
theorem decodeCompatWord_compatWord {i : Instr} (hn : i.native = none) : decodeCompatWord i.compatWord = some i := by
  cases i with
  | bptCompat => rfl
  | iotCompat => rfl
  | emtCompat code => revert code; decide +kernel
  | trapCompat code => revert code; decide +kernel
  | _ => cases hn

/-- A word's high byte and low byte make the word. -/
theorem highByte_append_lowByte (w : Word) : (BitVec.ofNat 8 (w.toNat / 256) ++ BitVec.ofNat 8 w.toNat : Word) = w := by
  have hw := w.isLt
  apply BitVec.eq_of_toNat_eq
  have happend := Nat.shiftLeft_add_eq_or_of_lt (show w.toNat % 256 < 2 ^ 8 by omega) (w.toNat / 256 % 256)
  rw [Nat.shiftLeft_eq] at happend
  simp only [BitVec.toNat_append, BitVec.toNat_ofNat, Nat.shiftLeft_eq, Nat.reducePow] at happend ⊢
  omega

/-- A compatibility-mode instruction reads back. -/
theorem decodeCompat_encode {i : Instr} (hn : i.native = none) (rest : List Byte) :
    decodeCompat (encode i ++ rest) = .instr i rest := by
  simp only [encode, hn, leBytes, List.cons_append, List.nil_append, decodeCompat, highByte_append_lowByte,
    decodeCompatWord_compatWord hn]

/-- A well-formed instruction reads back in its own instruction set, whatever bytes follow. -/
theorem decode_encode_append {i : Instr} (h : i.wf = true) (rest : List Byte) :
    decode i.native.isNone (encode i ++ rest) = .instr i rest := by
  cases hn : i.native with
  | none => exact decodeCompat_encode hn rest
  | some r =>
    obtain ⟨o, l⟩ := r
    have hwf : wfSpecs o.operands l = true := by simpa only [Instr.wf, hn] using h
    exact decodeNative_encode hn hwf rest

/-- No instruction is longer than the step reads of the instruction stream (log 42). -/
theorem Instr.length_le_fetchSpan (i : Instr) : i.length ≤ fetchSpan := by
  cases hn : i.native with
  | none => simp only [Instr.length, encode, hn, leBytes_length, fetchSpan]; omega
  | some r => exact (Laws.FitsFetch.of_native hn).2

end Sys2Proof
end

section
/-! SUPPORT. Instruction fetch (20_memory.md R60): which bytes a fetch of one byte may see, and that it sees the bytes in memory
where nothing has been stored over since the last REI. -/

namespace Sys2Proof.Machine

open Sys2Proof

/-- What a fetch may see at an address: the byte in memory, or one that a store since the last REI has replaced. -/
theorem State.mem_fetchCandidates {s : State} {pa : Longword} {b : Byte} :
    b ∈ s.fetchCandidates pa ↔ b = s.physicalByte pa ∨ (pa.toNat, b) ∈ s.staleCode := by
  simp only [State.fetchCandidates, List.mem_cons, List.mem_map, List.mem_filter, beq_iff_eq]
  refine or_congr_right ⟨?_, fun h => ⟨_, ⟨h, rfl⟩, rfl⟩⟩
  rintro ⟨⟨a, c⟩, ⟨hmem, rfl⟩, rfl⟩
  exact hmem

/-- A byte that nothing has been stored over has one candidate. -/
theorem State.fetchCandidates_of_not_stale {s : State} {pa : Longword} (h : ∀ b, (pa.toNat, b) ∉ s.staleCode) :
    s.fetchCandidates pa = [s.physicalByte pa] := by
  have hnone : (s.staleCode.filter fun c => c.1 == pa.toNat) = [] := by
    refine List.filter_eq_nil_iff.2 ?_
    rintro ⟨a, b⟩ hmem heq
    exact h b (by rwa [← beq_iff_eq.1 heq])
  rw [State.fetchCandidates, hnone, List.map_nil]

/-- A byte that can be fetched is the candidate the draw names; where there is one candidate, that one whatever the draw. -/
theorem State.fetchByte_eq {s : State} {k : Nat} {pa : Longword}
    (h : s.physical s.psl.cur .read (addrAdd s.pc k) = .ok pa) :
    s.fetchByte k = .ok ((s.fetchCandidates pa).getD
      ((Config.draw (s.draws + k)).toNat % (s.fetchCandidates pa).length) 0) := by
  simp only [State.fetchByte, h]
  split
  · next b hone => simp [hone, Nat.mod_one]
  · rfl

/-- A byte that nothing has been stored over is fetched as it stands in memory. -/
theorem State.fetchByte_of_not_stale {s : State} {k : Nat} {pa : Longword}
    (h : s.physical s.psl.cur .read (addrAdd s.pc k) = .ok pa) (hs : ∀ b, (pa.toNat, b) ∉ s.staleCode) :
    s.fetchByte k = .ok (s.physicalByte pa) := by
  simp [State.fetchByte_eq h, State.fetchCandidates_of_not_stale hs, Nat.mod_one]

/-- Bytes that can be read and have not been stored over are what a fetch begins with; of those after them nothing is asked. -/
theorem State.fetchFrom_of_readBytes {s : State} (hs : s.staleCode = []) {m n k : Nat} (hmn : m ≤ n) {bs : List Byte}
    (h : s.readBytes s.psl.cur m (addrAdd s.pc k) = .ok bs) : ∃ rest, (s.fetchFrom n k).1 = bs ++ rest := by
  induction m generalizing n k bs with
  | zero => cases h; exact ⟨_, rfl⟩
  | succ m ih =>
    obtain ⟨n, rfl⟩ : ∃ n', n = n' + 1 := ⟨n - 1, by omega⟩
    simp only [State.readBytes] at h
    split at h
    · cases h
    · next pa hpa =>
      split at h
      · cases h
      · next later hlater =>
        cases h
        have hnext : addrAdd s.pc k + 1 = addrAdd s.pc (k + 1) := by
          simp [addrAdd, BitVec.ofNat_add, BitVec.add_assoc]
        rw [hnext] at hlater
        obtain ⟨rest, hrest⟩ := ih (Nat.le_of_succ_le_succ hmn) hlater
        have hbyte := State.fetchByte_of_not_stale hpa (by simp [hs])
        exact ⟨rest, by simp [State.fetchFrom, hbyte, hrest]⟩

/-- Where T is sampled the bytes that can be read are the same. -/
theorem State.readBytes_sampleTrace (s : State) (m : Mode) (n : Nat) (va : Longword) :
    s.sampleTrace.readBytes m n va = s.readBytes m n va :=
  State.readBytes_congr (s := s) (t := s.sampleTrace) rfl m n va fun _ _ _ _ => rfl

/-- A step with no trace owed and a fetch that is not odd runs what the fetched bytes decode to (43_trace.md R209). -/
theorem step_of_decode {s : State} {i : Instr} {rest : List Byte} (htp : s.psl.tp = false)
    (hodd : s.sampleTrace.oddFetch = false) (h : decode s.psl.cm s.sampleTrace.fetchWindow.1 = .instr i rest) :
    step s = exec i s.sampleTrace.afterFetch := by
  simp [step, beginStep, fetchInstruction, htp, hodd, h]

/-- An instruction that stands in memory at the PC, with no older code visible, is what the step runs. -/
theorem step_of_stored {s : State} {i : Instr} (hwf : i.wf = true) (htp : s.psl.tp = false) (hstale : s.staleCode = [])
    (hcm : i.native.isNone = s.psl.cm) (heven : s.psl.cm = true → s.pc.getLsbD 0 = false)
    (hmem : s.readBytes s.psl.cur i.length s.pc = .ok (encode i)) : step s = exec i s.sampleTrace.afterFetch := by
  have hodd : s.sampleTrace.oddFetch = false := by simpa [State.oddFetch] using heven
  have hread : s.sampleTrace.readBytes s.sampleTrace.psl.cur i.length (addrAdd s.sampleTrace.pc 0) = .ok (encode i) := by
    rw [State.readBytes_sampleTrace, addrAdd_zero]
    exact hmem
  obtain ⟨rest, hfetch⟩ := State.fetchFrom_of_readBytes (s := s.sampleTrace) hstale i.length_le_fetchSpan hread
  refine step_of_decode htp hodd (rest := rest) ?_
  rw [State.fetchWindow, hfetch, ← hcm]
  exact decode_encode_append hwf rest

/-- After a store, at each byte stored, a fetch may see the new byte and the old one. -/
theorem State.store_fetchCandidates {s s' : State} {bs : List Byte} {va pa : Longword} (h : s.store bs va = .ok s') {i : Nat}
    (hi : i < bs.length) (hp : s.physical s.psl.cur .write (addrAdd va i) = .ok pa) :
    s'.physicalByte pa ∈ s'.fetchCandidates pa ∧ s.physicalByte pa ∈ s'.fetchCandidates pa := by
  refine ⟨State.mem_fetchCandidates.2 (.inl rfl), State.mem_fetchCandidates.2 (.inr ?_)⟩
  rw [State.store_staleCode h]
  exact List.mem_append_left _ (State.mem_oldCells hi hp)

/-- Settles O5: the fetch begins with the stored instruction's bytes, which decode to it; a fetched byte is one of its
candidates; a store adds the bytes it replaces to them. -/
theorem stepRunsStoredInstruction : Obligations.StepRunsStoredInstruction :=
  ⟨fun _ _ hwf htp hstale hcm heven hmem => step_of_stored hwf htp hstale hcm heven hmem,
    fun _ _ _ hp => ⟨State.fetchByte_eq hp, fun _ => State.mem_fetchCandidates, State.fetchByte_of_not_stale hp⟩,
    fun _ _ _ _ h _ hi _ hp => State.store_fetchCandidates h hi hp⟩

end Sys2Proof.Machine
end

section
/-! SUPPORT. PSL_LAYOUT (10_state.md R24, R33): where a longword's PSL fields are, for the PSL an exception pushes and for the
one REI pops. -/

namespace Sys2Proof.Machine

open Sys2Proof

@[simp] theorem modeBits_modeOfBits (b : BitVec 2) : modeBits (modeOfBits b) = b := by
  revert b; decide

/-- `Psl.unpack` reads every field from its place in the layout; the mode fields hold the modes' numbers. -/
theorem pslLayout_unpack (w : Longword) : pslLayout (Psl.unpack w) w where
  c := rfl
  v := rfl
  z := rfl
  n := rfl
  t := rfl
  iv := rfl
  fu := rfl
  dv := rfl
  ipl := rfl
  prv := (modeBits_modeOfBits _).symm
  cur := (modeBits_modeOfBits _).symm
  is := rfl
  fpd := rfl
  tp := rfl
  cm := rfl

/-- A packed PSL has the layout, since unpacking it gives the PSL back. -/
theorem pslLayout_pack (p : Psl) : pslLayout p p.pack := by
  simpa only [Psl.unpack_pack] using pslLayout_unpack p.pack

/-- The packed PSL is its low byte, a byte of zeros and its high word. -/
theorem Psl.pack_getLsbD (p : Psl) (i : Nat) :
    p.pack.getLsbD i = if i < 8 then p.lowByte.getLsbD i else if i < 16 then false else p.highWord.getLsbD (i - 16) := by
  simp only [Psl.pack, BitVec.getLsbD_setWidth, BitVec.getLsbD_append, Nat.sub_sub]
  by_cases hlow : i < 8
  · simp [hlow, show i < 32 by omega]
  by_cases hmid : i < 16
  · simp [hlow, hmid, show i < 32 by omega, show i - 8 < 8 by omega]
  · by_cases hin : i < 32
    · simp [hlow, hmid, hin, show ¬ i - 8 < 8 by omega]
    · simp [hlow, hmid, hin, BitVec.getLsbD_of_ge p.highWord (i - 16) (by omega)]

/-- The bits of the high word that hold no field, 5 and 13:12, are zero. -/
theorem Psl.highWord_zeros (p : Psl) :
    p.highWord.getLsbD 5 = false ∧ p.highWord.getLsbD 12 = false ∧ p.highWord.getLsbD 13 = false := by
  simp only [Psl.highWord, BitVec.getLsbD_setWidth, BitVec.getLsbD_append]
  simp

/-- The byte between the PSW and the high word is zero. -/
theorem Psl.pack_byte1 (p : Psl) : p.pack.extractLsb' 8 8 = 0#8 := by
  ext i hi
  simp only [BitVec.getElem_extractLsb', Psl.pack_getLsbD]
  simp [show 8 + i < 16 by omega]

/-- Bit 21, above IPL, is zero. -/
theorem Psl.pack_bit21 (p : Psl) : p.pack.getLsbD 21 = false := by
  rw [Psl.pack_getLsbD]
  exact p.highWord_zeros.1

/-- Bits 29:28, above FPD, are zero. -/
theorem Psl.pack_bits28 (p : Psl) : p.pack.extractLsb' 28 2 = 0#2 := by
  obtain ⟨-, h12, h13⟩ := p.highWord_zeros
  ext i hi
  simp only [BitVec.getElem_extractLsb', Psl.pack_getLsbD]
  obtain rfl | rfl : i = 0 ∨ i = 1 := by omega
  · simpa using h12
  · simpa using h13

end Sys2Proof.Machine
end

section
/-! SUPPORT. Taking an exception where its frame can be pushed, returning from one where REI's checks pass, and the reset
state's form. -/

namespace Sys2Proof.Machine

open Sys2Proof

/-- Settles O12: where the frame can be pushed `initiate` answers a next state, and a next state of it is the routine entered;
the PSL pushed has the layout, with the bits that hold no field zero. -/
theorem initiateEntersRoutine : Obligations.InitiateEntersRoutine := by
  refine ⟨fun p => ⟨pslLayout_pack p, p.pack_byte1, p.pack_bit21, p.pack_bits28⟩, fun e pc p s hcan => ?_⟩
  obtain ⟨t, hnext⟩ := initiate_of_canEnter hcan
  exact ⟨t, hnext, (initiate_next hnext).1⟩

/-- REI ends as `returnFromException` does, and a return that completes is its next state. -/
theorem exec_rei_of_done {s t : State} (h : returnFromException s = .ok (.done t)) : exec .rei s = .next t := by
  show conclude s (returnFromException s) = .next t
  rw [h]
  rfl

/-- Settles O23: the state REI returns to is the one it began with, with the stack pointer raised, the popped PC and PSL taken
and the older code bytes forgotten; every other field is as it was. -/
theorem reiReturns : Obligations.ReiReturns := by
  refine ⟨pslLayout_unpack, fun s newPc w hpc hw hmode his hipl => ?_⟩
  have hdone := returnFromException_ok hpc hw hmode his hipl
  refine ⟨_, exec_rei_of_done hdone, rfl, rfl, ?_, ?_, rfl, rfl, rfl, returnFromException_setting hdone, rfl⟩
  · exact StackPointers.get_set_same s.sps s.psl.stack (s.sp + 8)
  · exact fun i hi => StackPointers.get_set_other s.sps s.psl.stack i (s.sp + 8) hi

/-- The reset parameters are such as the spec demands (60_exceptions.md R235, 20_memory.md R53): the default offsets are
multiples of 4, and no opcode is configured. -/
theorem State.reset_configWf : State.reset.configWf := by
  refine ⟨by decide, rfl, ?_, .inl rfl, ?_, ?_⟩
  · simp [State.reset, defaultConfig, defaultVectors]
  · exact List.forall_mem_nil _
  · exact List.forall_mem_nil _

/-- Settles O21: the reset memory lists no cell, and the reset parameters are checked one by one. -/
theorem resetMemoryForm : Obligations.ResetMemoryForm :=
  ⟨State.reset_memory_wf, State.reset_configWf⟩

end Sys2Proof.Machine
end

section
/-! SUPPORT. Class instructions with a specifier as destination (40_arithmetic_exceptions.md R118 to R122): what gathering their
sources gives, and the class's rule as an equation per class. -/

namespace Sys2Proof.Machine

open Sys2Proof

/-- Scalar sources give their values, no string, and leave the operands after them. -/
theorem gatherSources_scalars (types : List OpType) (os left : List Evaluated) (s : State)
    (hlen : os.length = types.length) :
    gatherSources (types.map .scalar) (os ++ left) s = .ok (os.map Evaluated.value, [], left) := by
  induction types generalizing os with
  | nil =>
    obtain rfl := List.length_eq_zero_iff.1 hlen
    simp [gatherSources]
  | cons t types ih =>
    cases os with
    | nil => cases hlen
    | cons o os => simp [gatherSources, ih os (Nat.succ.inj hlen)]

/-- One string source gives the string, where it can be read, and leaves the operands after its length and address. -/
theorem gatherSources_string (len addr : Evaluated) (left : List Evaluated) (s : State) :
    gatherSources [.string] (len :: addr :: left) s = (readString len addr s).map fun str => ([], [str], left) := by
  simp only [gatherSources]
  cases readString len addr s <;> rfl

/-- The values that the oracle of a class instruction sees: those of its scalar sources, then the destination's old value where
the instruction modifies it. -/
def classInputs (c : ClassOp) (vs : List Octaword) (dst : Evaluated) : List Octaword :=
  vs ++ if c.modify then [dst.value] else []

theorem classInputs_eq (c : ClassOp) (vs : List Octaword) (dst : Evaluated) :
    (if c.modify then vs ++ [dst.value] else vs) = classInputs c vs dst := by
  unfold classInputs
  split
  · rfl
  · exact (List.append_nil vs).symm

section

variable (c : ClassOp) (vs : List Octaword) (strs : List DecimalString) (dst : Evaluated) (s : State)

theorem runScalarClass_int (hkind : c.kind = .int) (hdest : c.dest.float = none) :
    runScalarClass c vs strs dst s =
      classInt c.dest (Config.intOutcome c.opcode (classInputs c vs dst) strs).correct
        (Config.intOutcome c.opcode (classInputs c vs dst) strs).carry dst.place
        (if strs.isEmpty then s else s.drawStringRegs) := by
  simp only [runScalarClass, classInputs_eq, hkind, hdest]

theorem runScalarClass_flt {t : FloatType} (hkind : c.kind = .flt) (hdest : c.dest.float = some t) :
    runScalarClass c vs strs dst s =
      classFlt t (Config.floatOutcome c.opcode (classInputs c vs dst) strs) dst.place
        (if strs.isEmpty then s else s.drawStringRegs) := by
  simp only [runScalarClass, classInputs_eq, hkind, hdest]

/-- The divisor is the first input, the dividend the second. -/
theorem runScalarClass_idiv {divisor dividend : Octaword} {rest : List Octaword} (hkind : c.kind = .idiv)
    (hdest : c.dest.float = none) (hinputs : classInputs c vs dst = divisor :: dividend :: rest) :
    runScalarClass c vs [] dst s = classIdiv c.dest dividend divisor dst.place s := by
  simp only [runScalarClass, classInputs_eq, hkind, hdest, hinputs]

/-- The divisor is the first input, the dividend the second. -/
theorem runScalarClass_fdiv {t : FloatType} {divisor dividend : Octaword} {rest : List Octaword} (hkind : c.kind = .fdiv)
    (hdest : c.dest.float = some t) (hinputs : classInputs c vs dst = divisor :: dividend :: rest) :
    runScalarClass c vs [] dst s =
      classFdiv t dividend divisor (Config.floatOutcome c.opcode (classInputs c vs dst) []) dst.place s := by
  simp only [runScalarClass, classInputs_eq, hkind, hdest, hinputs]

end

section

variable {c : ClassOp} {n : Nat} {specs : List Specifier} {s s' : State} {os : List Evaluated} {dst : Evaluated}
  {next : Longword}

/-- A class instruction on scalars alone, once its operands are evaluated, whatever FPD is. -/
theorem execClass_scalars {types : List OpType} (hkind : c.kind.isDecimal = false) (hsources : c.sources = types.map .scalar)
    (hlen : os.length = types.length)
    (heval : evalOperands c.operands specs (addrAdd s.pc n) s = .ok (os ++ [dst], next, s')) :
    execClass c n specs s = conclude s (runScalarClass c (os.map Evaluated.value) [] dst (s'.setPc next)) := by
  have hstrings : c.usesStrings = false := by simp [ClassOp.usesStrings, hkind, hsources]
  have hgather : gatherSources c.sources (os ++ [dst]) s' = .ok (os.map Evaluated.value, [], [dst]) := by
    rw [hsources, gatherSources_scalars types os [dst] s' hlen]
  simp [execClass, hstrings, heval, hgather, hkind]

/-- A class instruction on one decimal string, once its operands are evaluated: a string that cannot be read stops it. -/
theorem execClass_string {len addr : Evaluated} (hkind : c.kind.isDecimal = false) (hsources : c.sources = [.string])
    (hfpd : s.psl.fpd = false)
    (heval : evalOperands c.operands specs (addrAdd s.pc n) s = .ok ([len, addr, dst], next, s')) :
    execClass c n specs s =
      match readString len addr s' with
      | .error e => raiseStop s e
      | .ok str => conclude s (runScalarClass c [] [str] dst (s'.setPc next)) := by
  have hgather : gatherSources c.sources [len, addr, dst] s' =
      (readString len addr s').map fun str => ([], [str], [dst]) := by
    rw [hsources, gatherSources_string]
  simp only [execClass, hfpd, Bool.and_false, heval, hgather, hkind]
  cases readString len addr s' <;> rfl

end

/-- Once a string has been read, R0 to R5 are free values; nothing else has changed but the draws used. -/
theorem State.drawStringRegs_setPc (s : State) (next : Longword) :
    let drawn := (s.setPc next).drawStringRegs
    (∀ q : Reg, q.val < 6 → drawn.getReg q = Config.draw (s.draws + q.val)) ∧
      (∀ q : Reg, 6 ≤ q.val → drawn.getReg q = (s.setPc next).getReg q) ∧
      drawn = { s.setPc next with regs := drawn.regs, draws := s.draws + 6 } := by
  refine ⟨fun q hq => ?_, fun q hq => ?_, rfl⟩
  · rw [State.drawStringRegs_getReg, if_pos hq]
    rfl
  · rw [State.drawStringRegs_getReg, if_neg (by omega)]

/-- Settles O44: the evaluated operands are gathered into the oracle's inputs, and each class's equation says how its rule is
applied to the outcome; a string source is read first, and leaves R0 to R5 free. -/
theorem scalarClassInstructions : Obligations.ScalarClassInstructions := by
  constructor
  · intro c n specs s s' len addr dst next hsources hfpd heval
    refine ⟨s'.drawStringRegs_setPc next, fun hkind hdest => ?_, fun t hkind hdest => ?_⟩
    · rw [execClass_string (by rw [hkind]; rfl) hsources hfpd heval]
      simp only [runScalarClass_int c _ _ dst _ hkind hdest]
      rfl
    · rw [execClass_string (by rw [hkind]; rfl) hsources hfpd heval]
      simp only [runScalarClass_flt c _ _ dst _ hkind hdest]
      rfl
  · intro c n specs types s s' os dst next inputs hsources hlen heval hinputs
    obtain rfl : classInputs c (os.map Evaluated.value) dst = inputs := hinputs.symm
    have hrun (hkind : c.kind.isDecimal = false) := execClass_scalars hkind hsources hlen heval
    refine ⟨fun hkind hdest => ?_, fun hkind hdest divisor dividend rest hdiv => ?_, fun t hkind hdest => ?_,
      fun t hkind hdest divisor dividend rest hdiv => ?_⟩
    · rw [hrun (by rw [hkind]; rfl), runScalarClass_int c _ _ dst _ hkind hdest]
      rfl
    · rw [hrun (by rw [hkind]; rfl), runScalarClass_idiv c _ dst _ hkind hdest hdiv]
    · rw [hrun (by rw [hkind]; rfl), runScalarClass_flt c _ _ dst _ hkind hdest]
      rfl
    · rw [hrun (by rw [hkind]; rfl), runScalarClass_fdiv c _ dst _ hkind hdest hdiv]

end Sys2Proof.Machine
end

section
/-! SUPPORT. No step breaks memory's canonical form (20_memory.md R50): of a step's ways to a next state (`step_next`), each
changes memory by byte writes alone, or not at all. -/

namespace Sys2Proof.Machine

open Sys2Proof

/-- An instruction other than REI keeps the form of memory, also where it ends in an exception's routine. -/
theorem ordinaryAnswer.wf {s t : State} (h : ordinaryAnswer s t) (hs : s.wf) : t.wf := by
  rcases h with hord | ⟨e, pc, p, u, hord, -, -, hinit⟩
  · exact hord.wf hs
  · exact (initiate_next hinit).2 (hord.wf hs)

/-- REI leaves memory as it is. -/
theorem returnFromException_mem {s t : State} (h : returnFromException s = .ok (.done t)) : t.mem = s.mem := by
  obtain ⟨_, _, -, -, -, -, -, hdone⟩ := returnFromException_done h
  cases hdone
  rfl

/-- Settles O20: what begins a step leaves memory in its form, and so do REI and every other way on. -/
theorem stepKeepsMemoryForm : Obligations.StepKeepsMemoryForm := by
  intro s t hs hstep
  obtain ⟨u, hbegun, ⟨-, hrei⟩ | hord⟩ := step_next hstep
  · rw [State.wf, returnFromException_mem hrei]
    exact hbegun.wf hs
  · exact hord.wf (hbegun.wf hs)

end Sys2Proof.Machine
end

section
/-! SUPPORT. `Initiate` by the code of its vector (60_exceptions.md R235, R236): the codes that are not served, and the stuck
push. -/

namespace Sys2Proof.Machine

open Sys2Proof

/-- Entering a routine is stuck where a byte of its frame cannot be written. -/
theorem enterRoutine_of_not_canWrite {e : Exc} {pc : Longword} {p : Psl} {s : State}
    (h : ¬ s.canWrite (e.newMode s.psl.cur)
      (s.sps.get (serviceStack e s.psl (vectorCode (s.vector e))) - BitVec.ofNat 32 (4 * (e.frame pc p s).length))
      (4 * (e.frame pc p s).length)) :
    enterRoutine e pc p s = .fault .servicePushFault := by
  rw [← State.pushFrame_ok_iff] at h
  simp only [enterRoutine]
  split
  · rfl
  · next hpush => exact absurd ⟨_, hpush⟩ h

section

variable {e : Exc} (pc : Longword) (p : Psl) {s : State}

theorem initiate_of_microcode (h : e = .customerReservedOpcode ∧ s.config.xfcMicrocode = true) :
    initiate e pc p s = .refused .customerMicrocode := if_pos h

variable (h : ¬ (e = .customerReservedOpcode ∧ s.config.xfcMicrocode = true))

include h

theorem initiate_of_writableControlStore (hcode : vectorCode (s.vector e) = .writableControlStore) :
    initiate e pc p s = .refused .writableControlStore := by
  rw [initiate, if_neg h, hcode]

theorem initiate_of_reservedCode (hcode : vectorCode (s.vector e) = .reserved) :
    initiate e pc p s = .fault .reservedVectorCode := by
  rw [initiate, if_neg h, hcode]

/-- The codes 0 and 1 are served. -/
theorem initiate_of_servedCode
    (hcode : vectorCode (s.vector e) = .kernelStack ∨ vectorCode (s.vector e) = .interruptStack) :
    initiate e pc p s = enterRoutine e pc p s := by
  rcases hcode with hcode | hcode <;> rw [initiate, if_neg h, hcode]

end

/-- Settles O13: microcode is asked first, then the vector's code, and the frame is pushed where the code is served. -/
theorem initiateStops : Obligations.InitiateStops := fun _ pc p _ =>
  ⟨initiate_of_microcode pc p, fun hmicro =>
    ⟨initiate_of_writableControlStore pc p hmicro, initiate_of_reservedCode pc p hmicro, fun hcode hpush =>
      (initiate_of_servedCode pc p hmicro hcode).trans (enterRoutine_of_not_canWrite hpush)⟩⟩

end Sys2Proof.Machine
end

section
/-! SUPPORT. The longwords of a wide value, and where a register operand of 4, 8 or 16 bytes holds them: register by register
from its own up, lowest first (log 16), and, past R14, in a free value (log 14). -/

namespace Sys2Proof.Machine

open Sys2Proof

/-- Longword `k` of a number, the lowest one first. -/
def longPart (k x : Nat) : Longword := BitVec.ofNat 32 (x / 2 ^ (32 * k))

theorem extractLsb'_eq_longPart (v : Octaword) (k : Nat) : v.extractLsb' (32 * k) 32 = longPart k v.toNat := by
  simp only [BitVec.extractLsb', longPart, Nat.shiftRight_eq_div_pow]

/-- The longwords below the `n`-th do not see what is dropped from there up. -/
theorem longPart_mod {k n : Nat} (h : k < n) (x : Nat) : longPart k (x % 2 ^ (32 * n)) = longPart k x := by
  refine BitVec.eq_of_getLsbD_eq fun i hi => ?_
  have hlow : i + 32 * k < 32 * n := by omega
  simp only [longPart, BitVec.getLsbD_ofNat, Nat.testBit_div_two_pow, Nat.testBit_mod_two_pow, hlow, decide_true,
    Bool.true_and]

/-- Where `x` fills `n` longwords, those above are the longwords of `y`. -/
theorem longPart_above {n x : Nat} (h : x < 2 ^ (32 * n)) (k y : Nat) :
    longPart (n + k) (x + 2 ^ (32 * n) * y) = longPart k y := by
  have hdiv : (x + 2 ^ (32 * n) * y) / 2 ^ (32 * n) = y := by
    rw [Nat.add_mul_div_left _ _ (by positivity), Nat.div_eq_of_lt h, Nat.zero_add]
  rw [longPart, Nat.mul_add, Nat.pow_add, ← Nat.div_div_eq_div_mul, hdiv, longPart]

/-- Where `x` fills `n` longwords, those below the `n`-th are the longwords of `x`. -/
theorem longPart_below {n x k : Nat} (h : x < 2 ^ (32 * n)) (hk : k < n) (y : Nat) :
    longPart k (x + 2 ^ (32 * n) * y) = longPart k x := by
  rw [← longPart_mod hk, Nat.add_mul_mod_self_left, Nat.mod_eq_of_lt h]

/-! Registers read as one value. -/

theorem reg_val_lt_of_ne_pc {r : Reg} (h : r ≠ 15) : r.val < 15 :=
  Nat.lt_of_le_of_ne (Nat.le_of_lt_succ r.isLt) fun e => h (Fin.ext e)

theorem readRegs_lt (s : State) (n : Nat) (r : Reg) : s.readRegs n r < 2 ^ (32 * n) := by
  induction n generalizing r with
  | zero => simp [State.readRegs]
  | succ n ih =>
    have hlow := (s.getReg r).isLt
    have hrest := ih (r + 1)
    rw [State.readRegs, Nat.mul_succ, Nat.pow_add]
    omega

/-- Longword `k` of the registers from `r` up is register `r + k`. -/
theorem longPart_readRegs (s : State) {n k : Nat} {r : Reg} (hk : k < n) (hr : r.val + k < 16) :
    longPart k (s.readRegs n r) = s.getReg (Fin.ofNat 16 (r.val + k)) := by
  induction n generalizing k r with
  | zero => omega
  | succ n ih =>
    have hlow : (s.getReg r).toNat < 2 ^ (32 * 1) := (s.getReg r).isLt
    cases k with
    | zero =>
      show _ = s.getReg (Fin.ofNat 16 r.val)
      rw [Fin.ofNat_val_eq_self]
      exact (longPart_below hlow Nat.one_pos _).trans (by simp [longPart])
    | succ k =>
      have hnext := reg_succ_val r (by omega)
      rw [show r.val + (k + 1) = (r + 1).val + k by omega, ← ih (by omega) (by omega), Nat.add_comm k 1]
      exact longPart_above hlow k _

/-- A register written among `n` from `r` up, none of them the PC, takes its longword of the value. -/
theorem getReg_writeRegs (s : State) {n : Nat} {r q : Reg} (v : Nat) (h : r.val + n ≤ 15) (hrq : r.val ≤ q.val)
    (hq : q.val < r.val + n) : (s.writeRegs n r v).getReg q = longPart (q.val - r.val) v := by
  have hk : q.val - r.val < n := by omega
  have hread := longPart_readRegs (s.writeRegs n r v) hk (r := r) (by omega)
  rw [readRegs_writeRegs s n r v h, longPart_mod hk, Nat.add_sub_of_le hrq, Fin.ofNat_val_eq_self] at hread
  exact hread.symm

theorem State.getReg_setPc (s : State) (v : Longword) {q : Reg} (h : q ≠ 15) : (s.setPc v).getReg q = s.getReg q :=
  State.getReg_setReg_other s 15 q v h

/-! Register operands. -/

/-- A type of at least 4 bytes is a whole number of longwords, at most four. -/
theorem opType_size_longwords {t : OpType} (h : 4 ≤ t.size) :
    256 ^ t.size = 2 ^ (32 * (t.size / 4)) ∧ regCount t = t.size / 4 ∧ t.size / 4 ≤ 4 := by
  cases t <;> revert h <;> decide

/-- The longwords of a value cut to an operand's size are those of the value. -/
theorem extractLsb'_ofNat_size {t : OpType} (h : 4 ≤ t.size) {k : Nat} (hk : k < t.size / 4) (x : Nat) :
    (BitVec.ofNat 128 (x % 256 ^ t.size)).extractLsb' (32 * k) 32 = longPart k x := by
  obtain ⟨hsize, -, hle⟩ := opType_size_longwords h
  rw [extractLsb'_eq_longPart, BitVec.toNat_ofNat, longPart_mod (n := 4) (by omega), hsize, longPart_mod hk]

/-- A register operand read: its longwords are the registers up to R14, then those of the free value (log 14, 16). -/
theorem readPlace_reg_longwords {s : State} {t : OpType} {r : Reg} {next : Longword} {v : Octaword} {k : Nat}
    (h : 4 ≤ t.size) (hk : k < t.size / 4) (hread : s.readPlace t next (.reg r) = .ok v) :
    (r.val + k < 15 → v.extractLsb' (32 * k) 32 = s.getReg (Fin.ofNat 16 (r.val + k))) ∧
    (15 ≤ r.val + k → v.extractLsb' (32 * k) 32 =
      (Config.pcOperand s.draws next).extractLsb' (32 * (r.val + k - 15)) 32) := by
  obtain ⟨-, hcount, -⟩ := opType_size_longwords h
  have hr := r.isLt
  cases hread
  split
  · have hbelow := readRegs_lt s (15 - r.val) r
    rw [State.readPastRegs, extractLsb'_ofNat_size h hk]
    refine ⟨fun hlow => ?_, fun hhigh => ?_⟩
    · rw [longPart_below hbelow (by omega), longPart_readRegs s (by omega) (by omega)]
    · have hsplit : k = 15 - r.val + (r.val + k - 15) := by omega
      conv_lhs => rw [hsplit]
      rw [longPart_above hbelow, extractLsb'_eq_longPart]
  · next hpc =>
    simp only [reachesPc, decide_eq_true_eq] at hpc
    rw [State.readRegOperand, extractLsb'_ofNat_size h hk]
    exact ⟨fun _ => longPart_readRegs s (by omega) (by omega), fun hhigh => by omega⟩

/-- A register operand that reaches the PC, written: the registers below its own keep their values, those up to R14 take
their longwords, the PC becomes a free value, and nothing else changes (log 14). -/
theorem writePastRegs_spec (s : State) {r : Reg} (v : Octaword) (hr : r ≠ 15) :
    (s.writePastRegs r v).pc = (Config.pcOperand s.draws s.pc).extractLsb' 96 32 ∧
    (∀ q : Reg, q ≠ 15 → (s.writePastRegs r v).getReg q =
      if q.val < r.val then s.getReg q else v.extractLsb' (32 * (q.val - r.val)) 32) ∧
    onlyRegisters s ((s.writePastRegs r v).setPc s.pc) := by
  have hr15 := reg_val_lt_of_ne_pc hr
  have hwritten := onlyRegisters_writeRegs s (15 - r.val) r v.toNat (by omega)
  refine ⟨rfl, fun q hq => ?_, ?_⟩
  · have hq15 := reg_val_lt_of_ne_pc hq
    rw [State.writePastRegs, State.getReg_setPc _ _ hq]
    split
    · next hlow => exact getReg_writeRegs_other s _ r _ (by omega) q (.inl hlow)
    · rw [getReg_writeRegs s _ (by omega) (by omega) (by omega), extractLsb'_eq_longPart]
  · rw [State.writePastRegs, onlyRegisters, hwritten]
    rfl

end Sys2Proof.Machine
end

section
/-! SUPPORT. Evaluated operands, form by form (30_encoding.md R75): a register, a literal, an immediate, a longword in memory. -/

namespace Sys2Proof.Machine

open Sys2Proof

theorem evalOperand_register {k : OperandKind} {r : Reg} (hk : k.access ≠ .address) (hr : r ≠ 15) (pos : Longword)
    (s : State) : evalOperand k (.plain (.register r)) pos s = accessPlace k (.reg r) (addrAdd pos 1) s := by
  simp only [evalOperand, hk, hr, if_false]
  rfl

theorem evalOperand_deferred (k : OperandKind) {r : Reg} (hr : r ≠ 15) (pos : Longword) (s : State) :
    evalOperand k (.plain (.deferred r)) pos s = accessPlace k (.mem (s.getReg r)) (addrAdd pos 1) s := by
  simp only [evalOperand, baseAddress, hr, if_false]
  rfl

theorem evalOperand_indexed_deferred (k : OperandKind) {x r : Reg} (hx : x ≠ 15) (hr : r ≠ 15) (pos : Longword)
    (s : State) :
    evalOperand k (.indexed x (.deferred r)) pos s =
      accessPlace k (.mem (s.getReg r + s.getReg x * BitVec.ofNat 32 k.type.size)) (addrAdd pos 2) s := by
  simp only [evalOperand, baseAddress, hx, hr, if_false]
  rfl

/-- A place that is read or modified gives the value there, checked. -/
theorem accessPlace_of_readPlace {k : OperandKind} {p : Place} {next : Longword} {s : State} {v : Octaword}
    (hk : k.access = .read ∨ k.access = .modify) (hread : s.readPlace k.type next p = .ok v) :
    accessPlace k p next s = checkedOperand k v p next s := by
  rcases hk with hk | hk <;> simp only [accessPlace, hk, hread]

/-- No longword is a reserved operand. -/
theorem checkedOperand_long {k : OperandKind} (hk : k.type = .long) (v : Octaword) (p : Place) (next : Longword)
    (s : State) : checkedOperand k v p next s = .ok ⟨v, p, next, s⟩ := by
  rw [checkedOperand, hk]
  rfl

/-- Where a register operand is read, its longwords are those of the register's place. -/
theorem evalOperand_register_longwords {t : OpType} {r : Reg} {pos : Longword} {s : State} {o : Evaluated} (hr : r ≠ 15)
    (ht : 4 ≤ t.size) (h : evalOperand ⟨.read, t⟩ (.plain (.register r)) pos s = .ok o) :
    o.place = .reg r ∧ o.next = addrAdd pos 1 ∧ o.state = s ∧
    ∀ k < t.size / 4,
      (r.val + k < 15 → o.value.extractLsb' (32 * k) 32 = s.getReg (Fin.ofNat 16 (r.val + k))) ∧
      (15 ≤ r.val + k → o.value.extractLsb' (32 * k) 32 =
        (Config.pcOperand s.draws (addrAdd pos 1)).extractLsb' (32 * (r.val + k - 15)) 32) := by
  rw [evalOperand_register (fun hk => by cases hk) hr, accessPlace_of_readPlace (.inl rfl) rfl] at h
  obtain ⟨-, rfl⟩ := checkedOperand_ok h
  exact ⟨rfl, rfl, rfl, fun _ hk => readPlace_reg_longwords ht hk rfl⟩

/-- A longword register operand reads the register. -/
theorem evalOperand_register_long {r : Reg} (hr : r ≠ 15) (pos : Longword) (s : State) :
    ∃ o, evalOperand readLong (.plain (.register r)) pos s = .ok o ∧ o.long = s.getReg r ∧ o.place = .reg r ∧
      o.next = addrAdd pos 1 ∧ o.state = s := by
  obtain ⟨o, ho⟩ : ∃ o, evalOperand readLong (.plain (.register r)) pos s = .ok o := by
    rw [evalOperand_register (by decide) hr, accessPlace_of_readPlace (.inl rfl) rfl, checkedOperand_long rfl]
    exact ⟨_, rfl⟩
  obtain ⟨hplace, hnext, hstate, hlongs⟩ := evalOperand_register_longwords (t := .long) hr (by decide) ho
  have hlong := (hlongs 0 (by decide)).1 (reg_val_lt_of_ne_pc hr)
  rw [Nat.add_zero, Fin.ofNat_val_eq_self] at hlong
  refine ⟨o, ho, ?_, hplace, hnext, hstate⟩
  rw [← hlong]
  exact BitVec.setWidth_eq_extractLsb' (by decide)

/-- The longword of four bytes is what their octaword begins with. -/
theorem leOcta_setWidth (bs : List Byte) : (leOcta bs).setWidth 32 = leLong bs :=
  BitVec.setWidth_ofNat_of_le (by decide) _

/-- A register deferred longword operand that is modified reads the longword at the register's address. -/
theorem evalOperand_deferred_modify {r : Reg} (hr : r ≠ 15) {pos v : Longword} {s : State}
    (h : s.readLong (s.getReg r) = .ok v) :
    ∃ o, evalOperand modifyLong (.plain (.deferred r)) pos s = .ok o ∧ o.long = v ∧ o.place = .mem (s.getReg r) ∧
      o.next = addrAdd pos 1 ∧ o.state = s := by
  obtain ⟨bs, hbs, rfl⟩ := map_eq_ok h
  have hread : s.readPlace .long (addrAdd pos 1) (.mem (s.getReg r)) = .ok (leOcta bs) := by
    show (s.readBytes s.psl.cur 4 (s.getReg r)).map leOcta = _
    rw [hbs]
    rfl
  refine ⟨⟨leOcta bs, .mem (s.getReg r), addrAdd pos 1, s⟩, ?_, leOcta_setWidth bs, rfl, rfl, rfl⟩
  rw [evalOperand_deferred _ hr, accessPlace_of_readPlace (.inr rfl) hread, checkedOperand_long rfl]

/-- An immediate longword operand that is read has the value fetched, and is at the bytes before its end. -/
theorem evalOperand_immediate_read (v : Octaword) (pos : Longword) (s : State) :
    evalOperand readLong (.plain (.immediate v)) pos s = .ok ⟨v, .mem (addrAdd pos 1), addrAdd pos 5, s⟩ := by
  have hplace : addrAdd pos 5 - 4#32 = addrAdd pos 1 := by
    simp only [addrAdd]
    bv_omega
  rw [← hplace]
  rfl

/-- Settles O56: a register operand longword by longword, its write past R14, and the other forms one by one. -/
theorem operandValues : Obligations.OperandValues := by
  refine fun pos s => ⟨fun v => evalOperand_immediate_read v pos s,
    fun t r o hr ht h => evalOperand_register_longwords hr ht h, fun t r v hr hpc => ?_, fun v => rfl,
    fun r hr => evalOperand_register_long hr pos s, fun r hr v h => evalOperand_deferred_modify hr h,
    fun x r hx hr => ⟨_, evalOperand_indexed_deferred writeLong hx hr pos s, rfl, rfl, rfl⟩⟩
  obtain ⟨hpcValue, hregs, honly⟩ := writePastRegs_spec s v hr
  exact ⟨s.writePastRegs r v, by rw [State.writePlace, if_pos hpc], hpcValue, hregs, honly.mem', honly.staleCode',
    honly.psl', honly.setting⟩

end Sys2Proof.Machine
end

section
/-! SUPPORT. Encoding a decoding, level by level, the converse of the section "Decoding an encoding": bytes that a level
of the decoder accepts are the encoding of what it answers, which is well-formed, followed by the rest. -/

namespace Sys2Proof

/-- Bytes read as one number and written again are the bytes, where the number's width holds them all. -/
theorem leBytes_ofNat_leNat {w n : Nat} (hfits : 256 ^ n ≤ 2 ^ w) {bs : List Byte} (hlen : bs.length = n) :
    leBytes n (BitVec.ofNat w (leNat bs)).toNat = bs := by
  subst hlen
  rw [BitVec.toNat_ofNat, Nat.mod_eq_of_lt (Nat.lt_of_lt_of_le (leNat_lt bs) hfits), leBytes_leNat]

/-- The bytes of an immediate operand fit the octaword that holds them (30_encoding.md R75; log 49). -/
theorem opType_size_fits_octaword (t : OpType) : 256 ^ t.size ≤ 2 ^ 128 := by
  cases t <;> decide

/-- A specifier byte is its mode and its register. -/
theorem specByte_specReg {b : Byte} {m : BitVec 4} (hm : specMode b = m.toNat) : specByte m (specReg b) = b := by
  have hfield : b.extractLsb' 4 4 = m := BitVec.eq_of_toNat_eq hm
  rw [← hfield, specByte_fields]

/-- A specifier byte of modes 0 to 3 is the short literal in its low six bits. -/
theorem setWidth_extract_literal {b : Byte} (h : specMode b < 4) : (b.extractLsb' 0 6).setWidth 8 = b := by
  revert b
  decide +kernel

theorem specMode_lt (b : Byte) : specMode b < 16 := (b.extractLsb' 4 4).isLt

/-- A form that carries an extension: where its encoding is the specifier byte and the extension's bytes, what decoded
to it is its encoding. -/
theorem decodeExtension_encodes {t : OpType} {n : Nat} {b0 : Byte} {bs rest : List Byte} {mk : List Byte → BaseSpec}
    {b : BaseSpec} (h : decodeExtension n bs mk = some (b, rest))
    (hmk : ∀ ext, ext.length = n → encodeBase t (mk ext) = b0 :: ext ∧ (mk ext).wf t = true) :
    b0 :: bs = encodeBase t b ++ rest ∧ b.wf t = true := by
  obtain ⟨ext, hlen, rfl, rfl⟩ := decodeExtension_some h
  obtain ⟨henc, hwf⟩ := hmk ext hlen
  rw [henc]
  exact ⟨rfl, hwf⟩

/-- Bytes that decode to a base specifier are its encoding, unless they begin with an index byte. -/
theorem decodeBase_some {t : OpType} {b0 : Byte} {bs rest : List Byte} {b : BaseSpec} (hindex : specMode b0 ≠ 4)
    (h : decodeBase t (b0 :: bs) = some (b, rest)) : b0 :: bs = encodeBase t b ++ rest ∧ b.wf t = true := by
  have hplain (m : BitVec 4) (hm : specMode b0 = m.toNat) : b0 :: bs = [specByte m (specReg b0)] ++ bs := by
    rw [specByte_specReg hm]
    rfl
  have hextended {w n : Nat} (hfits : 256 ^ n ≤ 2 ^ w) (m : BitVec 4) (hm : specMode b0 = m.toNat) (ext : List Byte)
      (hlen : ext.length = n) :
      specByte m (specReg b0) :: leBytes n (BitVec.ofNat w (leNat ext)).toNat = b0 :: ext := by
    rw [specByte_specReg hm, leBytes_ofNat_leNat hfits hlen]
  simp only [decodeBase] at h
  split at h
  case h_1 hm => cases h; exact ⟨hplain 5 hm, rfl⟩
  case h_2 hm => cases h; exact ⟨hplain 6 hm, rfl⟩
  case h_3 hm => cases h; exact ⟨hplain 7 hm, rfl⟩
  case h_4 hm =>
    split at h
    · next hpc =>
      refine decodeExtension_encodes h fun ext hlen => ⟨?_, ?_⟩
      · rw [← hextended (opType_size_fits_octaword t) 8 hm ext hlen, hpc]
        rfl
      · have hlt := leNat_lt ext
        rw [hlen] at hlt
        simp only [BaseSpec.wf, leOcta, BitVec.toNat_ofNat, decide_eq_true_eq]
        exact Nat.lt_of_le_of_lt (Nat.mod_le _ _) hlt
    · next hpc => cases h; exact ⟨hplain 8 hm, by simpa [BaseSpec.wf] using hpc⟩
  case h_5 hm =>
    split at h
    · next hpc =>
      refine decodeExtension_encodes h fun ext hlen => ⟨?_, rfl⟩
      rw [← hextended (w := 32) (by decide) 9 hm ext hlen, hpc]
      rfl
    · next hpc => cases h; exact ⟨hplain 9 hm, by simpa [BaseSpec.wf] using hpc⟩
  case h_6 hm => exact decodeExtension_encodes h fun ext hlen => ⟨hextended (by decide) 10 hm ext hlen, rfl⟩
  case h_7 hm => exact decodeExtension_encodes h fun ext hlen => ⟨hextended (by decide) 11 hm ext hlen, rfl⟩
  case h_8 hm => exact decodeExtension_encodes h fun ext hlen => ⟨hextended (by decide) 12 hm ext hlen, rfl⟩
  case h_9 hm => exact decodeExtension_encodes h fun ext hlen => ⟨hextended (by decide) 13 hm ext hlen, rfl⟩
  case h_10 hm => exact decodeExtension_encodes h fun ext hlen => ⟨hextended (by decide) 14 hm ext hlen, rfl⟩
  case h_11 hm => exact decodeExtension_encodes h fun ext hlen => ⟨hextended (by decide) 15 hm ext hlen, rfl⟩
  case h_12 =>
    have hlt := specMode_lt b0
    have hliteral : specMode b0 < 4 := by grind
    cases h
    exact ⟨by rw [encodeBase, setWidth_extract_literal hliteral]; rfl, rfl⟩

/-- Bytes that decode to an operand specifier are its encoding. -/
theorem decodeSpec_some {t : OpType} {bs rest : List Byte} {sp : Specifier} (h : decodeSpec t bs = some (sp, rest)) :
    bs = encodeSpec t sp ++ rest ∧ sp.wf t = true := by
  cases bs with
  | nil => cases h
  | cons b0 bs =>
    simp only [decodeSpec] at h
    split at h
    · next hindex =>
      have hx : specByte 4 (specReg b0) = b0 := specByte_specReg hindex
      cases bs with
      | nil => cases h
      | cons b1 bs =>
        simp only at h
        split at h
        · next hindex' =>
          cases h
          exact ⟨by rw [encodeSpec, hx, specByte_specReg (m := 4) hindex']; rfl, rfl⟩
        · next hbase =>
          split at h
          · next base rest' hb =>
            cases h
            obtain ⟨henc, hwf⟩ := decodeBase_some hbase hb
            exact ⟨by rw [encodeSpec, hx, henc]; rfl, hwf⟩
          · cases h
    · next hbase =>
      split at h
      · next base rest' hb =>
        cases h
        exact decodeBase_some hbase hb
      · cases h

/-- Bytes that decode to all the operand specifiers of an instruction are their encodings in order. -/
theorem decodeSpecs_whole {ks : List OperandKind} {bs rest : List Byte} {sps : List Specifier}
    (h : decodeSpecs ks bs = .whole sps rest) : bs = encodeSpecs ks sps ++ rest ∧ wfSpecs ks sps = true := by
  induction ks generalizing bs sps with
  | nil => cases h; exact ⟨rfl, rfl⟩
  | cons k ks ih =>
    simp only [decodeSpecs] at h
    split at h
    · cases h
    · next sp later hsp =>
      split at h
      · next l rest' hl =>
        cases h
        obtain ⟨rfl, hwf⟩ := decodeSpec_some hsp
        obtain ⟨rfl, hwfs⟩ := ih hl
        exact ⟨by rw [encodeSpecs, List.append_assoc], by rw [wfSpecs, hwf, hwfs]; rfl⟩
      · cases h

/-- What an instruction's opcode and the bytes after it decode to. -/
theorem decodeAfterOpcode_instr {code : Word} {opLen : Nat} {bs rest : List Byte} {i : Instr}
    (h : decodeAfterOpcode code opLen bs = .instr i rest) :
    ∃ o l, i.native = some (o, l) ∧ o.code = code ∧ bs = encodeSpecs o.operands l ++ rest ∧
      wfSpecs o.operands l = true := by
  simp only [decodeAfterOpcode] at h
  split at h
  · cases h
  · next row hrow =>
    obtain ⟨-, hcode, hoperands⟩ := rowOfCode_some hrow
    split at h
    · cases h
    · next l rest' hl =>
      split at h
      · next i' hbuild =>
        cases h
        obtain ⟨hbs, hwf⟩ := decodeSpecs_whole hl
        rw [hoperands] at hbs hwf
        exact ⟨row.op, l, Opcode.build_some hbuild, hcode.symm, hbs, hwf⟩
      · cases h

/-- The bytes of an opcode whose number was read from one byte, which announces no second. -/
theorem Opcode.bytes_of_one {o : Opcode} {op0 : Byte} (h : o.code = op0.setWidth 16)
    (hone : announcesSecondByte op0 = false) : o.bytes = [op0] := by
  have hlow : (op0.setWidth 16).extractLsb' 0 8 = op0 := by
    rw [← BitVec.setWidth_eq_extractLsb' (by decide), BitVec.setWidth_setWidth_of_le _ (by decide), BitVec.setWidth_eq]
  simp [Opcode.bytes, h, hlow, hone]

/-- The bytes of an opcode whose number was read from two bytes, the first of which announces the second (R71, R84). -/
theorem Opcode.bytes_of_two {o : Opcode} {op0 op1 : Byte} (h : o.code = op1 ++ op0)
    (htwo : announcesSecondByte op0 = true) : o.bytes = [op0, op1] := by
  have hlow : (op1 ++ op0).extractLsb' 0 8 = op0 := BitVec.extractLsb'_append_eq_right
  have hhigh : (op1 ++ op0).extractLsb' 8 8 = op1 := BitVec.extractLsb'_append_eq_left
  simp [Opcode.bytes, h, hlow, hhigh, htwo]

/-- A native instruction whose opcode has been read from the bytes `opBytes` is encoded as them and its specifiers. -/
theorem encode_of_decodeAfterOpcode {code : Word} {opLen : Nat} {opBytes bs rest : List Byte} {i : Instr}
    (hbytes : ∀ o : Opcode, o.code = code → o.bytes = opBytes) (h : decodeAfterOpcode code opLen bs = .instr i rest) :
    opBytes ++ bs = encode i ++ rest ∧ i.wf = true ∧ i.native.isNone = false := by
  obtain ⟨o, l, hnative, hcode, rfl, hwf⟩ := decodeAfterOpcode_instr h
  refine ⟨?_, by simpa only [Instr.wf, hnative] using hwf, by rw [hnative]; rfl⟩
  simp only [encode, hnative, hbytes o hcode, List.append_assoc]

/-- Bytes that decode to a native instruction are its encoding. -/
theorem decodeNative_instr {bs rest : List Byte} {i : Instr} (h : decodeNative bs = .instr i rest) :
    bs = encode i ++ rest ∧ i.wf = true ∧ i.native.isNone = false := by
  cases bs with
  | nil => cases h
  | cons op0 bs =>
    simp only [decodeNative] at h
    split at h
    · next htwo =>
      cases bs with
      | nil => cases h
      | cons op1 bs => exact encode_of_decodeAfterOpcode (fun _ hcode => Opcode.bytes_of_two hcode htwo) h
    · next hone =>
      exact encode_of_decodeAfterOpcode (fun _ hcode => Opcode.bytes_of_one hcode (Bool.eq_false_iff.2 hone)) h

/-- A word that decodes to a compatibility-mode instruction is that instruction's word. -/
theorem decodeCompatWord_some {w : Word} {i : Instr} (h : decodeCompatWord w = some i) :
    i.compatWord = w ∧ i.native = none := by
  have hword : w.extractLsb' 8 8 ++ w.extractLsb' 0 8 = w := BitVec.extractLsb'_append_extractLsb'
  simp only [decodeCompatWord] at h
  split at h
  · next hw => cases h; exact ⟨hw.symm, rfl⟩
  split at h
  · next hw => cases h; exact ⟨hw.symm, rfl⟩
  split at h
  · next hhigh => cases h; rw [hhigh] at hword; exact ⟨hword, rfl⟩
  split at h
  · next hhigh => cases h; rw [hhigh] at hword; exact ⟨hword, rfl⟩
  · cases h

/-- A word made of two bytes is stored low byte first (20_memory.md R51). -/
theorem leBytes_two_append (b0 b1 : Byte) : leBytes 2 (b1 ++ b0 : Word).toNat = [b0, b1] := by
  have hlow : BitVec.ofNat 8 (b1 ++ b0 : Word).toNat = b0 := BitVec.extractLsb'_append_eq_right
  have hhigh : BitVec.ofNat 8 ((b1 ++ b0 : Word).toNat / 256) = b1 := by
    rw [show 256 = 2 ^ 8 by decide, ← Nat.shiftRight_eq_div_pow]
    exact BitVec.extractLsb'_append_eq_left
  rw [leBytes, leBytes, leBytes, hlow, hhigh]

/-- Bytes that decode to a compatibility-mode instruction are its encoding. -/
theorem decodeCompat_instr {bs rest : List Byte} {i : Instr} (h : decodeCompat bs = .instr i rest) :
    bs = encode i ++ rest ∧ i.wf = true ∧ i.native.isNone = true := by
  simp only [decodeCompat] at h
  split at h
  · next b0 b1 bs =>
    split at h
    · next i' hword =>
      cases h
      obtain ⟨hcompat, hnative⟩ := decodeCompatWord_some hword
      refine ⟨?_, by simp only [Instr.wf, hnative], by rw [hnative]; rfl⟩
      simp only [encode, hnative, hcompat, leBytes_two_append]
      rfl
    · cases h
  · cases h

/-- Settles O1: each level of the decoder reads back its own encoding. -/
theorem encodedInstructionDecodes : Obligations.EncodedInstructionDecodes := fun _ rest h => decode_encode_append h rest

/-- Settles O2: each level of the decoder accepts only the encoding of what it answers. -/
theorem decodedInstructionEncodes : Obligations.DecodedInstructionEncodes := by
  intro compat bs rest i h
  cases compat with
  | false => exact decodeNative_instr h
  | true => exact decodeCompat_instr h

/-- Settles O3, each word decoded by evaluation. -/
theorem decodedWords : Obligations.DecodedWords :=
  ⟨by decide, by decide, by decide, by decide, by decide, by decide⟩

end Sys2Proof
end

section
/-! SUPPORT. What evaluating a specifier does to the registers (30_encoding.md R75): it steps the one its form names, or
none; the address each memory form names; and the forms R78 disallows. -/

namespace Sys2Proof.Machine

open Sys2Proof

/-- Writing a register leaves every stack pointer but the one the PSL selects. -/
theorem sameOtherStacks_setReg (s : State) (r : Reg) (v : Longword) : sameOtherStacks s (s.setReg r v) := by
  intro i hi
  unfold State.setReg
  split
  · rfl
  · split
    · exact StackPointers.get_set_other _ _ _ _ hi
    · rfl

/-- `s'` is `s`, or `s` with the register `stepped` names written. -/
def stepsOnly (stepped : Option Reg) (s s' : State) : Prop :=
  s' = s ∨ ∃ r v, stepped = some r ∧ s' = s.setReg r v

theorem stepsOnly.refl' (stepped : Option Reg) (s : State) : stepsOnly stepped s s := .inl rfl

theorem stepsOnly_setReg (s : State) (r : Reg) (v : Longword) : stepsOnly (some r) s (s.setReg r v) := .inr ⟨r, v, rfl, rfl⟩

theorem stepsOnly.getReg {stepped : Option Reg} {s s' : State} (h : stepsOnly stepped s s') {q : Reg}
    (hq : stepped ≠ some q) : s'.getReg q = s.getReg q := by
  obtain rfl | ⟨r, v, rfl, rfl⟩ := h
  · rfl
  · exact State.getReg_setReg_other _ _ _ _ fun heq => hq (by rw [heq])

theorem stepsOnly.otherStacks {stepped : Option Reg} {s s' : State} (h : stepsOnly stepped s s') :
    sameOtherStacks s s' := by
  obtain rfl | ⟨r, v, -, rfl⟩ := h
  · exact fun _ _ => rfl
  · exact sameOtherStacks_setReg s r v

/-- An index before a form steps no register of its own. -/
theorem steppedRegister_indexed (x : Reg) (b : BaseSpec) : steppedRegister (.indexed x b) = steppedRegister (.plain b) := by
  cases b <;> rfl

/-- The address of a memory form: the register that the form steps is written, or nothing is. -/
theorem baseAddress_stepsOnly {t : OpType} {b : BaseSpec} {next a : Longword} {s s' : State}
    (h : baseAddress t b next s = .ok (a, s')) : stepsOnly (steppedRegister (.plain b)) s s' := by
  cases b with
  | literal | register => cases h
  | deferred r =>
    simp only [baseAddress] at h
    split at h
    · cases h
    · cases h; exact stepsOnly.refl' _ _
  | autodecrement r | autoincrement r =>
    simp only [baseAddress] at h
    split at h
    · cases h
    · cases h; exact stepsOnly_setReg _ _ _
  | autoincrementDeferred r =>
    simp only [baseAddress] at h
    split at h
    · cases h
    · obtain ⟨a, -, ha⟩ := map_eq_ok h
      cases ha
      exact stepsOnly_setReg _ _ _
  | immediate | absolute | byteDisp | wordDisp | longDisp => cases h; exact stepsOnly.refl' _ _
  | byteDispDeferred | wordDispDeferred | longDispDeferred =>
    obtain ⟨a, -, ha⟩ := map_eq_ok h
    cases ha
    exact stepsOnly.refl' _ _

/-- Evaluating a specifier writes the register that its form steps, or nothing. -/
theorem evalOperand_stepsOnly {k : OperandKind} {sp : Specifier} {pos : Longword} {s : State} {o : Evaluated}
    (h : evalOperand k sp pos s = .ok o) : stepsOnly (steppedRegister sp) s o.state := by
  unfold evalOperand at h
  dsimp only at h
  split at h
  case h_1 =>
    split at h
    · cases h; exact stepsOnly.refl' _ _
    · cases h
  case h_2 =>
    split at h
    · cases h
    split at h
    · cases h
    · obtain ⟨-, -, hstate⟩ := accessPlace_ok h
      rw [hstate]
      exact stepsOnly.refl' _ _
  case h_3 =>
    obtain ⟨-, -, hstate⟩ := accessImmediate_ok h
    rw [hstate]
    exact stepsOnly.refl' _ _
  case h_4 =>
    split at h
    · cases h
    · next hbase =>
      obtain ⟨-, -, hstate⟩ := accessPlace_ok h
      rw [hstate]
      exact baseAddress_stepsOnly hbase
  case h_5 =>
    split at h
    · cases h
    split at h
    · cases h
    · next hbase =>
      obtain ⟨-, -, hstate⟩ := accessPlace_ok h
      rw [hstate, steppedRegister_indexed]
      exact baseAddress_stepsOnly hbase
  case h_6 => cases h

/-- Settles O57: registers alone change, and of them the one that the form steps. -/
theorem operandChangesOnlyItsRegister : Obligations.OperandChangesOnlyItsRegister := by
  intro k sp pos s o h
  obtain ⟨honly, hnext, -⟩ := evalOperand_ok h
  have hsteps := evalOperand_stepsOnly h
  exact ⟨fun q hq => hsteps.getReg hq, hsteps.otherStacks, honly.mem', honly.staleCode', honly.psl', honly.pc',
    honly.setting, honly.draws', hnext⟩

/-- An operand whose address is taken is at the address its form names. -/
theorem evalOperand_address {t : OpType} {b : BaseSpec} {pos a : Longword} {s s' : State}
    (h : baseAddress t b (addrAdd pos (b.length t)) s = .ok (a, s')) :
    evalOperand ⟨.address, t⟩ (.plain b) pos s = .ok ⟨a.setWidth 128, .mem a, addrAdd pos (b.length t), s'⟩ := by
  cases b with
  | literal | register => cases h
  | immediate => cases h; rfl
  | _ => simp only [evalOperand, Specifier.length, h, accessPlace]

/-! The address of each memory form. A displacement counts from `base`: a register, or for the PC the address after the
specifier (log 17). -/

theorem displacementBase_reg {r : Reg} (hr : r ≠ 15) (s : State) (next : Longword) :
    s.displacementBase r next = s.getReg r := if_neg hr

theorem displacementBase_pc (s : State) (next : Longword) : s.displacementBase 15 next = next := if_pos rfl

section

variable {t : OpType} {r : Reg} {next base a : Longword} {s : State}

theorem baseAddress_deferred (hr : r ≠ 15) : baseAddress t (.deferred r) next s = .ok (s.getReg r, s) := if_neg hr

theorem baseAddress_autodecrement (hr : r ≠ 15) :
    baseAddress t (.autodecrement r) next s =
      .ok (s.getReg r - BitVec.ofNat 32 t.size, s.setReg r (s.getReg r - BitVec.ofNat 32 t.size)) := if_neg hr

theorem baseAddress_autoincrement (hr : r ≠ 15) :
    baseAddress t (.autoincrement r) next s = .ok (s.getReg r, s.setReg r (addrAdd (s.getReg r) t.size)) := if_neg hr

/-- An immediate operand begins after its specifier byte. -/
theorem baseAddress_immediate (pos : Longword) (v : Octaword) :
    baseAddress t (.immediate v) (addrAdd pos (1 + t.size)) s = .ok (addrAdd pos 1, s) := by
  rw [baseAddress, addrAdd, addrAdd, BitVec.ofNat_add, ← BitVec.add_assoc, BitVec.add_sub_cancel]

theorem baseAddress_autoincrementDeferred (hr : r ≠ 15) (ha : s.readLong (s.getReg r) = .ok a) :
    baseAddress t (.autoincrementDeferred r) next s = .ok (a, s.setReg r (addrAdd (s.getReg r) 4)) := by
  rw [baseAddress, if_neg hr, ha]
  rfl

theorem baseAddress_byteDisp (hbase : s.displacementBase r next = base) (d : Byte) :
    baseAddress t (.byteDisp r d) next s = .ok (base + d.signExtend 32, s) := by
  rw [baseAddress, hbase]

theorem baseAddress_wordDisp (hbase : s.displacementBase r next = base) (d : Word) :
    baseAddress t (.wordDisp r d) next s = .ok (base + d.signExtend 32, s) := by
  rw [baseAddress, hbase]

theorem baseAddress_longDisp (hbase : s.displacementBase r next = base) (d : Longword) :
    baseAddress t (.longDisp r d) next s = .ok (base + d, s) := by
  rw [baseAddress, hbase]

theorem baseAddress_byteDispDeferred (hbase : s.displacementBase r next = base) {d : Byte}
    (ha : s.readLong (base + d.signExtend 32) = .ok a) : baseAddress t (.byteDispDeferred r d) next s = .ok (a, s) := by
  rw [baseAddress, hbase, ha]
  rfl

theorem baseAddress_wordDispDeferred (hbase : s.displacementBase r next = base) {d : Word}
    (ha : s.readLong (base + d.signExtend 32) = .ok a) : baseAddress t (.wordDispDeferred r d) next s = .ok (a, s) := by
  rw [baseAddress, hbase, ha]
  rfl

theorem baseAddress_longDispDeferred (hbase : s.displacementBase r next = base) {d : Longword}
    (ha : s.readLong (base + d) = .ok a) : baseAddress t (.longDispDeferred r d) next s = .ok (a, s) := by
  rw [baseAddress, hbase, ha]
  rfl

end

/-- Settles O55: the operand is at its form's address, and that address form by form. -/
theorem operandAddresses : Obligations.OperandAddresses := by
  intro t pos s r hr
  have hreg := displacementBase_reg hr s
  have hpc := displacementBase_pc s
  refine ⟨evalOperand_address (baseAddress_deferred hr), evalOperand_address (baseAddress_autodecrement hr),
    evalOperand_address (baseAddress_autoincrement hr), fun v => evalOperand_address (baseAddress_immediate pos v),
    fun a ha => evalOperand_address (baseAddress_autoincrementDeferred hr ha), fun a => evalOperand_address rfl,
    fun d => ?_, fun d => ?_, fun d => ?_⟩
  · exact ⟨evalOperand_address (baseAddress_byteDisp (hreg _) d), evalOperand_address (baseAddress_byteDisp (hpc _) d),
      fun a ha => evalOperand_address (baseAddress_byteDispDeferred (hreg _) ha),
      fun a ha => evalOperand_address (baseAddress_byteDispDeferred (hpc _) ha)⟩
  · exact ⟨evalOperand_address (baseAddress_wordDisp (hreg _) d), evalOperand_address (baseAddress_wordDisp (hpc _) d),
      fun a ha => evalOperand_address (baseAddress_wordDispDeferred (hreg _) ha),
      fun a ha => evalOperand_address (baseAddress_wordDispDeferred (hpc _) ha)⟩
  · exact ⟨evalOperand_address (baseAddress_longDisp (hreg _) d), evalOperand_address (baseAddress_longDisp (hpc _) d),
      fun a ha => evalOperand_address (baseAddress_longDispDeferred (hreg _) ha),
      fun a ha => evalOperand_address (baseAddress_longDispDeferred (hpc _) ha)⟩

/-- A short literal is only read. -/
theorem evalOperand_literal_not_read {k : OperandKind} (hk : k.access ≠ .read) (v : BitVec 6) (pos : Longword) (s : State) :
    evalOperand k (.plain (.literal v)) pos s = .error (.fault .reservedAddressingMode) := by
  cases ha : k.access with
  | read => exact absurd ha hk
  | _ => simp only [evalOperand, ha]

/-- Settles O58, form by form: an index before a literal or a register faults whichever register it is. -/
theorem disallowedOperandForms : Obligations.DisallowedOperandForms := fun _ pos s =>
  ⟨fun v hk => evalOperand_literal_not_read hk v pos s, fun _ hk => if_pos hk, fun _ => rfl, fun _ _ => ite_self _,
    fun _ _ => ite_self _, fun _ _ => rfl, fun hk => if_neg hk, rfl, rfl⟩

end Sys2Proof.Machine
end

section
/-! SUPPORT. A step at bytes that are no row of the opcode map (30_encoding.md R79, R81): what `otherOpcode` does, by
the class that the configuration makes of the opcode; and a compatibility-mode word of no row. -/

namespace Sys2Proof.Machine

open Sys2Proof

section

variable {s : State} {code : Word} {opLen : Nat} {rest : List Byte} {why : Stop}

/-- The class instruction of an opcode is the configuration's first with that opcode. -/
theorem find?_classOp {ops before after : List ClassOp} {c : ClassOp} (hops : ops = before ++ c :: after)
    (hbefore : ∀ c' ∈ before, c'.opcode ≠ code) (hc : c.opcode = code) :
    (ops.find? fun c => c.opcode == code) = some c := by
  rw [List.find?_eq_some_iff_append]
  exact ⟨by simpa using hc, before, after, hops, fun c' hmem => by simpa using hbefore c' hmem⟩

theorem otherOpcode_of_no_class (hsubset : code ∉ s.config.subsetOps) (hnone : ∀ c ∈ s.config.classOps, c.opcode ≠ code) :
    otherOpcode code opLen rest why s = .refused (.unknownOpcode code) := by
  have hfind : (s.config.classOps.find? fun c => c.opcode == code) = none := by simpa using hnone
  simp [otherOpcode, hsubset, hfind]

theorem otherOpcode_of_whole {c : ClassOp} {specs : List Specifier} {rest' : List Byte} (hsubset : code ∉ s.config.subsetOps)
    (hfind : (s.config.classOps.find? fun c => c.opcode == code) = some c)
    (hspecs : decodeSpecs c.operands rest = .whole specs rest') :
    otherOpcode code opLen rest why s = execClass c opLen specs s := by
  simp [otherOpcode, hsubset, hfind, hspecs]

theorem otherOpcode_of_cut {c : ClassOp} {specs : List Specifier} (hsubset : code ∉ s.config.subsetOps)
    (hfind : (s.config.classOps.find? fun c => c.opcode == code) = some c)
    (hspecs : decodeSpecs c.operands rest = .cut specs) :
    otherOpcode code opLen rest why s = cutShort opLen c.operands specs why s := by
  simp [otherOpcode, hsubset, hfind, hspecs]

/-- A native step with no trace owed at an opcode of no row does what `otherOpcode` says. -/
theorem step_of_unknownOpcode (htp : s.psl.tp = false) (hcm : s.psl.cm = false)
    (h : decode false s.sampleTrace.fetchWindow.1 = .unknownOpcode code opLen rest) :
    step s = otherOpcode code opLen rest s.sampleTrace.fetchWindow.2 s.sampleTrace.afterFetch := by
  have hodd : s.sampleTrace.oddFetch = false := by simp [State.oddFetch, hcm]
  simp [step, beginStep, fetchInstruction, htp, hcm, hodd, h]

end

theorem byte_append_inj {a b c d : Byte} (h : (a ++ b : Word) = c ++ d) : a = c ∧ b = d := by
  have hhigh := congrArg (BitVec.extractLsb' 8 8) h
  have hlow := congrArg (BitVec.extractLsb' 0 8) h
  rw [BitVec.extractLsb'_append_eq_left, BitVec.extractLsb'_append_eq_left] at hhigh
  rw [BitVec.extractLsb'_append_eq_right, BitVec.extractLsb'_append_eq_right] at hlow
  exact ⟨hhigh, hlow⟩

/-- The rows of Table E-2 are the words 0003 and 0004 and every word of high byte 88 or 89 (R81, R83). -/
theorem decodeCompatWord_eq_none {b0 b1 : Byte} (hlow : ¬ (b1 = 0x00 ∧ (b0 = 0x03 ∨ b0 = 0x04))) (hemt : b1 ≠ 0x88#8)
    (htrap : b1 ≠ 0x89#8) : decodeCompatWord (b1 ++ b0) = none := by
  have hhigh : (b1 ++ b0 : Word).extractLsb' 8 8 = b1 := BitVec.extractLsb'_append_eq_left
  have hbpt : (b1 ++ b0 : Word) ≠ 0x0003 := fun h => by
    obtain ⟨h1, h0⟩ := byte_append_inj (c := 0x00) (d := 0x03) h
    exact hlow ⟨h1, .inl h0⟩
  have hiot : (b1 ++ b0 : Word) ≠ 0x0004 := fun h => by
    obtain ⟨h1, h0⟩ := byte_append_inj (c := 0x00) (d := 0x04) h
    exact hlow ⟨h1, .inr h0⟩
  rw [decodeCompatWord, if_neg hbpt, if_neg hiot, hhigh, if_neg hemt, if_neg htrap]

/-- Two bytes that can be fetched are what the fetch begins with. -/
theorem State.fetchFrom_two {s : State} {b0 b1 : Byte} {n k : Nat} (h0 : s.fetchByte k = .ok b0)
    (h1 : s.fetchByte (k + 1) = .ok b1) : ∃ rest, (s.fetchFrom (n + 2) k).1 = b0 :: b1 :: rest := by
  simp [State.fetchFrom, h0, h1]

/-- A compatibility-mode step with no trace owed, at an even address, refuses a word of no row. -/
theorem step_of_unknownCompatWord {s : State} {b0 b1 : Byte} (htp : s.psl.tp = false) (hcm : s.psl.cm = true)
    (heven : s.pc.getLsbD 0 = false) (h0 : s.fetchByte 0 = .ok b0) (h1 : s.fetchByte 1 = .ok b1)
    (hword : decodeCompatWord (b1 ++ b0) = none) : step s = .refused (.unknownCompatWord (b1 ++ b0)) := by
  obtain ⟨rest, hfetch⟩ : ∃ rest, s.sampleTrace.fetchWindow.1 = b0 :: b1 :: rest :=
    State.fetchFrom_two (s := s.sampleTrace) (n := 126) h0 h1
  have hdecode : decode true s.sampleTrace.fetchWindow.1 = .unknownCompatWord (b1 ++ b0) := by
    simp only [hfetch, decode, if_true, decodeCompat, hword]
  have hodd : s.sampleTrace.oddFetch = false := by simp only [State.oddFetch, State.sampleTrace_pc, heven, Bool.and_false]
  simp [step, beginStep, fetchInstruction, htp, hcm, hodd, hdecode]

/-- Settles O46: `otherOpcode` by the opcode's class and by whether its specifiers are whole; a compatibility-mode word
of no row. -/
theorem otherOpcodes : Obligations.OtherOpcodes := by
  refine ⟨fun s b0 b1 htp hcm heven h0 h1 hlow hemt htrap =>
      step_of_unknownCompatWord htp hcm heven h0 h1 (decodeCompatWord_eq_none hlow hemt htrap), ?_, ?_⟩
  · intro s code n rest before after c specs htp hcm hdecode hsubset hops hbefore hc hspecs
    rw [step_of_unknownOpcode htp hcm hdecode]
    exact otherOpcode_of_cut (s := s.sampleTrace.afterFetch) hsubset (find?_classOp hops hbefore hc) hspecs
  · intro s code n rest htp hcm hdecode hsubset
    rw [step_of_unknownOpcode htp hcm hdecode]
    refine ⟨fun hnone => ?_, fun before after c specs rest' hops hbefore hc hspecs => ?_⟩
    · exact otherOpcode_of_no_class (s := s.sampleTrace.afterFetch) hsubset hnone
    · exact otherOpcode_of_whole (s := s.sampleTrace.afterFetch) hsubset (find?_classOp hops hbefore hc) hspecs

end Sys2Proof.Machine
end

section
/-! SUPPORT. A result stored (40_arithmetic_exceptions.md R102 to R111): what storing it and setting the condition codes does,
where the operands began or did not; and the entry of the trap that may follow. -/

namespace Sys2Proof.Machine

open Sys2Proof

theorem sameOtherStacks.trans' {s t u : State} (h : sameOtherStacks s t) (hpsl : t.psl = s.psl) (k : sameOtherStacks t u) :
    sameOtherStacks s u := fun i hi => (k i (by rwa [hpsl])).trans (h i hi)

theorem sameOtherStacks_of_sps {s t : State} (h : t.sps = s.sps) : sameOtherStacks s t := fun _ _ => by rw [h]

theorem sameOtherStacks_writeRegs (s : State) (n : Nat) (r : Reg) (v : Nat) : sameOtherStacks s (s.writeRegs n r v) := by
  induction n generalizing s r v with
  | zero => exact fun _ _ => rfl
  | succ n ih => exact (sameOtherStacks_setReg s r _).trans' (State.setReg_psl s r _) (ih _ _ _)

/-- What instruction fetch may still see of bytes depends on the page table and memory alone. -/
theorem State.oldCells_congr {s t : State} (ht : t.translation = s.translation) (hm : t.mem = s.mem) (m : Mode) (n : Nat)
    (va : Longword) : t.oldCells m n va = s.oldCells m n va := by
  induction n generalizing va with
  | zero => rfl
  | succ n ih => simp only [State.oldCells, State.physical_congr ht, State.physicalByte, hm, ih]

/-- `w` is `s` with the value `v` of type `t` stored at a place and the condition codes set; nothing else has changed. -/
structure resultStored (t : OpType) (v : Octaword) (cc : CondCodes) (p : Place) (s w : State) : Prop where
  stored : storedAt t v p s w
  psl : w.psl = s.psl.withCodes cc
  pc : w.pc = s.pc
  otherStacks : sameOtherStacks s w
  setting : sameSetting s w
  draws : w.draws = s.draws
  wf : s.wf → w.wf

theorem readRegs_setCodes (s : State) (cc : CondCodes) (n : Nat) (r : Reg) :
    (s.setCodes cc).readRegs n r = s.readRegs n r := by
  induction n generalizing r with
  | zero => rfl
  | succ n ih => rw [State.readRegs, ih]; rfl

/-- Condition codes are no part of what is stored at a place. -/
theorem storedAt.setCodes {t : OpType} {v : Octaword} {p : Place} {s w : State} (h : storedAt t v p s w) (cc : CondCodes) :
    storedAt t v p s (w.setCodes cc) := by
  cases p with
  | literal | mem => exact h
  | reg r =>
    obtain ⟨hr, hrest⟩ := h
    exact ⟨by rw [State.readRegOperand, readRegs_setCodes]; exact hr, hrest⟩

theorem sameOtherStacks_writePlace {s u : State} {t : OpType} {v : Octaword} {p : Place}
    (hp : ∀ r, p = .reg r → reachesPc t r = false) (h : s.writePlace t v p = .ok u) : sameOtherStacks s u := by
  cases p with
  | literal => cases h; exact fun _ _ => rfl
  | reg r =>
    simp only [State.writePlace, hp r rfl, Bool.false_eq_true, if_false] at h
    cases h
    exact sameOtherStacks_writeRegs s _ r _
  | mem a =>
    obtain ⟨-, -, -, -, hregs⟩ := State.writePlace_spec hp h
    exact sameOtherStacks_of_sps (hregs fun r hr => by cases hr).2

/-- Where the place can be written, the result is stored. -/
theorem storeResult_stores {t : OpType} (v : Octaword) (cc : CondCodes) {p : Place} {s : State} (hw : p.writable t s)
    (hp : ∀ r, p = .reg r → reachesPc t r = false) :
    ∃ w, storeResult t v cc p s = .ok w ∧ resultStored t v cc p s w := by
  obtain ⟨u, hu⟩ := State.writePlace_ok s t v p hw
  obtain ⟨hstored, hwf, heq, -, -⟩ := State.writePlace_spec hp hu
  refine ⟨u.setCodes cc, by rw [storeResult, hu], hstored.setCodes cc, ?_, ?_,
    fun i hi => sameOtherStacks_writePlace hp hu i hi, ?_, ?_, hwf⟩
  · rw [State.setCodes_psl, heq]
  · rw [State.setCodes_pc, heq]
  · rw [heq]; exact ⟨rfl, rfl, rfl⟩
  · rw [State.setCodes_draws, heq]

/-! The same from the start of an instruction: its operands have changed registers alone. -/

/-- What evaluating operands leaves: registers alone have changed, and of the stack pointers the one in use. -/
structure operandsDone (s t : State) : Prop where
  only : onlyRegisters s t
  otherStacks : sameOtherStacks s t

theorem operandsDone.trans' {s t u : State} (h : operandsDone s t) (k : operandsDone t u) : operandsDone s u :=
  ⟨h.only.trans' k.only, h.otherStacks.trans' h.only.psl' k.otherStacks⟩

theorem operandsDone_of_evalOperand {k : OperandKind} {sp : Specifier} {pos : Longword} {s : State} {o : Evaluated}
    (h : evalOperand k sp pos s = .ok o) : operandsDone s o.state :=
  ⟨(evalOperand_ok h).1, (evalOperand_stepsOnly h).otherStacks⟩

/-- A place before the PC is set to the next instruction is the same place after it. -/
theorem storedAt_of_setPc {t : OpType} {v : Octaword} {p : Place} {s w : State} {pc : Longword}
    (h : storedAt t v p (s.setPc pc) w) : storedAt t v p s w := by
  have hreg : ∀ q : Reg, q ≠ 15 → (s.setPc pc).getReg q = s.getReg q := fun q hq => State.getReg_setPc s pc hq
  have hold := State.oldCells_congr (s := s) (t := s.setPc pc) rfl rfl
  cases p with
  | literal =>
    obtain ⟨hq, hmem, hstale⟩ := h
    exact ⟨fun q hne => (hq q hne).trans (hreg q hne), hmem, hstale⟩
  | reg r =>
    obtain ⟨hr, hq, hmem, hstale⟩ := h
    exact ⟨hr, fun q hne hout => (hq q hne hout).trans (hreg q hne), hmem, hstale⟩
  | mem a =>
    obtain ⟨hq, hout, hholds, hstale⟩ := h
    exact ⟨fun q hne => (hq q hne).trans (hreg q hne), hout, hholds, by rw [hstale, hold]; rfl⟩

theorem resultStored.completed {t : OpType} {v : Octaword} {cc : CondCodes} {o : Evaluated} {s w : State}
    (h : resultStored t v cc o.place (o.state.setPc o.next) w) (hops : operandsDone s o.state) : completed t v cc o s w where
  stored := storedAt_of_setPc h.stored
  pc := h.pc
  psl := by rw [h.psl, State.setPc_psl, hops.only.psl']
  otherStacks := hops.otherStacks.trans' hops.only.psl' h.otherStacks
  setting := hops.only.setting.trans' h.setting
  draws := h.draws.trans hops.only.draws'
  wf hs := h.wf (hops.only.wf' hs)

/-- A longword register operand is never the PC. -/
theorem evalOperand_place_long {k : OperandKind} {sp : Specifier} {pos : Longword} {s : State} {o : Evaluated}
    (h : evalOperand k sp pos s = .ok o) : ∀ r, o.place = .reg r → reachesPc .long r = false := by
  intro r hr
  obtain ⟨-, -, hallowed⟩ := evalOperand_ok h
  rw [hr] at hallowed
  exact reachesPc_narrow (by decide) hallowed.2

/-- The longword result of an instruction, stored at its last operand. -/
theorem storeResult_long {k : OperandKind} {sp : Specifier} {pos : Longword} {s start : State} {o : Evaluated} (v : Octaword)
    (cc : CondCodes) (h : evalOperand k sp pos s = .ok o) (hstart : operandsDone start s)
    (hw : o.place.writable .long o.state) :
    ∃ w, storeResult .long v cc o.place (o.state.setPc o.next) = .ok w ∧ completed .long v cc o start w := by
  have hw' : o.place.writable .long (o.state.setPc o.next) := by
    cases hp : o.place <;> rw [hp] at hw <;> exact hw
  obtain ⟨w, hstore, hstored⟩ := storeResult_stores v cc hw' (evalOperand_place_long h)
  exact ⟨w, hstore, hstored.completed (hstart.trans' (operandsDone_of_evalOperand h))⟩

/-! The trap after a result. -/

theorem conclude_error (s : State) (st : Stop) : conclude s (.error st) = raiseStop s st := rfl
theorem conclude_trap (s w : State) (e : Exc) : conclude s (.ok (.trap e w)) = raiseTrap e w := rfl

/-- Where its routine can be entered, an arithmetic trap enters it: its code, the next instruction's address, the PSL. -/
theorem raiseTrap_arithmetic {c : ArithTrap} {w : State} (h : canEnter (.arithmeticTrap c) 3 w) :
    ∃ t, raiseTrap (.arithmeticTrap c) w = .next t ∧
      entered (.arithmeticTrap c) w.psl [w.psl.pack, w.pc, c.code] w t := by
  obtain ⟨t, ht⟩ := initiate_of_canEnter (e := .arithmeticTrap c) (pc := w.pc) (p := w.psl) h
  exact ⟨t, ht, (initiate_next ht).1⟩

end Sys2Proof.Machine
end

section
/-! SUPPORT. Classes INT and IDIV (40_arithmetic_exceptions.md R102, R103, R119, R120): an integer result's low-order part and
condition codes as those of a bit vector, then the members of these classes that the opcode table has, and INDEX. -/

namespace Sys2Proof.Machine

open Sys2Proof

/-! Integer results as bit vectors. -/

theorem lowOrder_eq (bits : Nat) (x : Int) : lowOrder bits x = (BitVec.ofInt bits x).toNat := by
  rw [BitVec.toNat_ofInt, lowOrder]
  norm_cast

theorem signBit_eq_msb (bits n : Nat) : signBit bits n = (BitVec.ofNat bits n).msb := by
  rw [BitVec.msb_eq_decide, signBit, BitVec.toNat_ofNat]

theorem fitsSigned_eq_false_iff (bits : Nat) (x : Int) :
    fitsSigned bits x = false ↔ x < -(2 ^ (bits - 1) : Int) ∨ (2 ^ (bits - 1) : Int) ≤ x := by
  simp only [fitsSigned, Bool.and_eq_false_iff, decide_eq_false_iff_not, not_le, not_lt]

/-- What class INT stores is the result modulo `2 ^ bits`. -/
theorem ofNat_lowOrder (bits : Nat) (x : Int) : BitVec.ofNat 128 (lowOrder bits x) = (BitVec.ofInt bits x).setWidth 128 := by
  rw [lowOrder_eq, BitVec.ofNat_toNat]

/-- The condition codes of class INT, N and Z those of what is stored. -/
theorem integerCodes_eq (bits : Nat) (x : Int) (c : Bool) :
    integerCodes bits x c = ⟨(BitVec.ofInt bits x).msb, decide (BitVec.ofInt bits x = 0),
      decide (x < -(2 ^ (bits - 1) : Int) ∨ (2 ^ (bits - 1) : Int) ≤ x), c⟩ := by
  have hn : signBit bits (lowOrder bits x) = (BitVec.ofInt bits x).msb := by
    rw [signBit_eq_msb, lowOrder_eq, BitVec.ofNat_toNat, BitVec.setWidth_eq]
  have hz : (lowOrder bits x == 0) = decide (BitVec.ofInt bits x = 0) := by
    rw [lowOrder_eq, beq_eq_decide]
    exact decide_eq_decide.2 ⟨fun h => BitVec.eq_of_toNat_eq h, fun h => by rw [h]; rfl⟩
  have hv : (!fitsSigned bits x) = decide (x < -(2 ^ (bits - 1) : Int) ∨ (2 ^ (bits - 1) : Int) ≤ x) := by
    rw [Bool.eq_iff_iff, decide_eq_true_iff, ← fitsSigned_eq_false_iff, Bool.not_eq_true']
  rw [integerCodes, hn, hz, hv]

theorem signedValue_eq (t : OpType) (v : Octaword) : signedValue t v = (v.setWidth (8 * t.size)).toInt := by
  rw [BitVec.toInt_eq_msb_cond, signedValue, signBit_eq_msb, BitVec.ofNat_toNat, BitVec.toNat_setWidth]
  norm_cast

theorem unsignedValue_eq_zero_iff (t : OpType) (v : Octaword) :
    unsignedValue t v = 0 ↔ v.setWidth (8 * t.size) = 0#(8 * t.size) := by
  rw [← BitVec.toNat_inj, BitVec.toNat_setWidth, BitVec.toNat_zero, unsignedValue]

/-- The condition codes of an integer divide by zero, N and Z those of the dividend. -/
theorem divideByZeroCodes_eq (bits : Nat) (v : Octaword) :
    divideByZeroCodes bits v.toNat = ⟨(v.setWidth bits).msb, decide (v.setWidth bits = 0#bits), true, false⟩ := by
  have hz : (v.toNat % 2 ^ bits == 0) = decide (v.setWidth bits = 0#bits) := by
    rw [beq_eq_decide]
    exact decide_eq_decide.2 (by rw [← BitVec.toNat_inj, BitVec.toNat_setWidth, BitVec.toNat_zero])
  rw [divideByZeroCodes, signBit_eq_msb, BitVec.ofNat_toNat, hz]

/-! The two classes, where the result has been stored. -/

section

variable {t : OpType} {p : Place} {s w : State}

theorem classInt_of_stored {x : Int} {c : Bool}
    (h : storeResult t ((BitVec.ofInt (8 * t.size) x).setWidth 128) ⟨(BitVec.ofInt (8 * t.size) x).msb,
      decide (BitVec.ofInt (8 * t.size) x = 0),
      decide (x < -(2 ^ (8 * t.size - 1) : Int) ∨ (2 ^ (8 * t.size - 1) : Int) ≤ x), c⟩ p s = .ok w) :
    classInt t x c p s = .ok
      (if (x < -(2 ^ (8 * t.size - 1) : Int) ∨ (2 ^ (8 * t.size - 1) : Int) ≤ x) ∧ s.psl.iv = true then
        .trap (.arithmeticTrap .integerOverflow) w else .done w) := by
  rw [← integerCodes_eq, ← ofNat_lowOrder] at h
  simp only [classInt, h, Bool.and_eq_true, Bool.not_eq_true', fitsSigned_eq_false_iff]
  exact (apply_ite Except.ok _ _ _).symm

theorem classIdiv_of_zero {dividend divisor : Octaword} (hzero : divisor.setWidth (8 * t.size) = 0#(8 * t.size))
    (h : storeResult t dividend ⟨(dividend.setWidth (8 * t.size)).msb,
      decide (dividend.setWidth (8 * t.size) = 0#(8 * t.size)), true, false⟩ p s = .ok w) :
    classIdiv t dividend divisor p s = .ok (.trap (.arithmeticTrap .integerDivideByZero) w) := by
  rw [← divideByZeroCodes_eq] at h
  rw [classIdiv, if_pos ((unsignedValue_eq_zero_iff t divisor).2 hzero), h]

theorem classIdiv_of_ne_zero {dividend divisor : Octaword} (h : divisor.setWidth (8 * t.size) ≠ 0#(8 * t.size)) :
    classIdiv t dividend divisor p s =
      classInt t ((dividend.setWidth (8 * t.size)).toInt.tdiv (divisor.setWidth (8 * t.size)).toInt) false p s := by
  rw [classIdiv, if_neg (mt (unsignedValue_eq_zero_iff t divisor).1 h), signedValue_eq, signedValue_eq]

end

/-- Settles O33: what is stored is the result as a bit vector of the operand's width, whose number is the result modulo
`2 ^ w`. -/
theorem classIntResult : Obligations.ClassIntResult := by
  constructor
  · intro t dividend divisor p s _ hw hp
    refine ⟨classIdiv_of_ne_zero, fun hzero => ?_⟩
    obtain ⟨w, hstore, hstored⟩ := storeResult_stores dividend _ hw hp
    exact ⟨w, hstored.stored, hstored.psl, hstored.pc, hstored.otherStacks, hstored.setting, classIdiv_of_zero hzero hstore⟩
  · intro t x c p s _ hw hp
    obtain ⟨w, hstore, hstored⟩ := storeResult_stores ((BitVec.ofInt (8 * t.size) x).setWidth 128) _ hw hp
    refine ⟨w, (BitVec.ofInt (8 * t.size) x).toNat, ?_, ?_, ?_, hstored.pc, hstored.otherStacks, hstored.setting,
      classInt_of_stored hstore⟩
    · rw [BitVec.toNat_ofInt, Int.toNat_of_nonneg (Int.emod_nonneg _ (by positivity))]
      norm_cast
    · rw [BitVec.ofNat_toNat]
      exact hstored.stored
    · rw [hstored.psl, BitVec.msb_eq_getLsbD_last]
      congr 2
      exact decide_eq_decide.2 ⟨fun h => by rw [h]; rfl, fun h => BitVec.eq_of_toNat_eq h⟩

/-! ADDL2 and DIVL2: class INT of a longword at the last operand. -/

/-- The instruction's end where class INT's result goes to its last operand, with the overflow trap where IV is set. -/
theorem conclude_classInt_long {k : OperandKind} {sp : Specifier} {pos : Longword} {s s' : State} {o : Evaluated} {x : Int}
    {r : Longword} (c : Bool) (ho : evalOperand k sp pos s' = .ok o) (hs' : operandsDone s s')
    (hw : o.place.writable .long o.state) (hr : BitVec.ofInt 32 x = r) :
    ∃ w, completed .long (r.setWidth 128)
        ⟨r.msb, decide (r = 0), decide (x < -(2 ^ 31) ∨ (2 ^ 31 : Int) ≤ x), c⟩ o s w ∧
      conclude s (classInt .long x c o.place (o.state.setPc o.next)) =
        if (x < -(2 ^ 31) ∨ (2 ^ 31 : Int) ≤ x) ∧ s.psl.iv = true then
          raiseTrap (.arithmeticTrap .integerOverflow) w else .next w := by
  subst hr
  obtain ⟨w, hstore, hdone⟩ := storeResult_long ((BitVec.ofInt 32 x).setWidth 128)
    ⟨(BitVec.ofInt 32 x).msb, decide (BitVec.ofInt 32 x = 0), decide (x < -(2 ^ 31) ∨ (2 ^ 31 : Int) ≤ x), c⟩ ho hs' hw
  have hiv : (o.state.setPc o.next).psl.iv = s.psl.iv := by
    rw [State.setPc_psl, (hs'.trans' (operandsDone_of_evalOperand ho)).only.psl']
  have hint := classInt_of_stored (t := .long) hstore
  rw [hiv] at hint
  refine ⟨w, hdone, ?_⟩
  rw [hint]
  exact apply_ite (fun r => conclude s (.ok r)) _ _ _

/-- An instruction that has stored its result and raises an arithmetic trap enters its routine where that can be entered. -/
theorem completed.trapEnters {t : OpType} {v : Octaword} {cc : CondCodes} {o : Evaluated} {s w : State} {c : ArithTrap}
    {answer : Answer} (hdone : completed t v cc o s w) (htrap : answer = raiseTrap (.arithmeticTrap c) w)
    (h : canEnter (.arithmeticTrap c) 3 w) :
    ∃ t, answer = .next t ∧ entered (.arithmeticTrap c) w.psl [w.psl.pack, o.next, c.code] w t := by
  rw [htrap, ← hdone.pc]
  exact raiseTrap_arithmetic h

section

variable {x y : Specifier} {s : State} {a b : Evaluated}

theorem exec_addl2 (ha : evalOperand readLong x (addrAdd s.pc 1) s = .ok a)
    (hb : evalOperand modifyLong y a.next a.state = .ok b) :
    exec (.addl2 x y) s = conclude s
      (classInt .long (b.long.toInt + a.long.toInt) (carryOut b.long a.long) b.place (b.state.setPc b.next)) := by
  simp only [exec, execAddl2, ha, hb, bind, Except.bind]

theorem exec_divl2 (ha : evalOperand readLong x (addrAdd s.pc 1) s = .ok a)
    (hb : evalOperand modifyLong y a.next a.state = .ok b) :
    exec (.divl2 x y) s = conclude s (classIdiv .long b.value a.value b.place (b.state.setPc b.next)) := by
  simp only [exec, execDivl2, ha, hb, bind, Except.bind]

theorem exec_addl2_stores (ha : evalOperand readLong x (addrAdd s.pc 1) s = .ok a)
    (hb : evalOperand modifyLong y a.next a.state = .ok b) (hw : b.place.writable .long b.state) :
    ∃ w, completed .long ((b.long + a.long).setWidth 128)
        ⟨(b.long + a.long).msb, decide (b.long + a.long = 0),
          decide (b.long.toInt + a.long.toInt < -(2 ^ 31) ∨ (2 ^ 31 : Int) ≤ b.long.toInt + a.long.toInt),
          decide (2 ^ 32 ≤ b.long.toNat + a.long.toNat)⟩ b s w ∧
      exec (.addl2 x y) s =
        if (b.long.toInt + a.long.toInt < -(2 ^ 31) ∨ (2 ^ 31 : Int) ≤ b.long.toInt + a.long.toInt) ∧ s.psl.iv = true then
          raiseTrap (.arithmeticTrap .integerOverflow) w else .next w := by
  have hsum : BitVec.ofInt 32 (b.long.toInt + a.long.toInt) = b.long + a.long := by
    rw [BitVec.ofInt_add, BitVec.ofInt_toInt, BitVec.ofInt_toInt]
  rw [exec_addl2 ha hb]
  exact conclude_classInt_long (carryOut b.long a.long) hb (operandsDone_of_evalOperand ha) hw hsum

end

/-- Settles O34: no trap is taken, since IV is clear or the sum fits. -/
theorem addl2Adds : Obligations.Addl2Adds := by
  intro x y s a b ha hb hw hfits
  obtain ⟨w, hdone, hexec⟩ := exec_addl2_stores ha hb hw
  refine ⟨w, ?_, hdone⟩
  rw [hexec, if_neg]
  rintro ⟨hover, hiv⟩
  obtain hclear | ⟨hlow, hhigh⟩ := hfits
  · rw [hclear] at hiv
    cases hiv
  · omega

/-- Settles O35: the sum is stored as without IV, and the trap is raised from there. -/
theorem addl2OverflowTraps : Obligations.Addl2OverflowTraps := by
  intro x y s a b ha hb hw hiv hover
  obtain ⟨w, hdone, hexec⟩ := exec_addl2_stores ha hb hw
  rw [if_pos ⟨hover, hiv⟩] at hexec
  rw [decide_eq_true hover] at hdone
  exact ⟨w, hdone, hexec, hdone.trapEnters hexec⟩

/-! DIVL2. -/

/-- The one signed division of longwords whose quotient does not fit. -/
theorem tdiv_overflows_iff (b a : Longword) :
    (b.toInt.tdiv a.toInt < -(2 ^ 31) ∨ (2 ^ 31 : Int) ≤ b.toInt.tdiv a.toInt) ↔ b = 0x80000000 ∧ a = 0xFFFFFFFF := by
  constructor
  · intro hover
    by_contra hne
    have hfits := BitVec.toInt_sdiv_of_ne_or_ne b a (Decidable.not_and_iff_or_not.1 hne)
    have hlow := BitVec.le_toInt (b.sdiv a)
    have hhigh := (b.sdiv a).toInt_lt
    rw [hfits] at hlow hhigh
    omega
  · rintro ⟨rfl, rfl⟩
    decide

/-- The quotient's low-order 32 bits are the signed quotient of the bit vectors. -/
theorem ofInt_tdiv (b a : Longword) : BitVec.ofInt 32 (b.toInt.tdiv a.toInt) = b.sdiv a :=
  BitVec.eq_of_toInt_eq (by rw [BitVec.toInt_ofInt, BitVec.toInt_sdiv])

section

variable {x y : Specifier} {s : State} {a b : Evaluated}

theorem exec_divl2_stores (ha : evalOperand readLong x (addrAdd s.pc 1) s = .ok a)
    (hb : evalOperand modifyLong y a.next a.state = .ok b) (hw : b.place.writable .long b.state) (hne : a.long ≠ 0) :
    ∃ w, completed .long ((b.long.sdiv a.long).setWidth 128)
        ⟨(b.long.sdiv a.long).msb, decide (b.long.sdiv a.long = 0),
          decide (b.long = 0x80000000 ∧ a.long = 0xFFFFFFFF), false⟩ b s w ∧
      exec (.divl2 x y) s =
        if (b.long = 0x80000000 ∧ a.long = 0xFFFFFFFF) ∧ s.psl.iv = true then
          raiseTrap (.arithmeticTrap .integerOverflow) w else .next w := by
  rw [exec_divl2 ha hb, classIdiv_of_ne_zero (t := .long) hne]
  simp only [← tdiv_overflows_iff]
  exact conclude_classInt_long false hb (operandsDone_of_evalOperand ha) hw (ofInt_tdiv b.long a.long)

theorem exec_divl2_by_zero (ha : evalOperand readLong x (addrAdd s.pc 1) s = .ok a)
    (hb : evalOperand modifyLong y a.next a.state = .ok b) (hw : b.place.writable .long b.state) (hzero : a.long = 0) :
    ∃ w, completed .long b.value ⟨b.long.msb, decide (b.long = 0), true, false⟩ b s w ∧
      exec (.divl2 x y) s = raiseTrap (.arithmeticTrap .integerDivideByZero) w := by
  obtain ⟨w, hstore, hdone⟩ := storeResult_long b.value ⟨b.long.msb, decide (b.long = 0), true, false⟩ hb
    (operandsDone_of_evalOperand ha) hw
  refine ⟨w, hdone, ?_⟩
  rw [exec_divl2 ha hb, classIdiv_of_zero (t := .long) hzero hstore, conclude_trap]

end

/-- Settles O36: no trap is taken, since IV is clear or the division is not the one that overflows. -/
theorem divl2Divides : Obligations.Divl2Divides := by
  intro x y s a b ha hb hw hne hfits
  obtain ⟨w, hdone, hexec⟩ := exec_divl2_stores ha hb hw hne
  refine ⟨w, ?_, hdone⟩
  rw [hexec, if_neg]
  rintro ⟨hover, hiv⟩
  obtain hclear | hno := hfits
  · rw [hclear] at hiv
    cases hiv
  · exact hno hover

/-- Settles O37: a zero divisor leaves the dividend, and the division that overflows leaves its quotient, itself. -/
theorem divl2ByZeroTraps : Obligations.Divl2ByZeroTraps := by
  intro x y s a b ha hb hw
  constructor
  · intro hzero
    obtain ⟨w, hdone, hexec⟩ := exec_divl2_by_zero ha hb hw hzero
    exact ⟨w, hdone, hexec, hdone.trapEnters hexec⟩
  · intro hdividend hdivisor hiv
    obtain ⟨w, hdone, hexec⟩ := exec_divl2_stores ha hb hw (by rw [hdivisor]; decide)
    rw [if_pos ⟨⟨hdividend, hdivisor⟩, hiv⟩] at hexec
    rw [hdividend, hdivisor] at hdone
    exact ⟨w, hdone, hexec, hdone.trapEnters hexec⟩

/-! INDEX. -/

theorem outOfRange_eq_true_iff (subscript low high : Longword) :
    outOfRange subscript low high = true ↔ subscript.toInt < low.toInt ∨ high.toInt < subscript.toInt := by
  simp only [outOfRange, Bool.or_eq_true, decide_eq_true_iff]

section

variable {subscript low high size indexin indexout : Specifier} {s : State} {a b c d e f : Evaluated}
  (ha : evalOperand readLong subscript (addrAdd s.pc 1) s = .ok a) (hb : evalOperand readLong low a.next a.state = .ok b)
  (hc : evalOperand readLong high b.next b.state = .ok c) (hd : evalOperand readLong size c.next c.state = .ok d)
  (he : evalOperand readLong indexin d.next d.state = .ok e)

include ha hb hc hd he

theorem indexOperands_done : operandsDone s e.state :=
  (operandsDone_of_evalOperand ha).trans' <| (operandsDone_of_evalOperand hb).trans' <|
    (operandsDone_of_evalOperand hc).trans' <| (operandsDone_of_evalOperand hd).trans' <| operandsDone_of_evalOperand he

variable (hf : evalOperand writeLong indexout e.next e.state = .ok f)

include hf

/-- INDEX stores its result whether or not the subscript is in range. -/
theorem exec_index :
    exec (.index subscript low high size indexin indexout) s = conclude s
      ((storeResult .long (((e.long + a.long) * d.long).setWidth 128)
        ⟨((e.long + a.long) * d.long).msb, decide ((e.long + a.long) * d.long = 0), false, false⟩ f.place
        (f.state.setPc f.next)).map fun w =>
          if a.long.toInt < b.long.toInt ∨ c.long.toInt < a.long.toInt then
            .trap (.arithmeticTrap .subscriptRange) w else .done w) := by
  simp only [exec, execIndex, ha, hb, hc, hd, he, hf, bind, Except.bind, indexResult, indexCodes, beq_eq_decide,
    outOfRange_eq_true_iff]
  congr 1
  cases storeResult .long (((e.long + a.long) * d.long).setWidth 128)
    ⟨((e.long + a.long) * d.long).msb, decide ((e.long + a.long) * d.long = 0), false, false⟩ f.place
    (f.state.setPc f.next) with
  | error st => rfl
  | ok w => exact (apply_ite Except.ok _ _ _).symm

theorem exec_index_stores (hw : f.place.writable .long f.state) :
    ∃ w, completed .long (((e.long + a.long) * d.long).setWidth 128)
        ⟨((e.long + a.long) * d.long).msb, decide ((e.long + a.long) * d.long = 0), false, false⟩ f s w ∧
      exec (.index subscript low high size indexin indexout) s =
        if a.long.toInt < b.long.toInt ∨ c.long.toInt < a.long.toInt then
          raiseTrap (.arithmeticTrap .subscriptRange) w else .next w := by
  obtain ⟨w, hstore, hdone⟩ := storeResult_long (((e.long + a.long) * d.long).setWidth 128)
    ⟨((e.long + a.long) * d.long).msb, decide ((e.long + a.long) * d.long = 0), false, false⟩ hf
    (indexOperands_done ha hb hc hd he) hw
  refine ⟨w, hdone, ?_⟩
  rw [exec_index ha hb hc hd he hf, hstore]
  exact apply_ite (fun r => conclude s (.ok r)) _ _ _

end

/-- Settles O38: the subscript's range decides between the next state and the trap. -/
theorem indexComputes : Obligations.IndexComputes := by
  intro subscript low high size indexin indexout s a b c d e f ha hb hc hd he hf hw
  obtain ⟨w, hdone, hexec⟩ := exec_index_stores ha hb hc hd he hf hw
  refine ⟨fun hlow hhigh => ⟨w, ?_, hdone⟩, fun hout => ?_⟩
  · rw [hexec, if_neg (by omega)]
  · rw [if_pos hout] at hexec
    exact ⟨w, hdone, hexec, hdone.trapEnters hexec⟩

end Sys2Proof.Machine
end

section
/-! SUPPORT. Classes FLT and FDIV (40_arithmetic_exceptions.md R104 to R109, R112 to R114, R121, R122): a floating result stored
with or without a trap, the faults that store nothing, and the reserved operand where it is read (R105, R125). -/

namespace Sys2Proof.Machine

open Sys2Proof

/-- Settles O15, code by code. -/
theorem arithmeticTypeCodes : Obligations.ArithmeticTypeCodes := fun _ => ⟨rfl, rfl⟩

/-! What is stored. -/

/-- How an instruction ends after its result, with a trap or without. -/
def Completion.ofTrap (trap : Option ArithTrap) (w : State) : Completion :=
  match trap with
  | some c => .trap (.arithmeticTrap c) w
  | none => .done w

section

variable {t : FloatType} {p : Place} {s : State}

/-- Where the place can be written, a floating result is stored and its trap follows. -/
theorem floatTrap_stores (v : Octaword) (cc : CondCodes) (trap : Option ArithTrap) (hw : p.writable t.opType s)
    (hp : ∀ r, p = .reg r → reachesPc t.opType r = false) :
    ∃ w, resultStored t.opType v cc p s w ∧ floatTrap t v cc trap p s = .ok (.ofTrap trap w) := by
  obtain ⟨w, hstore, hstored⟩ := storeResult_stores v cc hw hp
  refine ⟨w, hstored, ?_⟩
  rw [floatTrap, hstore]
  cases trap <;> rfl

theorem classFlt_normal (v : Octaword) (cc : CondCodes) : classFlt t (.normal v cc) p s = floatTrap t v cc none p s := rfl

theorem classFlt_overflow_trap (h : s.config.floatStyle = .trap) :
    classFlt t .overflow p s = floatTrap t 0x8000 ⟨true, false, true, false⟩ (some .floatingOverflow) p s := by
  simp only [classFlt, h]
  rfl

theorem classFlt_overflow_fault (h : s.config.floatStyle = .fault) :
    classFlt t .overflow p s = .error (.floatingFault .floatingOverflow false) := by
  simp only [classFlt, h]

theorem classFlt_underflow_disabled (h : s.psl.fu = false) :
    classFlt t .underflow p s = floatTrap t 0 ⟨false, true, false, false⟩ none p s := by
  simp only [classFlt, h]
  rfl

theorem classFlt_underflow_trap (hfu : s.psl.fu = true) (h : s.config.floatStyle = .trap) :
    classFlt t .underflow p s = floatTrap t 0 ⟨false, true, false, false⟩ (some .floatingUnderflow) p s := by
  simp only [classFlt, hfu, h]
  rfl

theorem classFlt_underflow_fault (hfu : s.psl.fu = true) (h : s.config.floatStyle = .fault) :
    classFlt t .underflow p s = .error (.floatingFault .floatingUnderflow false) := by
  simp only [classFlt, hfu, h, if_true]

end

/-- Settles O39: each outcome that is stored is a `floatTrap` of its value, codes and trap. -/
theorem classFloatOutcomes : Obligations.ClassFloatOutcomes := by
  intro t o p s hw hp bits cc trap houtcome
  obtain ⟨w, hstored, hdone⟩ := floatTrap_stores bits cc trap hw hp
  refine ⟨w, hstored.stored, hstored.psl, hstored.pc, hstored.otherStacks, hstored.setting, ?_⟩
  suffices hflt : classFlt t o p s = floatTrap t bits cc trap p s by
    rw [hflt, hdone]
    cases trap <;> rfl
  cases o with
  | normal v k =>
    obtain ⟨rfl, rfl, rfl⟩ := houtcome
    exact classFlt_normal _ _
  | overflow =>
    obtain ⟨hstyle, rfl, rfl, rfl⟩ := houtcome
    exact classFlt_overflow_trap hstyle
  | underflow =>
    obtain ⟨rfl, rfl, ⟨hfu, rfl⟩ | ⟨hfu, hstyle, rfl⟩⟩ := houtcome
    · exact classFlt_underflow_disabled hfu
    · exact classFlt_underflow_trap hfu hstyle
  | reserved => exact houtcome.elim

/-- Settles O40: each fault by its outcome; the PSL saved by a floating fault is `floatingFaultPsl`. -/
theorem classFloatFaults : Obligations.ClassFloatFaults :=
  ⟨fun _ _ _ => ⟨rfl, fun hstyle => ⟨classFlt_overflow_fault hstyle, fun hfu => classFlt_underflow_fault hfu hstyle⟩⟩,
    fun s _ suspend => ⟨floatingFaultPsl suspend s, rfl, rfl, rfl⟩⟩

/-! Class FDIV. -/

section

variable {t : FloatType} {dividend divisor : Octaword} {o : FloatOutcome} {p : Place} {s : State}

theorem classFdiv_of_reserved (h : isReservedFloat t dividend = true ∨ isReservedFloat t divisor = true) :
    classFdiv t dividend divisor o p s = .error (.fault .reservedOperand) := if_pos (by simpa using h)

variable (hdividend : isReservedFloat t dividend = false) (hdivisor : isReservedFloat t divisor = false)

include hdividend hdivisor

theorem classFdiv_of_ne_zero (h : isFloatZero t divisor = false) :
    classFdiv t dividend divisor o p s = classFlt t o p s := by
  simp [classFdiv, hdividend, hdivisor, h]

theorem classFdiv_zero_fault (h : isFloatZero t divisor = true) (hstyle : s.config.floatStyle = .fault) :
    classFdiv t dividend divisor o p s = .error (.floatingFault .floatingDivideByZero false) := by
  simp [classFdiv, hdividend, hdivisor, h, hstyle]

theorem classFdiv_zero_trap (h : isFloatZero t divisor = true) (hstyle : s.config.floatStyle = .trap) :
    classFdiv t dividend divisor o p s = floatTrap t 0x8000 ⟨true, false, true, false⟩ (some .divideByZero) p s := by
  simp [classFdiv, hdividend, hdivisor, h, hstyle, reservedFloat, overflowCodes]

end

/-- Settles O41: the reserved operands are asked first, then the zero divisor and the processor's style. -/
theorem classFloatDivide : Obligations.ClassFloatDivide := by
  intro t dividend divisor o p s
  refine ⟨classFdiv_of_reserved, fun hdividend hdivisor => ⟨classFdiv_of_ne_zero hdividend hdivisor, fun hzero =>
    ⟨classFdiv_zero_fault hdividend hdivisor hzero, fun hstyle hw hp => ?_⟩⟩⟩
  obtain ⟨w, hstored, hdone⟩ := floatTrap_stores 0x8000 ⟨true, false, true, false⟩ (some .divideByZero) hw hp
  exact ⟨w, hstored.stored, hstored.psl, hstored.pc, hstored.otherStacks, hstored.setting,
    (classFdiv_zero_trap hdividend hdivisor hzero hstyle).trans hdone⟩

/-! The reserved operand. -/

theorem floatExponent_eq_zero_iff (t : FloatType) (v : Octaword) :
    floatExponent t v = 0 ↔
      match t with
      | .f | .d => v.extractLsb' 7 8 = 0#8
      | .g => v.extractLsb' 4 11 = 0#11
      | .h => v.extractLsb' 0 15 = 0#15 := by
  cases t <;> simp only [floatExponent] <;> exact BitVec.toNat_inj (y := 0#_)

theorem isReservedFloat_eq_true_iff (t : FloatType) (v : Octaword) :
    isReservedFloat t v = true ↔ v.getLsbD 15 = true ∧ floatExponent t v = 0 := by
  simp only [isReservedFloat, floatSign, Bool.and_eq_true, beq_iff_eq]

theorem isFloatZero_eq_true_iff (t : FloatType) (v : Octaword) :
    isFloatZero t v = true ↔ v.getLsbD 15 = false ∧ floatExponent t v = 0 := by
  simp only [isFloatZero, floatSign, Bool.and_eq_true, Bool.not_eq_true', beq_iff_eq]

@[simp] theorem readsReserved_float (t : FloatType) (v : Octaword) : readsReserved t.opType v = isReservedFloat t v := by
  cases t <;> rfl

theorem checkedOperand_of_reserved {k : OperandKind} {v : Octaword} (h : readsReserved k.type v = true) (p : Place)
    (next : Longword) (s : State) : checkedOperand k v p next s = .error (.fault .reservedOperand) := if_pos h

section

variable {k : OperandKind} (hk : k.access = .read ∨ k.access = .modify) {next pos : Longword} {s : State} {o : Evaluated}

include hk

/-- A place that is read or modified gives a value that has passed the check. -/
theorem accessPlace_checked {p : Place} (h : accessPlace k p next s = .ok o) : readsReserved k.type o.value = false := by
  cases hread : s.readPlace k.type next p with
  | error e => rcases hk with hk | hk <;> simp [accessPlace, hk, hread] at h
  | ok v =>
    rw [accessPlace_of_readPlace hk hread] at h
    obtain ⟨hv, rfl⟩ := checkedOperand_ok h
    exact hv

/-- An immediate operand that is read or modified has passed the check. -/
theorem accessImmediate_checked {v : Octaword} (h : accessImmediate k v next s = .ok o) :
    readsReserved k.type o.value = false := by
  have hcheck : checkedOperand k v (.mem (next - BitVec.ofNat 32 k.type.size)) next s = .ok o := by
    rcases hk with hk | hk <;> simpa only [accessImmediate, hk] using h
  obtain ⟨hv, rfl⟩ := checkedOperand_ok hcheck
  exact hv

end

/-- No short literal has the sign bit (log 18). -/
theorem literal_not_reserved (t : OpType) (v : BitVec 6) : readsReserved t (v.setWidth 128) = false := by
  have hsign : floatSign (v.setWidth 128) = false := by simp [floatSign]
  cases h : t.float <;> simp [readsReserved, h, isReservedFloat, hsign]

/-- An operand that is read or modified is no reserved operand, whatever its form. -/
theorem evalOperand_checked {k : OperandKind} (hk : k.access = .read ∨ k.access = .modify) {sp : Specifier} {pos : Longword}
    {s : State} {o : Evaluated} (h : evalOperand k sp pos s = .ok o) : readsReserved k.type o.value = false := by
  unfold evalOperand at h
  dsimp only at h
  split at h
  case h_1 =>
    split at h
    · cases h; exact literal_not_reserved _ _
    · cases h
  case h_2 =>
    split at h
    · cases h
    split at h
    · cases h
    · exact accessPlace_checked hk h
  case h_3 => exact accessImmediate_checked hk h
  case h_4 =>
    split at h
    · cases h
    · exact accessPlace_checked hk h
  case h_5 =>
    split at h
    · cases h
    split at h
    · cases h
    · exact accessPlace_checked hk h
  case h_6 => cases h

/-- A place that holds a reserved operand faults where it is read or modified. -/
theorem accessPlace_of_reserved {t : FloatType} {access : OpAccess} (hk : access = .read ∨ access = .modify) {p : Place}
    {next : Longword} {s : State} {v : Octaword} (hread : s.readPlace t.opType next p = .ok v)
    (hv : isReservedFloat t v = true) :
    accessPlace ⟨access, t.opType⟩ p next s = .error (.fault .reservedOperand) := by
  rw [accessPlace_of_readPlace (k := ⟨access, t.opType⟩) hk hread]
  exact checkedOperand_of_reserved (by rwa [readsReserved_float]) _ _ _

theorem ne_pc_of_not_reachesPc {t : OpType} {r : Reg} (h : reachesPc t r = false) : r ≠ 15 := by
  rintro rfl
  simp [reachesPc] at h

/-- Settles O60: the bits of a reserved operand, then the check at a register, at a memory place, and at every form. -/
theorem reservedFloatOperandFaults : Obligations.ReservedFloatOperandFaults := by
  constructor
  · intro t v
    refine ⟨?_, ?_, by cases t <;> decide, by cases t <;> decide⟩
    · have hbits := (isReservedFloat_eq_true_iff t v).trans (and_congr_right' (floatExponent_eq_zero_iff t v))
      cases t <;> exact hbits
    · have hbits := (isFloatZero_eq_true_iff t v).trans (and_congr_right' (floatExponent_eq_zero_iff t v))
      cases t <;> exact hbits
  · intro t access pos s hk
    refine ⟨fun r hpc hv => ?_, fun r v hr hread hv => ?_, fun sp o h => ?_⟩
    · rw [evalOperand_register (by rcases hk with rfl | rfl <;> nofun) (ne_pc_of_not_reachesPc hpc)]
      exact accessPlace_of_reserved hk (by rw [State.readPlace, hpc]; rfl) hv
    · rw [evalOperand_deferred _ hr]
      exact accessPlace_of_reserved hk hread hv
    · rw [← readsReserved_float]
      exact evalOperand_checked hk h

end Sys2Proof.Machine
end

section
/-! SUPPORT. Classes DEC and DDIV (40_arithmetic_exceptions.md R107, R110, R123, R124): what a decimal-string result stores,
reading a string (41_memory_and_operand_exceptions.md R149; log 36), and the class instructions on strings. -/

namespace Sys2Proof.Machine

open Sys2Proof

/-- `w` is `s` after a decimal-string instruction: the bytes are stored at `addr`, the condition codes are set, R0 to R5 are
free values, nothing else has changed. -/
structure stringStored (bytes : List Byte) (addr : Longword) (cc : CondCodes) (s w : State) : Prop where
  holds : s.wf → s.separate s.psl.cur addr bytes.length → memoryHolds s.psl.cur addr bytes s w
  outside : memorySameOutside s.psl.cur addr bytes.length s w
  free : ∀ q : Reg, q.val < 6 → w.getReg q = Config.draw (s.draws + q.val)
  kept : ∀ q : Reg, 6 ≤ q.val → w.getReg q = s.getReg q
  sps : w.sps = s.sps
  pc : w.pc = s.pc
  psl : w.psl = s.psl.withCodes cc
  setting : sameSetting s w

/-- Where the bytes can be written, a decimal-string result is stored. -/
theorem store_string {s : State} {bytes : List Byte} {addr : Longword} (cc : CondCodes)
    (h : s.canWrite s.psl.cur addr bytes.length) :
    ∃ u, s.store bytes addr = .ok u ∧ stringStored bytes addr cc s (u.drawStringRegs.setCodes cc) := by
  obtain ⟨u, hu⟩ := (State.store_ok_iff s bytes addr).2 h
  obtain ⟨heq, -, hout, hholds⟩ := State.store_spec hu
  have hreg (q : Reg) : (u.drawStringRegs.setCodes cc).getReg q = if q.val < 6 then u.drawn q.val else u.getReg q :=
    u.drawStringRegs_getReg q
  refine ⟨u, hu, hholds, hout, fun q hq => ?_, fun q hq => ?_, ?_, ?_, ?_, ?_⟩
  · rw [hreg, if_pos hq, heq]; rfl
  · rw [hreg, if_neg (by omega), heq]; rfl
  · rw [State.setCodes_sps, State.drawStringRegs_sps, heq]
  · rw [State.setCodes_pc, State.drawStringRegs_pc, heq]
  · rw [State.setCodes_psl, State.drawStringRegs_psl, heq]
  · rw [heq]; exact ⟨rfl, rfl, rfl⟩

/-- The free values drawn besides are no part of what is stored. -/
theorem stringStored.draws {bytes : List Byte} {addr : Longword} {cc : CondCodes} {s u : State}
    (h : stringStored bytes addr cc s (u.drawStringRegs.setCodes cc)) (n : Nat) :
    stringStored bytes addr cc s (((u.drawRegs 6 0 0).setCodes cc).advanceDraws n) :=
  ⟨h.holds, h.outside, h.free, h.kept, h.sps, h.pc, h.psl, h.setting⟩

/-- The bytes of a decimal result's string of `len` digits. -/
def decimalBytes (o : DecOutcome) (len : Nat) : List Byte :=
  (List.range (decimalSize len)).map fun i => Config.decimalByte o.negative (o.magnitude % 10 ^ len) len i

/-- The free values that a zero divisor leaves in a destination string of `len` digits. -/
def freeBytes (s : State) (len : Nat) : List Byte :=
  (List.range (decimalSize len)).map fun i => (s.drawn (10 + i)).setWidth 8

theorem decimalBytes_length (o : DecOutcome) (len : Nat) : (decimalBytes o len).length = decimalSize len := by
  simp [decimalBytes]

theorem freeBytes_length (s : State) (len : Nat) : (freeBytes s len).length = decimalSize len := by
  simp [freeBytes]

section

variable {len : Nat} {addr : Longword} {s : State} (h : s.canWrite s.psl.cur addr (decimalSize len))

include h

theorem classDec_stores (o : DecOutcome) :
    ∃ w, stringStored (decimalBytes o len) addr ⟨o.n, o.z, decide (10 ^ len ≤ o.magnitude), o.c⟩ s w ∧
      classDec o len addr s = .ok (if 10 ^ len ≤ o.magnitude ∧ s.psl.dv = true then
        .trap (.arithmeticTrap .decimalOverflow) w else .done w) := by
  obtain ⟨u, hu, hstored⟩ := store_string ⟨o.n, o.z, decide (10 ^ len ≤ o.magnitude), o.c⟩
    (by rwa [decimalBytes_length o len])
  refine ⟨_, hstored, ?_⟩
  rw [decimalBytes] at hu
  simp only [classDec, hu, Bool.and_eq_true, decide_eq_true_iff]
  exact (apply_ite Except.ok _ _ _).symm

theorem classDdiv_zero_stores {divisor : DecimalString} (hzero : Config.decimalIsZero divisor = true) (o : DecOutcome) :
    ∃ w, stringStored (freeBytes s len) addr ⟨s.drawnBit 6, s.drawnBit 7, s.drawnBit 8, s.drawnBit 9⟩ s w ∧
      classDdiv divisor o len addr s = .ok (.trap (.arithmeticTrap .divideByZero) w) := by
  obtain ⟨u, hu, hstored⟩ := store_string ⟨s.drawnBit 6, s.drawnBit 7, s.drawnBit 8, s.drawnBit 9⟩
    (by rwa [freeBytes_length s len])
  refine ⟨_, hstored.draws (10 + decimalSize len), ?_⟩
  rw [freeBytes] at hu
  simp only [classDdiv, hzero, if_true, hu]

end

/-! Reading a string. -/

section

variable {len addr : Evaluated} {s : State}

theorem readString_of_long (h : 31 < len.word.toNat) : readString len addr s = .error (.fault .reservedOperand) := if_pos h

variable (h : len.word.toNat ≤ 31)

include h

theorem readString_of_error {e : Stop}
    (hread : s.readBytes s.psl.cur (len.word.toNat / 2 + 1) addr.long = .error e) : readString len addr s = .error e := by
  rw [readString, if_neg (by omega), decimalSize, hread]

theorem readString_of_ok {bs : List Byte} (hread : s.readBytes s.psl.cur (len.word.toNat / 2 + 1) addr.long = .ok bs) :
    readString len addr s = if Config.decimalIsInvalid ⟨len.word.toNat, bs⟩ = true then .error (.fault .reservedOperand)
      else .ok ⟨len.word.toNat, bs⟩ := by
  rw [readString, if_neg (by omega), decimalSize, hread]

end

/-! The class instructions with a string as destination. -/

theorem usesStrings_eq_true_iff (c : ClassOp) : c.usesStrings = true ↔ c.kind.isDecimal = true ∨ .string ∈ c.sources := by
  simp [ClassOp.usesStrings]

theorem execClass_suspended {c : ClassOp} {n : Nat} {specs : List Specifier} {s : State}
    (h : c.kind.isDecimal = true ∨ .string ∈ c.sources) (hfpd : s.psl.fpd = true) :
    execClass c n specs s = .refused .resumeSuspended :=
  if_pos (by rw [(usesStrings_eq_true_iff c).2 h, hfpd]; rfl)

/-- Two string sources give the two strings in order; the first that cannot be read stops the instruction. -/
theorem gatherSources_two_strings (l a l' a' : Evaluated) (left : List Evaluated) (s : State) :
    gatherSources [.string, .string] (l :: a :: l' :: a' :: left) s =
      (readString l a s).bind fun str => (readString l' a' s).map fun str' => ([], [str, str'], left) := by
  rw [gatherSources, gatherSources_string]
  cases readString l a s with
  | error e => rfl
  | ok str => cases readString l' a' s <;> rfl

section

variable {c : ClassOp} {n : Nat} {specs : List Specifier} {s s' : State} {ops : List Evaluated} {len addr : Evaluated}
  {next : Longword} (hfpd : s.psl.fpd = false)
  (heval : evalOperands c.operands specs (addrAdd s.pc n) s = .ok (ops, next, s'))

include hfpd heval

theorem execClass_decimal {vs : List Octaword} {strs : List DecimalString} (hkind : c.kind.isDecimal = true)
    (hgather : gatherSources c.sources ops s' = .ok (vs, strs, [len, addr])) :
    execClass c n specs s = conclude s (runStringClass c vs strs len addr (s'.setPc next)) := by
  simp only [execClass, hfpd, Bool.and_false, heval, hgather, hkind]
  rfl

/-- A string source that cannot be read stops the instruction. -/
theorem execClass_gather_error {e : Stop} (hgather : gatherSources c.sources ops s' = .error e) :
    execClass c n specs s = raiseStop s e := by
  simp only [execClass, hfpd, Bool.and_false, heval, hgather]
  rfl

end

section

variable {c : ClassOp} {vs : List Octaword} {strs : List DecimalString} {len addr : Evaluated} {s : State}

theorem runStringClass_of_long (h : 31 < len.word.toNat) :
    runStringClass c vs strs len addr s = .error (.fault .reservedOperand) := if_pos h

theorem runStringClass_modify_error (hlen : ¬ 31 < len.word.toNat) (hmodify : c.modify = true) {e : Stop}
    (hread : readString len addr s = .error e) : runStringClass c vs strs len addr s = .error e := by
  simp only [runStringClass, if_neg hlen, hmodify, if_true, hread]
  rfl

/-- The strings that a decimal instruction's oracle sees: its sources, then the destination's old contents where it
modifies it. -/
def stringInputs (c : ClassOp) (strs : List DecimalString) (old : DecimalString) : List DecimalString :=
  if c.modify then strs ++ [old] else strs

variable {old : DecimalString}

theorem runStringClass_dec (hkind : c.kind = .dec) (hlen : ¬ 31 < len.word.toNat)
    (hread : c.modify = true → readString len addr s = .ok old) :
    runStringClass c vs strs len addr s =
      classDec (Config.decOutcome c.opcode vs (stringInputs c strs old) len.word.toNat) len.word.toNat addr.long s := by
  cases hmodify : c.modify with
  | false => simp [runStringClass, hlen, hmodify, hkind, stringInputs]
  | true => simp [runStringClass, hlen, hmodify, hkind, stringInputs, hread hmodify, Except.map]

theorem runStringClass_ddiv (hkind : c.kind = .ddiv) (hlen : ¬ 31 < len.word.toNat)
    (hread : c.modify = true → readString len addr s = .ok old) {divisor : DecimalString} {rest : List DecimalString}
    (hinputs : stringInputs c strs old = divisor :: rest) :
    runStringClass c vs strs len addr s =
      classDdiv divisor (Config.decOutcome c.opcode vs (divisor :: rest) len.word.toNat) len.word.toNat addr.long s := by
  cases hmodify : c.modify with
  | false =>
    obtain rfl : strs = divisor :: rest := by simpa [stringInputs, hmodify] using hinputs
    simp [runStringClass, hlen, hmodify, hkind]
  | true =>
    have hcons : strs ++ [old] = divisor :: rest := by simpa [stringInputs, hmodify] using hinputs
    simp [runStringClass, hlen, hmodify, hkind, hread hmodify, Except.map, hcons]

end

/-! Class DEC, instruction by instruction. -/

section

variable {c : ClassOp} {n : Nat} {specs : List Specifier} {s s' : State} {os : List Evaluated} {len addr : Evaluated}
  {next : Longword} {vs : List Octaword} {strs : List DecimalString}

/-- What a class DEC instruction comes to once its sources are known. -/
def finishDec (c : ClassOp) (s u : State) (len addr : Evaluated) (vs : List Octaword) (strs : List DecimalString) : Answer :=
  if 31 < len.word.toNat then raiseStop s (.fault .reservedOperand)
  else if c.modify = true then
    match readString len addr u with
    | .error e => raiseStop s e
    | .ok old => conclude s (classDec (Config.decOutcome c.opcode vs (strs ++ [old]) len.word.toNat) len.word.toNat addr.long u)
  else conclude s (classDec (Config.decOutcome c.opcode vs strs len.word.toNat) len.word.toNat addr.long u)

theorem conclude_runStringClass_dec (s u : State) (hkind : c.kind = .dec) :
    conclude s (runStringClass c vs strs len addr u) = finishDec c s u len addr vs strs := by
  rw [finishDec]
  split
  · next hlen => rw [runStringClass_of_long hlen, conclude_error]
  · next hlen =>
    split
    · next hmodify =>
      cases hread : readString len addr u with
      | error e => rw [runStringClass_modify_error hlen hmodify hread, conclude_error]
      | ok old => rw [runStringClass_dec hkind hlen fun _ => hread, stringInputs, if_pos hmodify]
    · next hmodify =>
      rw [runStringClass_dec (old := default) hkind hlen fun h => absurd h hmodify, stringInputs, if_neg hmodify]

variable (hkind : c.kind = .dec) (hfpd : s.psl.fpd = false)
  (heval : evalOperands c.operands specs (addrAdd s.pc n) s = .ok (os ++ [len, addr], next, s'))

include hkind hfpd heval

theorem execClass_dec (hgather : gatherSources c.sources (os ++ [len, addr]) s' = .ok (vs, strs, [len, addr])) :
    execClass c n specs s = finishDec c s (s'.setPc next) len addr vs strs := by
  rw [execClass_decimal hfpd heval (by rw [hkind]; rfl) hgather, conclude_runStringClass_dec s _ hkind]

end

/-- Settles O42: the strings are gathered in order, the destination's length and old contents looked at last, and class DEC
stores the oracle's outcome. -/
theorem classDecimal : Obligations.ClassDecimal := by
  refine ⟨fun c n specs s h hfpd => execClass_suspended h hfpd, fun len addr s => ⟨readString_of_long, fun hlen =>
    ⟨fun e => readString_of_error hlen, fun bs => readString_of_ok hlen⟩⟩, ?_, ?_⟩
  · intro c n specs s s' os len addr next hkind hfpd heval
    have hrun {vs : List Octaword} {strs : List DecimalString} :=
      execClass_dec (vs := vs) (strs := strs) hkind hfpd heval
    refine ⟨fun types hsources hlen => ?_, fun l a hsources hos => ?_, fun l a l' a' hsources hos => ?_⟩
    · exact hrun (by rw [hsources]; exact gatherSources_scalars types os _ s' hlen)
    · subst hos
      have hgather : gatherSources c.sources ([l, a] ++ [len, addr]) s' = _ :=
        (congrArg (gatherSources · _ s') hsources).trans (gatherSources_string l a [len, addr] s')
      cases hread : readString l a s' <;> rw [hread] at hgather
      · exact execClass_gather_error hfpd heval hgather
      · exact hrun hgather
    · subst hos
      have hgather : gatherSources c.sources ([l, a, l', a'] ++ [len, addr]) s' = _ :=
        (congrArg (gatherSources · _ s') hsources).trans (gatherSources_two_strings l a l' a' [len, addr] s')
      cases hread : readString l a s' <;> rw [hread] at hgather
      · exact execClass_gather_error hfpd heval hgather
      cases hread' : readString l' a' s' <;> rw [hread'] at hgather
      · exact execClass_gather_error hfpd heval hgather
      · exact hrun hgather
  · intro o len addr s hw
    obtain ⟨w, hstored, hdone⟩ := classDec_stores hw o
    have holds := hstored.holds
    have outside := hstored.outside
    rw [decimalBytes_length] at holds outside
    exact ⟨w, holds, hstored.free, hstored.pc, hstored.psl, outside, hstored.kept, hstored.sps, hstored.setting, hdone⟩

/-- Settles O43: the divisor is gathered first, then the dividend, a source of its own or the destination's old contents; a
zero divisor leaves free values and traps. -/
theorem classDecimalDivide : Obligations.ClassDecimalDivide := by
  constructor
  · intro c n specs s s' l a len addr os next hkind hfpd heval
    have hdecimal : c.kind.isDecimal = true := by rw [hkind]; rfl
    refine ⟨fun l' a' hmodify hsources hos => ?_, fun hmodify hsources hos => ?_⟩
    · subst hos
      have hgather : gatherSources c.sources (l :: a :: [l', a'] ++ [len, addr]) s' = _ :=
        (congrArg (gatherSources · _ s') hsources).trans (gatherSources_two_strings l a l' a' [len, addr] s')
      cases hread : readString l a s' <;> rw [hread] at hgather
      · exact execClass_gather_error hfpd heval hgather
      cases hread' : readString l' a' s' <;> rw [hread'] at hgather
      · exact execClass_gather_error hfpd heval hgather
      simp only [execClass_decimal hfpd heval hdecimal hgather]
      split
      · next hlen => rw [runStringClass_of_long hlen, conclude_error]
      · next hlen =>
        rw [runStringClass_ddiv (old := default) hkind hlen (fun h => absurd h (by rw [hmodify]; decide))
          (by rw [stringInputs, hmodify]; rfl)]
    · subst hos
      have hgather : gatherSources c.sources (l :: a :: [] ++ [len, addr]) s' = _ :=
        (congrArg (gatherSources · _ s') hsources).trans (gatherSources_string l a [len, addr] s')
      cases hread : readString l a s' <;> rw [hread] at hgather
      · exact execClass_gather_error hfpd heval hgather
      simp only [execClass_decimal hfpd heval hdecimal hgather]
      by_cases hlen : 31 < len.word.toNat
      · rw [runStringClass_of_long hlen, readString_of_long hlen, conclude_error]
      cases hold : readString len addr (s'.setPc next) with
      | error e => rw [runStringClass_modify_error hlen hmodify hold, conclude_error]
      | ok dividend =>
        rw [runStringClass_ddiv hkind hlen (fun _ => hold) (by rw [stringInputs, hmodify]; rfl)]
        rfl
  · intro divisor o len addr s hw
    split
    · next hzero =>
      obtain ⟨w, hstored, hdone⟩ := classDdiv_zero_stores hw hzero o
      have holds := hstored.holds
      have outside := hstored.outside
      rw [freeBytes_length] at holds outside
      refine ⟨w, hdone, hstored.free, hstored.kept, hstored.sps, by rw [hstored.psl]; rfl, by rw [hstored.psl]; rfl, outside,
        fun hwf hsep => ?_, hstored.setting⟩
      have hbytes := holds hwf hsep
      simpa only [freeBytes, State.drawn, Nat.add_assoc] using hbytes
    · next hzero => rw [classDdiv, if_neg hzero]

end Sys2Proof.Machine
end

section
/-! SUPPORT. POLYx (40_arithmetic_exceptions.md R115): the registers its result is left in, its steps as `polyRun`, and how it
ends (log 29 to 31). -/

namespace Sys2Proof.Machine

open Sys2Proof

/-! Registers written in a row below R14. -/

/-- `t` is `s` with registers written, `n` of them from R`lo` up. -/
structure regsWritten (lo n : Nat) (s t : State) : Prop where
  rest : t = { s with regs := t.regs }
  kept : ∀ q : Reg, q.val < lo ∨ lo + n ≤ q.val → t.getReg q = s.getReg q

theorem regsWritten.refl' (lo : Nat) (s : State) : regsWritten lo 0 s s := ⟨rfl, fun _ _ => rfl⟩

theorem regsWritten.append {lo n m : Nat} {s t u : State} (h : regsWritten lo n s t) (k : regsWritten (lo + n) m t u) :
    regsWritten lo (n + m) s u := by
  refine ⟨by rw [k.rest, h.rest], fun q hq => ?_⟩
  rw [k.kept q (by omega), h.kept q (by omega)]

theorem regsWritten_setReg (s : State) {r : Reg} (v : Longword) (h : r.val < 14) : regsWritten r.val 1 s (s.setReg r v) :=
  ⟨by rw [State.setReg, dif_pos h], fun q hq => State.getReg_setReg_other s r q v fun e => by subst e; omega⟩

theorem regsWritten_writeRegs (s : State) (n : Nat) (r : Reg) (v : Nat) (h : r.val + n ≤ 14) :
    regsWritten r.val n s (s.writeRegs n r v) := by
  induction n generalizing s r v with
  | zero => exact regsWritten.refl' _ _
  | succ n ih =>
    have hnext := reg_succ_val r (by omega)
    have hlater := ih (s.setReg r (BitVec.ofNat 32 v)) (r + 1) (v / 2 ^ 32) (by omega)
    rw [hnext] at hlater
    have hboth := (regsWritten_setReg s (BitVec.ofNat 32 v) (by omega)).append hlater
    rwa [Nat.add_comm 1 n] at hboth

theorem regsWritten_drawRegs (s : State) (n : Nat) (r : Reg) (i : Nat) (h : r.val + n ≤ 14) :
    regsWritten r.val n s (s.drawRegs n r i) := by
  induction n generalizing s r i with
  | zero => exact regsWritten.refl' _ _
  | succ n ih =>
    have hnext := reg_succ_val r (by omega)
    have hlater := ih (s.setReg r (s.drawn i)) (r + 1) (i + 1) (by omega)
    rw [hnext] at hlater
    have hboth := (regsWritten_setReg s (s.drawn i) (by omega)).append hlater
    rwa [Nat.add_comm 1 n] at hboth

/-- Registers read as one value depend on those registers alone. -/
theorem readRegs_congr {s t : State} {n : Nat} {r : Reg} (hr : r.val + n ≤ 15)
    (h : ∀ q : Reg, r.val ≤ q.val → q.val < r.val + n → t.getReg q = s.getReg q) : t.readRegs n r = s.readRegs n r := by
  induction n generalizing r with
  | zero => rfl
  | succ n ih =>
    have hnext := reg_succ_val r (by omega)
    rw [State.readRegs, State.readRegs, h r le_rfl (by omega),
      ih (by omega) fun q hlow hhigh => h q (by omega) (by omega)]

/-! What POLYx leaves. -/

theorem polyRegs_le (t : FloatType) :
    (Fin.ofNat 16 (polyResultRegs t) : Reg).val = polyResultRegs t ∧ polyResultRegs t + polyOtherRegs t ≤ 6 := by
  cases t <;> decide

section

variable (t : FloatType) (v : Octaword) (cc : CondCodes) (s : State)

/-- The registers of the result and those after it are written, then the draws counted and the codes set. -/
theorem polyStore_eq :
    ∃ u, regsWritten 0 (polyResultRegs t) s (s.writeRegs (polyResultRegs t) 0 v.toNat) ∧
      regsWritten (polyResultRegs t) (polyOtherRegs t) (s.writeRegs (polyResultRegs t) 0 v.toNat) u ∧
      polyStore t v cc s = (u.advanceDraws (polyOtherRegs t)).setCodes cc := by
  obtain ⟨hfirst, hle⟩ := polyRegs_le t
  have hother := regsWritten_drawRegs (s.writeRegs (polyResultRegs t) 0 v.toNat) (polyOtherRegs t)
    (Fin.ofNat 16 (polyResultRegs t)) 0 (by omega)
  rw [hfirst] at hother
  exact ⟨_, regsWritten_writeRegs s (polyResultRegs t) 0 v.toNat (by show 0 + _ ≤ 14; omega), hother, rfl⟩

/-- Everything but the registers, the draws and the condition codes stays. -/
theorem polyStore_rest :
    polyStore t v cc s = { s with
      regs := (polyStore t v cc s).regs, draws := s.draws + polyOtherRegs t, psl := s.psl.withCodes cc } := by
  obtain ⟨u, hresult, hother, heq⟩ := polyStore_eq t v cc s
  rw [heq, hother.rest, hresult.rest]
  rfl

theorem polyStore_kept (q : Reg) (hq : regCount t.opType + polyOtherRegs t ≤ q.val) :
    (polyStore t v cc s).getReg q = s.getReg q := by
  obtain ⟨u, hresult, hother, heq⟩ := polyStore_eq t v cc s
  have hboth : regsWritten 0 (polyResultRegs t + polyOtherRegs t) s u := hresult.append (by rwa [Nat.zero_add])
  rw [heq]
  exact hboth.kept q (.inr (by rwa [Nat.zero_add]))

/-- The result is in R0 and the registers after it that its type takes. -/
theorem polyStore_result (h : v.toNat < 256 ^ t.opType.size) : (polyStore t v cc s).readRegOperand t.opType 0 = v := by
  obtain ⟨u, hresult, hother, heq⟩ := polyStore_eq t v cc s
  have hle := (polyRegs_le t).2
  have hread : (polyStore t v cc s).readRegs (regCount t.opType) 0 =
      (s.writeRegs (polyResultRegs t) 0 v.toNat).readRegs (polyResultRegs t) 0 := by
    rw [heq]
    refine readRegs_congr (by show 0 + polyResultRegs t ≤ 15; omega) fun q _ hq => hother.kept q (.inl ?_)
    rwa [Fin.val_zero, Nat.zero_add] at hq
  rw [State.readRegOperand, hread, readRegs_writeRegs _ _ _ _ (by show 0 + polyResultRegs t ≤ 15; omega), polyResultRegs,
    Nat.mod_mod_of_dvd _ (regCount_mul t.opType), Nat.mod_eq_of_lt h, BitVec.ofNat_toNat, BitVec.setWidth_eq]

end

/-! The steps. -/

theorem addrAdd_addrAdd (a : Longword) (m n : Nat) : addrAdd (addrAdd a m) n = addrAdd a (m + n) := by
  rw [addrAdd, addrAdd, addrAdd, BitVec.ofNat_add, BitVec.add_assoc]

theorem readCoefficient_of_ok {t : FloatType} {a : Longword} {s : State} {v : Octaword}
    (hread : (s.readBytes s.psl.cur t.opType.size a).map leOcta = .ok v) (hv : isReservedFloat t v = false) :
    readCoefficient t a s = .ok v := by
  obtain ⟨bs, hbs, rfl⟩ := map_eq_ok hread
  simp [readCoefficient, hbs, hv]

theorem readCoefficient_of_error {t : FloatType} {a : Longword} {s : State} {e : Stop}
    (h : s.readBytes s.psl.cur t.opType.size a = .error e ∨ ∃ bs, s.readBytes s.psl.cur t.opType.size a = .ok bs ∧
      isReservedFloat t (leOcta bs) = true ∧ e = .fault .reservedOperand) : readCoefficient t a s = .error e := by
  obtain hbs | ⟨bs, hbs, hv, rfl⟩ := h
  · rw [readCoefficient, hbs]
  · simp [readCoefficient, hbs, hv]

/-- Of the `n` coefficients from `a` up those that can be read are `cs`; `stop` is what stops the read of the next one, if
there is one. -/
structure coefficients (t : FloatType) (s : State) (a : Longword) (n : Nat) (cs : List Octaword) (stop : Option Stop) :
    Prop where
  read : ∀ k, (h : k < cs.length) → readCoefficient t (addrAdd a (k * t.opType.size)) s = .ok cs[k]
  all : stop = none → cs.length = n
  short : ∀ e, stop = some e →
    cs.length < n ∧ readCoefficient t (addrAdd a (cs.length * t.opType.size)) s = .error e

section

variable {t : FloatType} {s : State} {a : Longword} {n : Nat} {c : Octaword} {cs : List Octaword} {stop : Option Stop}

/-- The first coefficient is read, the rest are those after it. -/
theorem coefficients.cons (h : coefficients t s a n (c :: cs) stop) :
    ∃ m, n = m + 1 ∧ readCoefficient t a s = .ok c ∧ coefficients t s (addrAdd a t.opType.size) m cs stop := by
  have haddr (k : Nat) : addrAdd (addrAdd a t.opType.size) (k * t.opType.size) = addrAdd a ((k + 1) * t.opType.size) := by
    rw [addrAdd_addrAdd, Nat.succ_mul, Nat.add_comm]
  have hfirst := h.read 0 (by simp)
  rw [Nat.zero_mul, addrAdd_zero] at hfirst
  have hn : 1 ≤ n := by
    cases stop with
    | none => rw [← h.all rfl]; simp
    | some e => have := (h.short e rfl).1; omega
  refine ⟨n - 1, by omega, hfirst, fun k hk => ?_, fun hstop => ?_, fun e hstop => ?_⟩
  · rw [haddr]
    exact h.read (k + 1) (by simpa using hk)
  · have hall := h.all hstop
    rw [List.length_cons] at hall
    omega
  · obtain ⟨hlt, herror⟩ := h.short e hstop
    rw [List.length_cons] at hlt herror
    exact ⟨by omega, by rw [haddr]; exact herror⟩

end

/-- How the steps end, by the evaluation's outcome and what stopped the coefficients. -/
def polyEnding (s : State) (run : PolyRun) (stop : Option Stop) : Except Stop PolyEnd :=
  match run, stop with
  | .overflow, _ =>
    match s.config.floatStyle with
    | .fault => .error (.floatingFault .floatingOverflow true)
    | .trap => .ok .overflow
  | .underflow, _ => .error (.floatingFault .floatingUnderflow true)
  | .final _ _, some e => .error e
  | .final r underflowed, none => .ok (.final r (s.psl.fu && underflowed))

/-- Whether an underflow ends the evaluation. -/
def underflowStops (s : State) : Bool := s.psl.fu && s.config.floatStyle == .fault

section

variable (t : FloatType) (arg : Octaword) (s : State)

/-- The steps over the coefficients that can be read. The underflow remembered is one that FU enables. -/
theorem polySteps_eq (n : Nat) (a : Longword) (acc : Octaword) (und : Bool) (cs : List Octaword) (stop : Option Stop)
    (h : coefficients t s a n cs stop) :
    polySteps t arg s n a acc (s.psl.fu && und) =
      polyEnding s (polyRunFrom (Config.polyStep t arg) (underflowStops s) acc und cs) stop := by
  induction cs generalizing n a acc und with
  | nil =>
    cases stop with
    | none =>
      obtain rfl : 0 = n := h.all rfl
      rfl
    | some e =>
      obtain ⟨hlt, herror⟩ := h.short e rfl
      obtain ⟨m, rfl⟩ := Nat.exists_eq_succ_of_ne_zero (Nat.ne_of_gt hlt)
      rw [List.length_nil, Nat.zero_mul, addrAdd_zero] at herror
      have hstops : polySteps t arg s (m + 1) a acc (s.psl.fu && und) = .error e := by simp only [polySteps, herror]
      exact hstops
  | cons c cs ih =>
    obtain ⟨m, rfl, hread, hrest⟩ := h.cons
    simp only [polySteps, hread, polyRunFrom]
    cases Config.polyStep t arg acc c with
    | normal r => exact ih m _ r und hrest
    | overflow =>
      cases hstyle : s.config.floatStyle <;> simp only [polyEnding, hstyle]
    | underflow =>
      have hrun := ih m _ 0 true hrest
      cases hfu : s.psl.fu with
      | false =>
        simp only [hfu, underflowStops, Bool.false_and] at hrun ⊢
        exact hrun
      | true =>
        cases hstyle : s.config.floatStyle with
        | fault => simp only [underflowStops, hfu, hstyle]; rfl
        | trap =>
          simp only [hfu, hstyle, underflowStops] at hrun ⊢
          exact hrun

/-- How POLYx ends once its steps have. -/
def polyFinish (t : FloatType) (s : State) : PolyEnd → Completion
  | .overflow => .trap (.arithmeticTrap .floatingOverflow) (polyStore t reservedFloat overflowCodes s)
  | .final r underflowed =>
    if underflowed then .trap (.arithmeticTrap .floatingUnderflow) (polyStore t r (Config.polyFlags t r) s)
    else .done (polyStore t r (Config.polyFlags t r) s)

/-- The evaluation by the outcomes of its steps; the first coefficient is the first intermediate result. -/
theorem polyEvaluate_eq {degree : Word} {table : Longword} (hdegree : degree.toNat ≤ 31) {cs : List Octaword}
    {stop : Option Stop} (h : coefficients t s table (degree.toNat + 1) cs stop) :
    polyEvaluate t arg degree table s =
      (polyEnding s (polyRun (Config.polyStep t arg) (underflowStops s) cs) stop).map (polyFinish t s) := by
  rw [polyEvaluate, if_neg (by omega)]
  cases cs with
  | nil =>
    cases stop with
    | none => exact absurd (h.all rfl) (by simp)
    | some e =>
      obtain ⟨-, herror⟩ := h.short e rfl
      rw [List.length_nil, Nat.zero_mul, addrAdd_zero] at herror
      rw [herror]
      rfl
  | cons c cs =>
    obtain ⟨m, hm, hread, hrest⟩ := h.cons
    obtain rfl := Nat.succ.inj hm
    have hsteps := polySteps_eq t arg s _ _ c false cs stop hrest
    rw [Bool.and_false] at hsteps
    simp only [hread, hsteps, polyRun]
    cases polyEnding s (polyRunFrom (Config.polyStep t arg) (underflowStops s) c false cs) stop with
    | error e => rfl
    | ok ending =>
      cases ending with
      | overflow => rfl
      | final r und => cases und <;> rfl

end

/-! The four instructions. -/

/-- POLYF, POLYD, POLYG and POLYH, each with its type and the length of its opcode. -/
def polyRows (arg degree tbladdr : Specifier) : List (Instr × FloatType × Nat) :=
  [(.polyf arg degree tbladdr, .f, 1), (.polyd arg degree tbladdr, .d, 1), (.polyg arg degree tbladdr, .g, 2),
    (.polyh arg degree tbladdr, .h, 2)]

theorem exec_poly {arg degree tbladdr : Specifier} {i : Instr} {t : FloatType} {opLen : Nat}
    (h : (i, t, opLen) ∈ polyRows arg degree tbladdr) (s : State) : exec i s = polyInstruction t opLen arg degree tbladdr s := by
  simp only [polyRows, List.mem_cons, Prod.mk.injEq, List.not_mem_nil, or_false] at h
  obtain ⟨rfl, rfl, rfl⟩ | ⟨rfl, rfl, rfl⟩ | ⟨rfl, rfl, rfl⟩ | ⟨rfl, rfl, rfl⟩ := h <;> rfl

section

variable {arg degree tbladdr : Specifier} {s : State} {a b c : Evaluated} {i : Instr} {t : FloatType} {opLen : Nat}
  (hi : (i, t, opLen) ∈ polyRows arg degree tbladdr) (hfpd : s.psl.fpd = false)
  (ha : evalOperand ⟨.read, t.opType⟩ arg (addrAdd s.pc opLen) s = .ok a)
  (hb : evalOperand readWord degree a.next a.state = .ok b)
  (hc : evalOperand addressByte tbladdr b.next b.state = .ok c)

theorem polyOperands_only {pos : Longword} (ha : evalOperand ⟨.read, t.opType⟩ arg pos s = .ok a)
    (hb : evalOperand readWord degree a.next a.state = .ok b)
    (hc : evalOperand addressByte tbladdr b.next b.state = .ok c) : onlyRegisters s c.state :=
  (evalOperand_ok ha).1.trans' ((evalOperand_ok hb).1.trans' (evalOperand_ok hc).1)

/-- Reading for POLYx once its operands are evaluated is reading in the state they leave, at the mode of its start. -/
theorem readBytes_afterOperands {u : State} (h : onlyRegisters s u) (pc : Longword) (n : Nat) (va : Longword) :
    (u.setPc pc).readBytes (u.setPc pc).psl.cur n va = u.readBytes s.psl.cur n va := by
  rw [State.setPc_psl, h.psl']
  exact State.readBytes_congr (s := u) (t := u.setPc pc) rfl _ _ _ fun _ _ _ _ => rfl

include hi hfpd ha hb hc

theorem exec_poly_operands :
    exec i s = conclude s (polyEvaluate t a.value b.word c.long (c.state.setPc c.next)) := by
  simp only [exec_poly hi, polyInstruction, hfpd, ha, hb, hc, bind, Except.bind]
  rfl

theorem exec_poly_long_degree (h : 31 < b.word.toNat) : exec i s = raiseStop s (.fault .reservedOperand) := by
  rw [exec_poly_operands hi hfpd ha hb hc, polyEvaluate, if_pos h, conclude_error]

theorem exec_poly_run (hdegree : b.word.toNat ≤ 31) {cs : List Octaword} {stop : Option Stop}
    (h : coefficients t (c.state.setPc c.next) c.long (b.word.toNat + 1) cs stop) :
    exec i s = conclude s ((polyEnding s (polyRun (Config.polyStep t a.value) (underflowStops s) cs) stop).map
      (polyFinish t (c.state.setPc c.next))) := by
  have honly := polyOperands_only ha hb hc
  rw [exec_poly_operands hi hfpd ha hb hc, polyEvaluate_eq t a.value _ hdegree h, honly]
  rfl

end

theorem polyEnding_overflow (s : State) (stop : Option Stop) :
    polyEnding s .overflow stop =
      match s.config.floatStyle with
      | .fault => .error (.floatingFault .floatingOverflow true)
      | .trap => .ok .overflow := by
  cases stop <;> rfl

theorem polyEnding_underflow (s : State) (stop : Option Stop) :
    polyEnding s .underflow stop = .error (.floatingFault .floatingUnderflow true) := by
  cases stop <;> rfl

/-- An instruction whose result is final answers the next state, or the trap with code 5 where an enabled underflow happened. -/
theorem conclude_polyFinish_final (t : FloatType) (s u : State) (r : Octaword) (und : Bool) :
    conclude s (.ok (polyFinish t u (.final r (s.psl.fu && und)))) =
      if s.psl.fu = true ∧ und = true then
        raiseTrap (.arithmeticTrap .floatingUnderflow) (polyStore t r (Config.polyFlags t r) u)
      else .next (polyStore t r (Config.polyFlags t r) u) := by
  simp only [polyFinish, Bool.and_eq_true]
  split <;> rfl

section

variable {arg degree tbladdr : Specifier} {s : State} {a b c : Evaluated} {i : Instr} {t : FloatType} {opLen : Nat}
  (hi : (i, t, opLen) ∈ polyRows arg degree tbladdr) (hfpd : s.psl.fpd = false)
  (ha : evalOperand ⟨.read, t.opType⟩ arg (addrAdd s.pc opLen) s = .ok a)
  (hb : evalOperand readWord degree a.next a.state = .ok b)
  (hc : evalOperand addressByte tbladdr b.next b.state = .ok c)

include ha hb hc

/-- A coefficient read in the state the operands leave. -/
theorem readCoefficient_afterOperands {va : Longword} {v : Octaword}
    (hread : (c.state.readBytes s.psl.cur t.opType.size va).map leOcta = .ok v) (hv : isReservedFloat t v = false) :
    readCoefficient t va (c.state.setPc c.next) = .ok v :=
  readCoefficient_of_ok (by rw [readBytes_afterOperands (polyOperands_only ha hb hc)]; exact hread) hv

include hi hfpd

/-- Degree 0: the coefficient is the result. -/
theorem exec_poly_degree_zero (hdegree : b.word = 0) {c0 : Octaword}
    (h0 : readCoefficient t c.long (c.state.setPc c.next) = .ok c0) :
    exec i s = .next (polyStore t c0 (Config.polyFlags t c0) (c.state.setPc c.next)) := by
  have hcoeffs : coefficients t (c.state.setPc c.next) c.long (b.word.toNat + 1) [c0] none := by
    refine ⟨fun k hk => ?_, fun _ => by rw [hdegree]; rfl, fun e he => by cases he⟩
    obtain rfl : k = 0 := by simpa using hk
    rwa [Nat.zero_mul, addrAdd_zero]
  rw [exec_poly_run hi hfpd ha hb hc (by rw [hdegree]; decide) hcoeffs]
  exact (conclude_polyFinish_final t s _ c0 false).trans (if_neg fun h => by cases h.2)

/-- Degree 1: by the outcome of the one step. -/
theorem exec_poly_degree_one (hdegree : b.word = 1) {c0 c1 : Octaword}
    (h0 : readCoefficient t c.long (c.state.setPc c.next) = .ok c0)
    (h1 : readCoefficient t (addrAdd c.long t.opType.size) (c.state.setPc c.next) = .ok c1) :
    exec i s = conclude s ((polyEnding s (polyRun (Config.polyStep t a.value) (underflowStops s) [c0, c1]) none).map
      (polyFinish t (c.state.setPc c.next))) := by
  refine exec_poly_run hi hfpd ha hb hc (by rw [hdegree]; decide) ⟨fun k hk => ?_, fun _ => by rw [hdegree]; rfl,
    fun e he => by cases he⟩
  obtain rfl | rfl : k = 0 ∨ k = 1 := by simp at hk; omega
  · rwa [Nat.zero_mul, addrAdd_zero]
  · rwa [Nat.one_mul]

end

/-- Settles O47: with no step to make, the coefficient is stored as the result. -/
theorem polyDegreeZeroCompletes : Obligations.PolyDegreeZeroCompletes := by
  intro arg degree tbladdr s a b c coeff i t opLen hi hfpd ha hb hc hdegree hread hv
  have honly := polyOperands_only ha hb hc
  have hcoeff := readCoefficient_afterOperands ha hb hc hread hv
  have hrest := polyStore_rest t coeff (Config.polyFlags t coeff) (c.state.setPc c.next)
  have hsize : coeff.toNat < 256 ^ t.opType.size := by
    obtain ⟨bs, hbs, rfl⟩ := map_eq_ok hread
    have hlt := leNat_lt bs
    rw [State.readBytes_length hbs] at hlt
    exact lt_of_le_of_lt (Nat.mod_le _ _) hlt
  refine ⟨_, exec_poly_degree_zero hi hfpd ha hb hc hdegree hcoeff, ?_, ?_, polyStore_result _ _ _ _ hsize, fun q hq hge => ?_,
    ?_, ?_, ?_, ?_⟩
  · rw [hrest]; rfl
  · rw [hrest]
    exact congrArg (Psl.withCodes · _) honly.psl'
  · rw [polyStore_kept _ _ _ _ _ hge, State.getReg_setPc _ _ hq]
  · rw [hrest]; rfl
  · rw [hrest]
    exact honly.mem'
  · rw [hrest]
    exact honly.staleCode'
  · rw [hrest]
    exact honly.setting

/-- Settles O48: the evaluation's end by the outcome of `polyRun` and by what stopped the coefficients. -/
theorem polyOneStep : Obligations.PolyOneStep := by
  constructor
  · intro arg degree tbladdr s a b c i t opLen hi hfpd ha hb hc
    refine ⟨exec_poly_long_degree hi hfpd ha hb hc, fun hdegree coeffs stop hcoeffs hstop => ?_⟩
    have hbytes := readBytes_afterOperands (polyOperands_only ha hb hc) c.next t.opType.size
    have hread : coefficients t (c.state.setPc c.next) c.long (b.word.toNat + 1) coeffs stop := by
      refine ⟨fun k hk => ?_, fun hnone => ?_, fun e hsome => ?_⟩
      · obtain ⟨hv, hk⟩ := hcoeffs k hk
        exact readCoefficient_afterOperands ha hb hc hk hv
      · subst hnone
        exact hstop
      · subst hsome
        obtain ⟨hlt, herror⟩ := hstop
        exact ⟨by omega, readCoefficient_of_error (by rw [hbytes]; exact herror)⟩
    rw [exec_poly_run hi hfpd ha hb hc hdegree hread, underflowStops]
    cases polyRun (Config.polyStep t a.value) (s.psl.fu && s.config.floatStyle == .fault) coeffs with
    | overflow =>
      rw [polyEnding_overflow]
      cases s.config.floatStyle <;> rfl
    | underflow =>
      rw [polyEnding_underflow]
      rfl
    | final r und =>
      cases stop with
      | some e => rfl
      | none => exact conclude_polyFinish_final t s _ r und
  · intro arg degree tbladdr s a b c c0 c1 i t opLen hi hfpd ha hb hc hdegree hread0 hread1 hv0 hv1
    have hrun := exec_poly_degree_one hi hfpd ha hb hc hdegree (readCoefficient_afterOperands ha hb hc hread0 hv0)
      (readCoefficient_afterOperands ha hb hc hread1 hv1)
    simp only [polyRun, polyRunFrom] at hrun
    cases hstep : Config.polyStep t a.value c0 c1 with
    | normal r =>
      rw [hstep] at hrun
      exact hrun.trans ((conclude_polyFinish_final t s _ r false).trans (if_neg fun h => by cases h.2))
    | overflow =>
      rw [hstep, polyEnding_overflow] at hrun
      cases hstyle : s.config.floatStyle <;> rw [hstyle] at hrun <;> exact hrun
    | underflow =>
      rw [hstep] at hrun
      have hzero := conclude_polyFinish_final t s (c.state.setPc c.next) 0 true
      cases hfu : s.psl.fu with
      | false =>
        have hgoes : underflowStops s = false := by simp [underflowStops, hfu]
        rw [hgoes] at hrun
        exact hrun.trans (hzero.trans (if_neg fun h => by rw [hfu] at h; cases h.1))
      | true =>
        cases hstyle : s.config.floatStyle with
        | fault =>
          have hstops : underflowStops s = true := by simp [underflowStops, hfu, hstyle]
          rw [hstops] at hrun
          exact hrun
        | trap =>
          have hgoes : underflowStops s = false := by simp [underflowStops, hstyle]
          rw [hgoes] at hrun
          exact hrun.trans (hzero.trans (if_pos ⟨hfu, rfl⟩))

end Sys2Proof.Machine
end

section
/-! SUPPORT. An instruction that cannot make an access or evaluate an operand (43_trace.md R210, 60_exceptions.md R231): its meaning
is the first such fault, whichever instruction it is. -/

namespace Sys2Proof.Machine

open Sys2Proof

/-! The routine of a fault. -/

/-- Where its routine can be entered, a fault enters it: the instruction's address, and its PSL with TP clear. -/
theorem raiseFault_enters {e : Exc} {s : State} (h : canEnter e (e.frame s.pc { s.psl with tp := false } s).length s) :
    ∃ t, raiseFault e s = .next t ∧
      entered e { s.psl with tp := false } (e.frame s.pc { s.psl with tp := false } s) s t := by
  obtain ⟨t, ht⟩ := initiate_of_canEnter h
  exact ⟨t, ht, (initiate_next ht).1⟩

/-! Writes that fault. -/

/-- Of the `n` bytes at `va` byte `j` is the first that cannot be written, and `e` is why. -/
structure writeStops (s : State) (mode : Mode) (va : Longword) (n j : Nat) (e : Stop) : Prop where
  lt : j < n
  before : ∀ k < j, ∃ pa, s.physical mode .write (addrAdd va k) = .ok pa
  error : s.physical mode .write (addrAdd va j) = .error e

theorem writeStops.congr {s t : State} {mode : Mode} {va : Longword} {n j : Nat} {e : Stop} (h : writeStops s mode va n j e)
    (ht : t.translation = s.translation) : writeStops t mode va n j e := by
  obtain ⟨hlt, hbefore, herror⟩ := h
  rw [← State.physical_congr ht] at hbefore herror
  exact ⟨hlt, hbefore, herror⟩

theorem writeBytes_of_stops {s : State} {mode : Mode} {bs : List Byte} {va : Longword} {j : Nat} {e : Stop}
    (h : writeStops s mode va bs.length j e) : s.writeBytes mode bs va = .error e := by
  obtain ⟨hlt, hbefore, herror⟩ := h
  induction bs generalizing s va j with
  | nil => cases hlt
  | cons b bs ih =>
    cases j with
    | zero =>
      rw [addrAdd_zero] at herror
      simp only [State.writeBytes, herror]
    | succ j =>
      obtain ⟨pa, hpa⟩ := hbefore 0 (Nat.succ_pos j)
      rw [addrAdd_zero] at hpa
      simp only [State.writeBytes, hpa]
      refine ih (Nat.lt_of_succ_lt_succ hlt) (fun k hk => ?_) ?_ <;>
        rw [State.physical_congr (s := s) (t := s.putByte pa b) rfl, addrAdd_succ]
      · exact hbefore (k + 1) (Nat.succ_lt_succ hk)
      · exact herror

theorem store_of_stops {s : State} {bs : List Byte} {va : Longword} {j : Nat} {e : Stop}
    (h : writeStops s s.psl.cur va bs.length j e) : s.store bs va = .error e := by
  rw [State.store, writeBytes_of_stops h]

section

variable {s : State} {a : Longword} {j : Nat} {e : Stop}

/-- A result that cannot be written to memory is its first byte's fault. -/
theorem storeResult_of_stops {t : OpType} (v : Octaword) (cc : CondCodes) (h : writeStops s s.psl.cur a t.size j e) :
    storeResult t v cc (.mem a) s = .error e := by
  rw [← leBytes_length t.size v.toNat] at h
  simp only [storeResult, State.writePlace, store_of_stops h]

theorem classInt_of_stops {t : OpType} (x : Int) (c : Bool) (h : writeStops s s.psl.cur a t.size j e) :
    classInt t x c (.mem a) s = .error e := by
  simp only [classInt, storeResult_of_stops _ _ h]

theorem classIdiv_of_stops {t : OpType} (v w : Octaword) (h : writeStops s s.psl.cur a t.size j e) :
    classIdiv t v w (.mem a) s = .error e := by
  rw [classIdiv]
  split
  · rw [storeResult_of_stops _ _ h]
  · exact classInt_of_stops _ _ h

theorem classFlt_normal_of_stops {t : FloatType} (v : Octaword) (cc : CondCodes)
    (h : writeStops s s.psl.cur a t.opType.size j e) : classFlt t (.normal v cc) (.mem a) s = .error e := by
  rw [classFlt_normal, floatTrap, storeResult_of_stops _ _ h]

theorem classDec_of_stops (o : DecOutcome) {len : Nat} (h : writeStops s s.psl.cur a (decimalSize len) j e) :
    classDec o len a s = .error e := by
  rw [← decimalBytes_length o len] at h
  have hstore := store_of_stops h
  rw [decimalBytes] at hstore
  simp only [classDec, hstore]

theorem classDdiv_of_stops (divisor : DecimalString) (o : DecOutcome) {len : Nat}
    (h : writeStops s s.psl.cur a (decimalSize len) j e) : classDdiv divisor o len a s = .error e := by
  rw [classDdiv]
  split
  · rw [← freeBytes_length s len] at h
    have hstore := store_of_stops h
    rw [freeBytes] at hstore
    simp only [hstore]
  · exact classDec_of_stops o h

end

/-! Operands that fault. -/

theorem bind_of_error {α β : Type} {x : Except Stop α} {e : Stop} (f : α → Except Stop β) (h : x = .error e) :
    x >>= f = .error e := by
  rw [h]
  rfl

theorem bind_of_ok {α β : Type} {x : Except Stop α} {a : α} (f : α → Except Stop β) (h : x = .ok a) : x >>= f = f a := by
  rw [h]
  rfl

section

variable {k : OperandKind} {ks : List OperandKind} {sp : Specifier} {sps : List Specifier} {pos : Longword} {s : State}
  {e : Stop}

/-- Evaluating operands stops at the first that cannot be evaluated. -/
theorem evalOperands_cons_error_iff :
    evalOperands (k :: ks) (sp :: sps) pos s = .error e ↔
      evalOperand k sp pos s = .error e ∨
        ∃ o, evalOperand k sp pos s = .ok o ∧ evalOperands ks sps o.next o.state = .error e := by
  simp only [evalOperands]
  cases evalOperand k sp pos s with
  | error e' => simp
  | ok o => cases hos : evalOperands ks sps o.next o.state <;> simp [hos]

/-- What an instruction does with its first operand stops where evaluating its operands does, if that holds of the rest. -/
theorem operandsThen {f : Evaluated → Except Stop Completion} (h : evalOperands (k :: ks) (sp :: sps) pos s = .error e)
    (hrest : ∀ o, evalOperands ks sps o.next o.state = .error e → f o = .error e) :
    evalOperand k sp pos s >>= f = .error e := by
  obtain hfirst | ⟨o, ho, hlater⟩ := evalOperands_cons_error_iff.1 h
  · exact bind_of_error f hfirst
  · rw [bind_of_ok f ho]
    exact hrest o hlater

/-- Operands evaluated are evaluated one by one. -/
theorem evalOperands_cons_ok {os : List Evaluated} {next : Longword} {s' : State}
    (h : evalOperands (k :: ks) (sp :: sps) pos s = .ok (os, next, s')) :
    ∃ o os', evalOperand k sp pos s = .ok o ∧ evalOperands ks sps o.next o.state = .ok (os', next, s') ∧ os = o :: os' := by
  simp only [evalOperands] at h
  split at h
  · cases h
  · next o ho =>
    split at h
    · cases h
    · next os' next' s'' hos =>
      cases h
      exact ⟨o, os', ho, hos, rfl⟩

end

/-- An instruction whose operands cannot all be evaluated is backed up, whatever it would do with them: POLYx entered with FPD
clear, CHMx with IS clear, and every other instruction. -/
theorem exec_of_operands_error {i : Instr} {op : Opcode} {specs : List Specifier} {s : State} {e : Stop}
    (hi : i.native = some (op, specs)) (hpoly : op ∈ [Opcode.polyf, .polyd, .polyg, .polyh] → s.psl.fpd = false)
    (hchm : op ∈ [Opcode.chmk, .chme, .chms, .chmu] → s.psl.is = false)
    (h : evalOperands op.operands specs (addrAdd s.pc op.bytes.length) s = .error e) : exec i s = raiseStop s e := by
  have poly {t : FloatType} {opLen : Nat} {x y z : Specifier} (hfpd : s.psl.fpd = false)
      (h : evalOperands (polyOperands t.opType) [x, y, z] (addrAdd s.pc opLen) s = .error e) :
      polyInstruction t opLen x y z s = raiseStop s e := by
    rw [polyInstruction, hfpd]
    exact congrArg (conclude s) (operandsThen h fun a h => operandsThen h fun b h => operandsThen h fun c h => nomatch h)
  have chm {target : Mode} {x : Specifier} (his : s.psl.is = false)
      (h : evalOperands [readWord] [x] (addrAdd s.pc 1) s = .error e) : changeMode target x s = raiseStop s e := by
    rw [changeMode, his]
    exact congrArg (conclude s) (operandsThen h fun a h => nomatch h)
  cases i with
  | reservedFFFF | xfc | nop | rei | bpt | ret => cases hi; cases h
  | bptCompat | iotCompat | emtCompat | trapCompat => cases hi
  | index =>
    cases hi
    exact congrArg (conclude s) (operandsThen h fun a h => operandsThen h fun b h => operandsThen h fun c h =>
      operandsThen h fun d h => operandsThen h fun e h => operandsThen h fun f h => nomatch h)
  | polyf => cases hi; exact poly (t := .f) (hpoly (by decide)) h
  | polyd => cases hi; exact poly (t := .d) (hpoly (by decide)) h
  | polyg => cases hi; exact poly (t := .g) (hpoly (by decide)) h
  | polyh => cases hi; exact poly (t := .h) (hpoly (by decide)) h
  | bispsw => cases hi; exact congrArg (conclude s) (operandsThen h fun a h => nomatch h)
  | chmk | chme | chms | chmu => cases hi; exact chm (hchm (by decide)) h
  | addl2 | divl2 | callg | calls =>
    cases hi
    exact congrArg (conclude s) (operandsThen h fun a h => operandsThen h fun b h => nomatch h)

theorem execClass_of_operands_error {c : ClassOp} {n : Nat} {specs : List Specifier} {s : State} {e : Stop}
    (hfpd : c.kind.isDecimal = true ∨ .string ∈ c.sources → s.psl.fpd = false)
    (h : evalOperands c.operands specs (addrAdd s.pc n) s = .error e) : execClass c n specs s = raiseStop s e := by
  have hruns : (c.usesStrings && s.psl.fpd) = false := by
    rw [Bool.and_eq_false_imp]
    exact fun hstrings => hfpd ((usesStrings_eq_true_iff c).1 hstrings)
  simp only [execClass, hruns, h]
  rfl

end Sys2Proof.Machine
end

section
/-! SUPPORT. The pushes of a procedure call that cannot be made, and the pops of RET and REI that cannot (43_trace.md R218, R220 to
R222; the frame is log 33, 34). -/

namespace Sys2Proof.Machine

open Sys2Proof

/-! Pushes. -/

theorem writeBytes_error {s : State} {m : Mode} {bs : List Byte} {va : Longword} {e : Stop}
    (h : s.writeBytes m bs va = .error e) : ∃ f a, e = .fault (.memory f a .write) := by
  induction bs generalizing s va with
  | nil => cases h
  | cons b bs ih =>
    simp only [State.writeBytes] at h
    split at h
    · next hphysical =>
      cases h
      obtain ⟨f, hf⟩ := State.physical_error hphysical
      exact ⟨f, va, hf⟩
    · exact ih h

theorem State.push_error {s : State} {v : Longword} {e : Stop} (h : s.push v = .error e) :
    ∃ f a, e = .fault (.memory f a .write) := by
  simp only [State.push, State.store] at h
  split at h
  · next hstore =>
    split at hstore
    · next hwrite =>
      cases h
      cases hstore
      exact writeBytes_error hwrite
    · cases hstore
  · cases h

theorem pushAll_error {vs : List Longword} {s : State} {e : Stop} (h : pushAll vs s = .error e) :
    ∃ f a, e = .fault (.memory f a .write) := by
  induction vs generalizing s with
  | nil => cases h
  | cons v vs ih =>
    simp only [pushAll] at h
    split at h
    · next hpush =>
      cases h
      exact State.push_error hpush
    · exact ih h

theorem pushAll_of_not_canWrite {vs : List Longword} {s : State}
    (h : ¬ s.canWrite s.psl.cur (s.sp - BitVec.ofNat 32 (4 * vs.length)) (4 * vs.length)) :
    ∃ f a, pushAll vs s = .error (.fault (.memory f a .write)) := by
  rw [← pushAll_ok_iff] at h
  cases hpush : pushAll vs s with
  | ok t => exact absurd ⟨t, hpush⟩ h
  | error e =>
    obtain ⟨f, a, rfl⟩ := pushAll_error hpush
    exact ⟨f, a, rfl⟩

/-- A call whose frame cannot be pushed is the fault of a write. -/
theorem callProcedure_of_not_canWrite {s : State} {mask : Word} (isCalls : Bool) (ap dst next : Longword)
    (h : ¬ s.canWrite s.psl.cur (callBottom mask s) (4 * (5 + (maskRegs mask).length))) :
    ∃ f a, callProcedure isCalls ap dst next mask s = .error (.fault (.memory f a .write)) := by
  let aligned := s.setSp (s.sp &&& 0xFFFFFFFC)
  let registers := (pushedRegs mask 12).map aligned.getReg
  let rest := [next, s.getReg fpReg, s.getReg apReg, callStatus isCalls (s.sp.extractLsb' 0 2) mask s.psl, 0]
  have hlen : (registers ++ rest).length = 5 + (maskRegs mask).length := by
    simp [registers, rest, pushedRegs_eq, Nat.add_comm]
  obtain ⟨f, a, hframe⟩ := pushAll_of_not_canWrite (vs := registers ++ rest) (s := aligned)
    (by rw [hlen, State.setSp_sp, State.setSp_psl]; exact h)
  refine ⟨f, a, ?_⟩
  rw [pushAll_append] at hframe
  rw [callProcedure, pushRegisters_eq mask 12 le_rfl]
  cases hregisters : pushAll registers aligned with
  | error e =>
    simp only [hregisters] at hframe
    exact bind_of_error _ hframe
  | ok saved =>
    simp only [hregisters] at hframe
    show pushAll rest saved >>= _ = _
    exact bind_of_error _ hframe

/-! Pops. -/

theorem readLong_congr {s u : State} (h : onlyRegisters s u) (a : Longword) : u.readLong a = s.readLong a := by
  rw [h]
  exact congrArg (Except.map leLong) (State.readBytes_congr rfl _ _ _ fun _ _ _ _ => rfl)

theorem onlyRegisters_setSp (s : State) (v : Longword) : onlyRegisters s (s.setSp v) := rfl

theorem State.pop_error {s : State} {e : Stop} (h : s.readLong s.sp = .error e) : s.pop = .error e := by
  rw [State.pop, h]

/-- `x` reads longwords of `s` in the order of the list, whatever it does besides: at the first that cannot be read it stops
with that read's fault. -/
def stopsAtReads {α : Type} (s : State) (x : Except Stop α) (reads : List Longword) : Prop :=
  ∀ before a after e, reads = before ++ a :: after → (∀ b ∈ before, ∃ v, s.readLong b = .ok v) →
    s.readLong a = .error e → x = .error e

section

variable {α : Type} {s u : State}

theorem stopsAtReads_nil (x : Except Stop α) : stopsAtReads s x [] := by
  intro before a after e hsplit
  simp at hsplit

/-- A pop reads at the stack pointer, then what comes after it reads. -/
theorem stopsAtReads_pop {f : Longword × State → Except Stop α} {a : Longword} {rest : List Longword} (hu : onlyRegisters s u)
    (hsp : u.sp = a) (hrest : ∀ v, stopsAtReads s (f (v, u.setSp (a + 4))) rest) :
    stopsAtReads s (u.pop >>= f) (a :: rest) := by
  subst hsp
  intro before b after e hsplit hbefore herror
  cases before with
  | nil =>
    obtain ⟨rfl, -⟩ := List.cons.inj hsplit
    exact bind_of_error f (State.pop_error (by rw [readLong_congr hu]; exact herror))
  | cons b' before =>
    obtain ⟨rfl, hlater⟩ := List.cons.inj hsplit
    obtain ⟨v, hv⟩ := hbefore u.sp List.mem_cons_self
    rw [bind_of_ok f (State.pop_of_readLong (by rw [readLong_congr hu]; exact hv))]
    exact hrest v before b after e hlater (fun b hb => hbefore b (List.mem_cons_of_mem _ hb)) herror

/-- How many of the registers R`i` to R`(i+n-1)` a mask names. -/
def maskCount (mask : Word) (n i : Nat) : Nat := ((List.range' i n).filter fun j => mask.getLsbD j).length

theorem maskCount_eq (mask : Word) : maskCount mask 12 0 = (maskRegs mask).length := by
  rw [maskCount, maskRegs, List.length_map, List.range_eq_range']

theorem maskCount_succ (mask : Word) (n i : Nat) :
    maskCount mask (n + 1) i = maskCount mask n (i + 1) + if mask.getLsbD i then 1 else 0 := by
  simp only [maskCount, List.range'_succ, List.filter_cons]
  split <;> rfl

/-- The longwords from `sp` up, `n` of them. -/
def longwordsFrom (sp : Longword) (n : Nat) : List Longword := (List.range n).map fun k => sp + BitVec.ofNat 32 (4 * k)

theorem add_four_mul_succ (sp : Longword) (n : Nat) :
    sp + BitVec.ofNat 32 (4 * (n + 1)) = sp + 4 + BitVec.ofNat 32 (4 * n) := by
  rw [Nat.mul_succ, Nat.add_comm, BitVec.ofNat_add, ← BitVec.add_assoc]
  rfl

theorem longwordsFrom_succ (sp : Longword) (n : Nat) : longwordsFrom sp (n + 1) = sp :: longwordsFrom (sp + 4) n := by
  simp only [longwordsFrom, List.range_succ_eq_map, List.map_cons, List.map_map, Function.comp_def, Nat.succ_eq_add_one,
    add_four_mul_succ]
  simp

theorem popRegisters_bind_named {mask : Word} {i : Nat} (h : mask.getLsbD i = true) (n : Nat) (u : State)
    (f : State → Except Stop α) :
    popRegisters mask (n + 1) i u >>= f =
      u.pop >>= fun r => popRegisters mask n (i + 1) (r.2.setReg (Fin.ofNat 16 i) r.1) >>= f := by
  rw [popRegisters, if_pos h]
  cases u.pop <;> rfl

theorem popRegisters_unnamed {mask : Word} {i : Nat} (h : ¬ mask.getLsbD i = true) (n : Nat) (u : State) :
    popRegisters mask (n + 1) i u = popRegisters mask n (i + 1) u := if_neg h

/-- The register pops of RET read the longwords at the stack pointer, one for each register the mask names. -/
theorem stopsAtReads_popRegisters {mask : Word} {f : State → Except Stop α} {n i : Nat} {sp : Longword} {rest : List Longword}
    (hin : i + n ≤ 12) (hu : onlyRegisters s u) (hsp : u.sp = sp)
    (hrest : ∀ w, onlyRegisters s w → w.sp = sp + BitVec.ofNat 32 (4 * maskCount mask n i) → stopsAtReads s (f w) rest) :
    stopsAtReads s (popRegisters mask n i u >>= f) (longwordsFrom sp (maskCount mask n i) ++ rest) := by
  induction n generalizing u i sp with
  | zero => exact hrest u hu (by rw [hsp]; exact (BitVec.add_zero sp).symm)
  | succ n ih =>
    have hcount := maskCount_succ mask n i
    by_cases hbit : mask.getLsbD i = true
    · rw [if_pos hbit] at hcount
      rw [hcount] at hrest ⊢
      have hval : (Fin.ofNat 16 i).val = i := Nat.mod_eq_of_lt (by omega)
      have hne : (Fin.ofNat 16 i : Reg) ≠ 15 := fun h => by
        have hpc : i = 15 := hval.symm.trans (congrArg Fin.val h)
        omega
      rw [longwordsFrom_succ, popRegisters_bind_named hbit]
      refine stopsAtReads_pop hu hsp fun v => ih (by omega) ?_ ?_ fun w hw hwsp => hrest w hw ?_
      · exact hu.trans' ((onlyRegisters_setSp u (sp + 4)).trans' (onlyRegisters_setReg _ _ _ hne))
      · rw [State.sp, State.setReg_sps _ _ _ (by omega), State.setReg_psl]
        exact State.setSp_sp u (sp + 4)
      · rw [hwsp, add_four_mul_succ]
    · rw [if_neg hbit, Nat.add_zero] at hcount
      rw [hcount] at hrest ⊢
      rw [popRegisters_unnamed hbit]
      exact ih (by omega) hu hsp hrest

end

theorem acceptableStatus_of_clear {status : Longword} (h : status.extractLsb' 8 8 = 0#8) (h28 : status.getLsbD 28 = false) :
    acceptableStatus status = true := by
  rw [acceptableStatus, h, h28]
  rfl

/-- The argument count, where there is one to remove, is the last longword that RET reads. -/
theorem stopsAtReads_removeArguments {s u : State} (hu : onlyRegisters s u) (sp : Longword)
    (f : State → Except Stop Completion) : stopsAtReads s (removeArguments (u.setSp sp) >>= f) [sp] := by
  have hpop : removeArguments (u.setSp sp) >>= f =
      (u.setSp sp).pop >>= fun r => f (r.2.setSp (r.2.sp + 4 * (r.1.extractLsb' 0 8).setWidth 32)) := by
    rw [removeArguments]
    cases (u.setSp sp).pop <;> rfl
  rw [hpop]
  exact stopsAtReads_pop (hu.trans' (onlyRegisters_setSp u sp)) (State.setSp_sp u sp) fun v => stopsAtReads_nil _

/-- The longwords that RET reads after the status, `fp` being the frame's address: AP, FP, PC, the registers of the mask, and
the argument count of a frame of CALLS (log 34). -/
def retReads (fp status : Longword) : List Longword :=
  let saved := (maskRegs ((status.extractLsb' 16 12).setWidth 16)).length
  [fp + 8, fp + 12, fp + 16] ++ longwordsFrom (fp + 20) saved ++
    if status.getLsbD 29 then [fp + 20 + BitVec.ofNat 32 (4 * saved) + (status.extractLsb' 30 2).setWidth 32] else []

/-- RET, once the status is popped and accepted, reads the rest of the frame in order. -/
theorem exec_ret_reads {s : State} {status : Longword} (hstatus : s.readLong (s.getReg fpReg + 4) = .ok status)
    (hok : acceptableStatus status = true) :
    ∃ x, exec .ret s = conclude s x ∧ stopsAtReads s x (retReads (s.getReg fpReg) status) := by
  generalize hfp : s.getReg fpReg = fp at hstatus
  have h8 : fp + 4 + 4 = fp + 8 := BitVec.add_assoc fp 4 4
  have h12 : fp + 8 + 4 = fp + 12 := BitVec.add_assoc fp 8 4
  have h16 : fp + 12 + 4 = fp + 16 := BitVec.add_assoc fp 12 4
  have h20 : fp + 16 + 4 = fp + 20 := BitVec.add_assoc fp 16 4
  have hpop : (s.setSp (s.getReg fpReg + 4)).pop = .ok (status, (s.setSp (fp + 4)).setSp (fp + 8)) := by
    rw [hfp, State.pop_of_readLong (v := status), State.setSp_sp, h8]
    rw [readLong_congr (onlyRegisters_setSp _ _), State.setSp_sp, hstatus]
  refine ⟨_, congrArg (conclude s) (bind_of_ok _ hpop), ?_⟩
  have hu : onlyRegisters s ((s.setSp (fp + 4)).setSp (fp + 8)) := rfl
  simp only [hok, Bool.not_true, Bool.false_eq_true, if_false, retReads, ← maskCount_eq, List.append_assoc]
  refine stopsAtReads_pop hu (State.setSp_sp _ _) fun ap => ?_
  rw [h12]
  refine stopsAtReads_pop (hu.trans' rfl) (State.setSp_sp _ _) fun _ => ?_
  rw [h16]
  refine stopsAtReads_pop (hu.trans' rfl) (State.setSp_sp _ _) fun pc => ?_
  rw [h20]
  refine stopsAtReads_popRegisters (by decide) (hu.trans' rfl) (State.setSp_sp _ _) fun w hw hwsp => ?_
  split
  · rw [← hwsp]
    exact stopsAtReads_removeArguments hw _ _
  · exact stopsAtReads_nil _

end Sys2Proof.Machine
end

section
/-! SUPPORT. The fault of an operand, of a result's write, of a push, a pop or the entry mask backs its instruction up (43_trace.md
R210; 60_exceptions.md R231). -/

namespace Sys2Proof.Machine

open Sys2Proof

/-! A result that cannot be written. -/

/-- The bytes that cannot be written at an instruction's start cannot be once its operands are evaluated. -/
theorem writeStops.afterOperands {s u : State} {a : Longword} {n j : Nat} {e : Stop}
    (h : writeStops s s.psl.cur a n j e) (hu : onlyRegisters s u) (pc : Longword) :
    writeStops (u.setPc pc) (u.setPc pc).psl.cur a n j e := by
  rw [State.setPc_psl, hu.psl']
  exact h.congr hu.translation'

theorem evalOperands_two_ok {k l : OperandKind} {x y : Specifier} {pos next : Longword} {s s' : State} {os : List Evaluated}
    (h : evalOperands [k, l] [x, y] pos s = .ok (os, next, s')) :
    ∃ a b, evalOperand k x pos s = .ok a ∧ evalOperand l y a.next a.state = .ok b ∧ os = [a, b] := by
  obtain ⟨a, _, ha, hrest, rfl⟩ := evalOperands_cons_ok h
  obtain ⟨b, _, hb, hnil, rfl⟩ := evalOperands_cons_ok hrest
  cases hnil
  exact ⟨a, b, ha, hb, rfl⟩

theorem eq_of_append_singleton {α : Type} {l m : List α} {x y : α} (h : l ++ [x] = m ++ [y]) : x = y :=
  (List.append_inj' h rfl).2 |> List.singleton_inj.1

/-- ADDL2, DIVL2 and INDEX are backed up where their result cannot be written to memory. -/
theorem exec_of_result_stops {i : Instr} {op : Opcode} {specs : List Specifier} {s s' : State} {os : List Evaluated}
    {last : Evaluated} {next a : Longword} {j : Nat} {e : Stop} (hi : i.native = some (op, specs))
    (hop : op ∈ [Opcode.addl2, .divl2, .index])
    (heval : evalOperands op.operands specs (addrAdd s.pc op.bytes.length) s = .ok (os ++ [last], next, s'))
    (hplace : last.place = .mem a) (hstops : writeStops s s.psl.cur a 4 j e) : exec i s = raiseStop s e := by
  cases i with
  | bptCompat | iotCompat | emtCompat | trapCompat => cases hi
  | addl2 =>
    cases hi
    obtain ⟨x, y, hx, hy, hos⟩ := evalOperands_two_ok heval
    obtain rfl : last = y := eq_of_append_singleton (m := [x]) hos
    have honly := ((operandsDone_of_evalOperand hx).trans' (operandsDone_of_evalOperand hy)).only
    rw [exec_addl2 hx hy, hplace, classInt_of_stops (t := .long) _ _ (hstops.afterOperands honly last.next),
      conclude_error]
  | divl2 =>
    cases hi
    obtain ⟨x, y, hx, hy, hos⟩ := evalOperands_two_ok heval
    obtain rfl : last = y := eq_of_append_singleton (m := [x]) hos
    have honly := ((operandsDone_of_evalOperand hx).trans' (operandsDone_of_evalOperand hy)).only
    rw [exec_divl2 hx hy, hplace, classIdiv_of_stops (t := .long) _ _ (hstops.afterOperands honly last.next),
      conclude_error]
  | index =>
    cases hi
    obtain ⟨o1, os1, h1, hrest1, hos⟩ := evalOperands_cons_ok heval
    obtain ⟨o2, os2, h2, hrest2, rfl⟩ := evalOperands_cons_ok hrest1
    obtain ⟨o3, os3, h3, hrest3, rfl⟩ := evalOperands_cons_ok hrest2
    obtain ⟨o4, os4, h4, hrest4, rfl⟩ := evalOperands_cons_ok hrest3
    obtain ⟨o5, o6, h5, h6, rfl⟩ := evalOperands_two_ok hrest4
    obtain rfl : last = o6 := eq_of_append_singleton (m := [o1, o2, o3, o4, o5]) hos
    have honly := ((indexOperands_done h1 h2 h3 h4 h5).trans' (operandsDone_of_evalOperand h6)).only
    have hwrite := hstops.afterOperands honly last.next
    rw [exec_index h1 h2 h3 h4 h5 h6, hplace, storeResult_of_stops (t := .long) _ _ hwrite]
    rfl
  | _ => cases hi; exact absurd hop (by decide)

/-! CALLG and CALLS. -/

theorem entryMask_of_error {dst : Longword} {s : State} {e : Stop} (h : s.readWord dst = .error e) :
    entryMask dst s = .error e := by
  rw [entryMask, h]

theorem entryMask_of_ok {dst : Longword} {s : State} {mask : Word} (h : s.readWord dst = .ok mask)
    (hclear : mask.extractLsb' 12 2 = 0#2) : entryMask dst s = .ok mask := by
  simp only [entryMask, h, hclear, if_true]

section

variable {x dst : Specifier} {s : State} {a d : Evaluated}

theorem exec_callg (ha : evalOperand addressByte x (addrAdd s.pc 1) s = .ok a)
    (hd : evalOperand addressByte dst a.next a.state = .ok d) :
    exec (.callg x dst) s = conclude s
      (entryMask d.long d.state >>= fun mask => callProcedure false a.long d.long d.next mask d.state) := by
  simp only [exec, execCallg, ha, hd, bind, Except.bind]

theorem exec_calls (ha : evalOperand readLong x (addrAdd s.pc 1) s = .ok a)
    (hd : evalOperand addressByte dst a.next a.state = .ok d) :
    exec (.calls x dst) s = conclude s
      (entryMask d.long d.state >>= fun mask => d.state.push a.long >>= fun s' =>
        callProcedure true s'.sp d.long d.next mask s') := by
  simp only [exec, execCalls, ha, hd, bind, Except.bind]

variable {mask : Word}

theorem exec_callg_of_not_canWrite (ha : evalOperand addressByte x (addrAdd s.pc 1) s = .ok a)
    (hd : evalOperand addressByte dst a.next a.state = .ok d) (hmask : d.state.readWord d.long = .ok mask)
    (hclear : mask.extractLsb' 12 2 = 0#2)
    (h : ¬ d.state.canWrite s.psl.cur (callBottom mask d.state) (4 * (5 + (maskRegs mask).length))) :
    ∃ f va, exec (.callg x dst) s = raiseFault (.memory f va .write) s := by
  have honly := (evalOperand_ok ha).1.trans' (evalOperand_ok hd).1
  obtain ⟨f, va, hcall⟩ := callProcedure_of_not_canWrite false a.long d.long d.next (by rw [honly.psl']; exact h)
  refine ⟨f, va, ?_⟩
  rw [exec_callg ha hd, bind_of_ok _ (entryMask_of_ok hmask hclear), hcall]
  rfl

theorem exec_calls_of_not_canWrite (ha : evalOperand readLong x (addrAdd s.pc 1) s = .ok a)
    (hd : evalOperand addressByte dst a.next a.state = .ok d) (hmask : d.state.readWord d.long = .ok mask)
    (hclear : mask.extractLsb' 12 2 = 0#2)
    (h : ¬ (d.state.canWrite s.psl.cur (d.state.sp - 4) 4 ∧ d.state.canWrite s.psl.cur
      (callBottom mask (d.state.setSp (d.state.sp - 4))) (4 * (5 + (maskRegs mask).length)))) :
    ∃ f va, exec (.calls x dst) s = raiseFault (.memory f va .write) s := by
  have honly := (evalOperand_ok ha).1.trans' (evalOperand_ok hd).1
  rw [← honly.psl'] at h
  rw [exec_calls ha hd, bind_of_ok _ (entryMask_of_ok hmask hclear)]
  cases hpush : d.state.push a.long with
  | error e =>
    obtain ⟨f, va, rfl⟩ := State.push_error hpush
    exact ⟨f, va, rfl⟩
  | ok pushed =>
    obtain ⟨heq, -, -, -⟩ := State.push_spec hpush
    have hsp : pushed.sp = d.state.sp - 4 := by rw [heq]; exact StackPointers.get_set_same _ _ _
    have hbottom : callBottom mask pushed = callBottom mask (d.state.setSp (d.state.sp - 4)) := by
      rw [callBottom, callBottom, hsp, State.setSp_sp]
    have hcount := (State.push_ok_iff d.state a.long).1 ⟨pushed, hpush⟩
    have hframe : ¬ pushed.canWrite pushed.psl.cur (callBottom mask pushed) (4 * (5 + (maskRegs mask).length)) := by
      rw [hbottom, State.canWrite_congr (s := d.state) (by rw [heq]), show pushed.psl = d.state.psl by rw [heq]]
      exact fun hw => h ⟨hcount, hw⟩
    obtain ⟨f, va, hcall⟩ := callProcedure_of_not_canWrite true pushed.sp d.long d.next hframe
    exact ⟨f, va, congrArg (conclude s) hcall⟩

end

/-- The entry mask cannot be read. -/
theorem exec_call_of_mask_error {x dst : Specifier} {s : State} {a d : Evaluated} {i : Instr} {k : OperandKind} {e : Stop}
    (hi : (i, k) ∈ [(Instr.callg x dst, addressByte), (.calls x dst, readLong)])
    (ha : evalOperand k x (addrAdd s.pc 1) s = .ok a) (hd : evalOperand addressByte dst a.next a.state = .ok d)
    (hmask : d.state.readWord d.long = .error e) : exec i s = raiseStop s e := by
  simp only [List.mem_cons, Prod.mk.injEq, List.not_mem_nil, or_false] at hi
  obtain ⟨rfl, rfl⟩ | ⟨rfl, rfl⟩ := hi
  · rw [exec_callg ha hd, bind_of_error _ (entryMask_of_error hmask), conclude_error]
  · rw [exec_calls ha hd, bind_of_error _ (entryMask_of_error hmask), conclude_error]

/-! REI and RET. -/

theorem exec_rei_of_error {s : State} {e : Stop}
    (h : s.readLong s.sp = .error e ∨ ∃ pc, s.readLong s.sp = .ok pc ∧ s.readLong (s.sp + 4) = .error e) :
    exec .rei s = raiseStop s e := by
  have hreturn : returnFromException s = .error e := by
    obtain hpc | ⟨pc, hpc, hpsl⟩ := h
    · rw [returnFromException, hpc]
    · rw [returnFromException, hpc]
      simp only [hpsl]
  show conclude s (returnFromException s) = _
  rw [hreturn, conclude_error]

/-- The status cannot be popped. -/
theorem exec_ret_of_status_error {s : State} {e : Stop} (h : s.readLong (s.getReg fpReg + 4) = .error e) :
    exec .ret s = raiseStop s e := by
  have hpop : (s.setSp (s.getReg fpReg + 4)).pop = .error e :=
    State.pop_error (by rw [readLong_congr (onlyRegisters_setSp _ _), State.setSp_sp]; exact h)
  exact congrArg (conclude s) (bind_of_error _ hpop)

/-- A pop after the status cannot be made. -/
theorem exec_ret_of_read_error {s : State} {status a : Longword} {before after : List Longword} {e : Stop}
    (hstatus : s.readLong (s.getReg fpReg + 4) = .ok status) (hok : acceptableStatus status = true)
    (hsplit : retReads (s.getReg fpReg) status = before ++ a :: after)
    (hbefore : ∀ b ∈ before, ∃ v, s.readLong b = .ok v) (h : s.readLong a = .error e) : exec .ret s = raiseStop s e := by
  obtain ⟨x, hx, hreads⟩ := exec_ret_reads hstatus hok
  rw [hx, hreads before a after e hsplit hbefore h, conclude_error]

/-- Settles O59, access by access: each is the stop of the instruction's meaning, and `conclude` raises it from the start. -/
theorem operandFaultBacksUp : Obligations.OperandFaultBacksUp := by
  refine ⟨fun i op specs s e hi hpoly hchm heval => ?_, fun i op specs s s' os last next a j e => ?_,
    fun x dst s a d i k e => exec_call_of_mask_error, fun s e => exec_rei_of_error, fun s e => exec_ret_of_status_error,
    fun s status a before after e hstatus h8 h28 => ?_, fun c n specs s e => execClass_of_operands_error,
    fun s a j size e hj hbefore herror => ?_, fun x dst s a d mask => exec_callg_of_not_canWrite,
    fun x dst s a d mask => exec_calls_of_not_canWrite, fun x y s e i hi heval hcan => ?_⟩
  · have hexec := exec_of_operands_error hi hpoly hchm heval
    exact ⟨hexec, fun hcan => hexec ▸ raiseFault_enters hcan⟩
  · intro hi hop heval hplace hj hbefore herror
    exact exec_of_result_stops hi hop heval hplace ⟨hj, hbefore, herror⟩
  · exact exec_ret_of_read_error hstatus (acceptableStatus_of_clear h8 h28)
  · have hstops : ∀ n, n = size → writeStops s s.psl.cur a n j (.fault e) := by
      rintro _ rfl
      exact ⟨hj, hbefore, herror⟩
    exact ⟨fun t x c v w ht => ⟨classInt_of_stops x c (hstops _ ht), classIdiv_of_stops v w (hstops _ ht)⟩,
      fun t v cc ht => classFlt_normal_of_stops v cc (hstops _ ht),
      fun o len divisor hlen => ⟨classDec_of_stops o (hstops _ hlen), classDdiv_of_stops divisor o (hstops _ hlen)⟩,
      fun start => conclude_error start _⟩
  · have hoperands : evalOperands [readLong, modifyLong] [x, y] (addrAdd s.pc 1) s = .error (.fault e) := by
      refine evalOperands_cons_error_iff.2 (heval.imp_right fun ⟨a, ha, hy⟩ => ⟨a, ha, ?_⟩)
      exact evalOperands_cons_error_iff.2 (.inl hy)
    have hexec : exec i s = raiseFault e s := by
      obtain rfl | rfl := hi
      · exact exec_of_operands_error (op := .addl2) rfl (by simp) (by simp) hoperands
      · exact exec_of_operands_error (op := .divl2) rfl (by simp) (by simp) hoperands
    rw [hexec]
    exact raiseFault_enters hcan

end Sys2Proof.Machine
end

section
/-! SUPPORT. Decoding an encoding that is cut short (30_encoding.md R70, R75): a specifier of which some bytes are missing
cannot be read, and the decoder answers the specifiers that are whole before it. -/

namespace Sys2Proof

theorem decodeExtension_of_short {n : Nat} {bs : List Byte} (h : bs.length < n) (mk : List Byte → BaseSpec) :
    decodeExtension n bs mk = none := by
  rw [decodeExtension, takeBytes, if_pos h]

/-- A base specifier cut short cannot be read: only a form with an extension has more than its specifier byte, and its
extension is then too short. -/
theorem decodeBase_take {t : OpType} {b : BaseSpec} {n : Nat} (h : n < b.length t) :
    decodeBase t ((encodeBase t b).take n) = none := by
  cases n with
  | zero => rfl
  | succ n =>
    have hshort (m : Nat) (ext : List Byte) (hn : n < m) : (ext.take n).length < m :=
      Nat.lt_of_le_of_lt (List.length_take_le n ext) hn
    cases b with
    | literal | register | deferred | autodecrement | autoincrement | autoincrementDeferred =>
      exact absurd (Nat.lt_of_succ_lt_succ h) (Nat.not_lt_zero n)
    | immediate v =>
      have hn : n < t.size := by simp only [BaseSpec.length] at h; omega
      simp [encodeBase, decodeBase, decodeExtension_of_short (hshort _ _ hn)]
    | absolute | byteDisp | byteDispDeferred | wordDisp | wordDispDeferred | longDisp | longDispDeferred =>
      simp [encodeBase, decodeBase, decodeExtension_of_short (hshort _ _ (Nat.lt_of_succ_lt_succ h))]

/-- A specifier cut short cannot be read: nothing of it, an index byte alone, or a base specifier cut short. -/
theorem decodeSpec_take {t : OpType} {sp : Specifier} {n : Nat} (h : n < sp.length t) :
    decodeSpec t ((encodeSpec t sp).take n) = none := by
  cases n with
  | zero => rfl
  | succ n =>
    cases sp with
    | plain b =>
      obtain ⟨b0, ext, henc, hmode⟩ := encodeBase_head t b
      have hbase := decodeBase_take h
      rw [henc, List.take_succ_cons] at hbase
      simp [encodeSpec, henc, decodeSpec, hmode, hbase]
    | indexed x b =>
      cases n with
      | zero => simp [encodeSpec, decodeSpec]
      | succ n =>
        obtain ⟨b0, ext, henc, hmode⟩ := encodeBase_head t b
        have hbase : decodeBase t ((encodeBase t b).take (n + 1)) = none :=
          decodeBase_take (by simp only [Specifier.length] at h; omega)
        rw [henc, List.take_succ_cons] at hbase
        simp [encodeSpec, henc, decodeSpec, hmode, hbase]
    | indexedTwice x y =>
      obtain rfl : n = 0 := Nat.lt_one_iff.1 (Nat.lt_of_succ_lt_succ h)
      simp [encodeSpec, decodeSpec]

/-- Bytes that run out in a specifier decode to the specifiers that are whole before it. -/
theorem decodeSpecs_cut {ks : List OperandKind} {sps : List Specifier} {k : OperandKind} {part : List Byte}
    (hwf : wfSpecs (ks.take sps.length) sps = true) (hk : ks[sps.length]? = some k) (hpart : decodeSpec k.type part = none) :
    decodeSpecs ks (encodeSpecs ks sps ++ part) = .cut sps := by
  induction sps generalizing ks with
  | nil =>
    cases ks with
    | nil => cases hk
    | cons k' ks =>
      obtain rfl : k' = k := Option.some.inj hk
      simp [encodeSpecs, decodeSpecs, hpart]
  | cons sp sps ih =>
    cases ks with
    | nil => cases hk
    | cons k' ks =>
      simp only [List.length_cons, List.take_succ_cons, wfSpecs, Bool.and_eq_true] at hwf
      obtain ⟨hsp, hsps⟩ := hwf
      simp [encodeSpecs, decodeSpecs, decodeSpec_encodeSpec hsp, ih hsps hk]

/-- A native instruction whose bytes run out in a specifier. -/
theorem decodeNative_cut {o : Opcode} {sps : List Specifier} {k : OperandKind} {part : List Byte}
    (hwf : wfSpecs (o.operands.take sps.length) sps = true) (hk : o.operands[sps.length]? = some k)
    (hpart : decodeSpec k.type part = none) :
    decodeNative (o.bytes ++ encodeSpecs o.operands sps ++ part) = .cut o.bytes.length o.operands sps := by
  rw [List.append_assoc, decodeNative_bytes]
  simp only [decodeAfterOpcode, rowOfCode_code, decodeSpecs_cut hwf hk hpart]

/-- A native instruction whose bytes run out before the second of its opcode (R71). -/
theorem decodeNative_of_announced {op0 : Byte} (h : announcesSecondByte op0 = true) :
    decodeNative [op0] = .cut 0 [] [] := by
  simp only [decodeNative, h, if_true]

theorem decode_nil (compat : Bool) : decode compat [] = .cut 0 [] [] := by
  cases compat <;> rfl

end Sys2Proof
end

section
/-! SUPPORT. The memory management fault of an instruction fetch (41_memory_and_operand_exceptions.md R141 to R143, 43_trace.md
R210): the page table entry's fault, the bytes before it, and the step that comes to it. -/

namespace Sys2Proof.Machine

open Sys2Proof

/-! What a page table entry says of a reference. -/

/-- Settles O11: the access check of `translate` stands before the valid bit's. -/
theorem accessControlComesFirst : Obligations.AccessControlComesFirst :=
  fun _ _ _ _ h => if_pos h

/-- The page table entry raises the fault: the reference is not allowed, or it is and the page is not valid. -/
def entryRaises (entry : PageEntry) : MemFault → Prop
  | .accessControlViolation => entry.allowed = false
  | .translationNotValid => entry.allowed = true ∧ entry.valid = false

theorem translate_of_entryRaises {t : Translation} {va : Longword} {a : Access} {m : Mode} {f : MemFault}
    (h : entryRaises (t.entry va a m) f) : translate t va a m = .error f := by
  cases f with
  | accessControlViolation => exact accessControlComesFirst t va a m h
  | translationNotValid =>
    obtain ⟨hallowed, hvalid⟩ := h
    simp [translate, hallowed, hvalid]

theorem State.physical_of_translate_error {s : State} {m : Mode} {a : Access} {va : Longword} {f : MemFault}
    (h : translate s.translation va a m = .error f) : s.physical m a va = .error (.fault (.memory f va a)) := by
  rw [State.physical, h]

/-! The bytes that can be fetched, and the first that cannot. -/

theorem State.fetchByte_of_error {s : State} {k : Nat} {e : Stop}
    (h : s.physical s.psl.cur .read (addrAdd s.pc k) = .error e) : s.fetchByte k = .error e := by
  rw [State.fetchByte, h]

/-- The fetch ends at the first byte that cannot be fetched. -/
theorem State.fetchFrom_of_error {s : State} {seen : List Byte} {n k : Nat} {e : Stop} (hlen : seen.length < n)
    (hseen : ∀ i, (h : i < seen.length) → s.fetchByte (k + i) = .ok seen[i])
    (herror : s.fetchByte (k + seen.length) = .error e) : s.fetchFrom n k = (seen, e) := by
  induction seen generalizing n k with
  | nil =>
    obtain ⟨n, rfl⟩ : ∃ n', n = n' + 1 := ⟨n - 1, by simp only [List.length_nil] at hlen; omega⟩
    have hfirst : s.fetchByte k = .error e := herror
    simp only [State.fetchFrom, hfirst]
  | cons b seen ih =>
    obtain ⟨n, rfl⟩ : ∃ n', n = n' + 1 := ⟨n - 1, by omega⟩
    have hfirst : s.fetchByte k = .ok b := hseen 0 (Nat.zero_lt_succ _)
    have hlater : s.fetchFrom n (k + 1) = (seen, e) := by
      refine ih (Nat.lt_of_succ_lt_succ hlen) (fun i hi => ?_) ?_
      · rw [Nat.add_right_comm]
        exact hseen (i + 1) (Nat.succ_lt_succ hi)
      · rw [Nat.add_right_comm]
        exact herror
    simp only [State.fetchFrom, hfirst, hlater]

/-- No trace is owed, the fetch is not an odd one, and of the instruction at the PC the bytes `seen` can be fetched and the next
raises the fault `f`. -/
structure fetchStops (s : State) (f : MemFault) (seen : List Byte) : Prop where
  untraced : s.psl.tp = false
  even : s.psl.cm = true → s.pc.getLsbD 0 = false
  short : seen.length < fetchSpan
  fetched : ∀ k, (h : k < seen.length) → s.fetchByte k = .ok seen[k]
  faults : entryRaises (s.translation.entry (addrAdd s.pc seen.length) .read s.psl.cur) f

section

variable {s : State} {f : MemFault} {seen : List Byte}

theorem fetchStops.window (h : fetchStops s f seen) :
    s.sampleTrace.fetchWindow = (seen, .fault (.memory f (addrAdd s.pc seen.length) .read)) := by
  have herror : s.fetchByte seen.length = .error (.fault (.memory f (addrAdd s.pc seen.length) .read)) :=
    State.fetchByte_of_error (State.physical_of_translate_error (translate_of_entryRaises h.faults))
  refine State.fetchFrom_of_error (s := s.sampleTrace) h.short (fun i hi => ?_) ?_
  · rw [Nat.zero_add]
    exact h.fetched i hi
  · rw [Nat.zero_add]
    exact herror

/-- Where the bytes that can be fetched are no whole instruction, the step is that of an instruction cut short. -/
theorem fetchStops.step_cutShort (h : fetchStops s f seen) {opLen : Nat} {kinds : List OperandKind} {specs : List Specifier}
    (hcut : decode s.psl.cm seen = .cut opLen kinds specs) :
    step s = cutShort opLen kinds specs (.fault (.memory f (addrAdd s.pc seen.length) .read)) s.sampleTrace.afterFetch := by
  have hodd : s.sampleTrace.oddFetch = false := by simpa [State.oddFetch] using h.even
  simp [step, beginStep, fetchInstruction, h.untraced, hodd, h.window, hcut]

/-- Where a whole specifier of an instruction cut short cannot be evaluated, that is what stops it. -/
theorem cutShort_of_error {n : Nat} {kinds : List OperandKind} {specs : List Specifier} {u : State} {e : Stop}
    (h : evalOperands kinds specs (addrAdd u.pc n) u = .error e) (why : Stop) :
    cutShort n kinds specs why u = raiseStop u e := by
  rw [cutShort, h]

/-- Where its whole specifiers can be evaluated, an instruction cut short is stopped by the fetch. -/
theorem cutShort_of_ok {n : Nat} {kinds : List OperandKind} {specs : List Specifier} {u : State}
    {r : List Evaluated × Longword × State} (h : evalOperands kinds specs (addrAdd u.pc n) u = .ok r) (why : Stop) :
    cutShort n kinds specs why u = raiseStop u why := by
  rw [cutShort, h]

/-- Where the bytes run out before the first specifier there is nothing to evaluate, and the fetch's fault is raised. -/
theorem fetchStops.step_raiseFault (h : fetchStops s f seen) (hcut : decode s.psl.cm seen = .cut 0 [] []) :
    step s = raiseFault (.memory f (addrAdd s.pc seen.length) .read) s.sampleTrace.afterFetch := by
  rw [h.step_cutShort hcut, cutShort_of_ok rfl]
  rfl

/-- The routine of a fetch's fault. Sampling T and drawing the fetch's free values change nothing that decides whether it can be
entered. -/
theorem memoryFault_enters {va : Longword} (h : step s = raiseFault (.memory f va .read) s.sampleTrace.afterFetch)
    (hcan : canEnter (.memory f va .read) (2 + (memoryParams s.config.mmParams f va .read s.psl.cur).length) s) :
    ∃ t, step s = .next t ∧
      entered (.memory f va .read) { s.psl with tp := false }
        (({ s.psl with tp := false } : Psl).pack :: s.pc :: memoryParams s.config.mmParams f va .read s.psl.cur)
        s.sampleTrace.afterFetch t := by
  rw [Nat.add_comm] at hcan
  rw [h]
  exact raiseFault_enters (s := s.sampleTrace.afterFetch) ⟨hcan.notMicrocode, hcan.code, hcan.pushes⟩

end

/-- Settles O10, by where the first byte that cannot be fetched stands: the second of a compatibility-mode word or of a two-byte
opcode, one of a specifier, or the first of all. -/
theorem fetchFaults : Obligations.FetchFaults := by
  refine ⟨fun s f seen htp heven hshort hseen => ?_, fun s htp heven f hentry hcan => ?_⟩
  · intro va fault begun hentry raised
    have hstops : fetchStops s f seen :=
      ⟨htp, heven, hshort, hseen, by cases f <;> exact hentry⟩
    have hraised (hstep : step s = raiseFault fault begun) : raised := ⟨hstep, memoryFault_enters hstep⟩
    refine ⟨fun hcm hone => hraised (hstops.step_raiseFault ?_), fun hcm => ⟨fun op0 hop0 hmem => ?_, ?_⟩⟩
    · obtain ⟨b0, rfl⟩ := List.length_eq_one_iff.1 hone
      rw [hcm]
      rfl
    · have hannounces : announcesSecondByte op0 = true := by simpa [announcesSecondByte, or_assoc] using hmem
      refine hraised (hstops.step_raiseFault ?_)
      rw [hcm, hop0]
      exact decodeNative_of_announced hannounces
    · intro op specs k sp part hwf hk hlt hpart hbytes
      have hpartial : decodeSpec k.type part = none := by
        rw [hpart]
        exact decodeSpec_take (by rwa [Specifier.encode_length] at hlt)
      have hcut : decode s.psl.cm seen = .cut op.bytes.length op.operands specs := by
        rw [hcm, hbytes]
        exact decodeNative_cut hwf hk hpartial
      split
      · next e he => rw [hstops.step_cutShort hcut]; exact cutShort_of_error he _
      · next r hr => exact hraised ((hstops.step_cutShort hcut).trans (cutShort_of_ok hr _))
  · have hstops : fetchStops s f [] :=
      ⟨htp, heven, by decide, fun _ h => absurd h (Nat.not_lt_zero _), by
        rw [List.length_nil, addrAdd_zero]
        cases f <;> exact hentry⟩
    have hstep := hstops.step_raiseFault (decode_nil _)
    rw [List.length_nil, addrAdd_zero] at hstep
    exact memoryFault_enters hstep hcan

end Sys2Proof.Machine
end

section
/-! SUPPORT. Call frames that raise the reserved operand fault (41_memory_and_operand_exceptions.md R149; 43_trace.md R220,
R222). -/

namespace Sys2Proof.Machine

open Sys2Proof

theorem entryMask_of_reserved {dst : Longword} {s : State} {mask : Word} (h : s.readWord dst = .ok mask)
    (hbits : mask.extractLsb' 12 2 ≠ 0#2) : entryMask dst s = .error (.fault .reservedOperand) := by
  simp only [entryMask, h, hbits, if_false]

theorem acceptableStatus_of_reserved {status : Longword} (h : status.extractLsb' 8 8 ≠ 0#8 ∨ status.getLsbD 28 = true) :
    acceptableStatus status = false := by
  obtain h | h := h <;> simp [acceptableStatus, h]

/-- RET of a status that is not acceptable is backed up. -/
theorem exec_ret_of_bad_status {s : State} {status : Longword} (h : s.readLong (s.getReg fpReg + 4) = .ok status)
    (hbad : acceptableStatus status = false) : exec .ret s = raiseFault .reservedOperand s := by
  have hpop : (s.setSp (s.getReg fpReg + 4)).pop = .ok (status, (s.setSp (s.getReg fpReg + 4)).setSp _) :=
    State.pop_of_readLong (by rw [readLong_congr (onlyRegisters_setSp _ _), State.setSp_sp]; exact h)
  refine (congrArg (conclude s) (bind_of_ok _ hpop)).trans ?_
  simp only [hbad, Bool.not_false, if_true, conclude_error]
  rfl

/-- Settles O52: the entry mask is checked before anything is pushed, the status before anything more is popped, and the fault is
raised from the start. -/
theorem badCallFramesFault : Obligations.BadCallFramesFault := by
  intro s hcan
  refine ⟨fun x dst i k a d mask hi ha hd hmask hbits => ?_, fun status hstatus hbits => ?_⟩
  · have hmask := entryMask_of_reserved hmask hbits
    have hexec : exec i s = raiseFault .reservedOperand s := by
      simp only [List.mem_cons, Prod.mk.injEq, List.not_mem_nil, or_false] at hi
      obtain ⟨rfl, rfl⟩ | ⟨rfl, rfl⟩ := hi
      · rw [exec_callg ha hd, bind_of_error _ hmask]; rfl
      · rw [exec_calls ha hd, bind_of_error _ hmask]; rfl
    rw [hexec]
    exact raiseFault_enters hcan
  · rw [exec_ret_of_bad_status hstatus (acceptableStatus_of_reserved hbits)]
    exact raiseFault_enters hcan

end Sys2Proof.Machine
end

section
/-! SUPPORT. Vectors, service stacks and the modes entered, exception by exception (60_exceptions.md R232 to R239). -/

namespace Sys2Proof

/-- Byte `k` of a little-endian number is the `k`-th of its bytes (20_memory.md R51). -/
theorem leNat_byte {bs : List Byte} {k : Nat} (hk : k < bs.length) : BitVec.ofNat 8 (leNat bs / 256 ^ k) = bs[k] := by
  induction bs generalizing k with
  | nil => cases hk
  | cons b bs ih =>
    have hb := b.isLt
    cases k with
    | zero =>
      apply BitVec.eq_of_toNat_eq
      simp only [leNat, Nat.pow_zero, Nat.div_one, BitVec.toNat_ofNat, List.getElem_cons_zero]
      omega
    | succ k =>
      have hrest : leNat (b :: bs) / 256 = leNat bs := by
        simp only [leNat]
        omega
      rw [Nat.pow_succ', ← Nat.div_div_eq_div_mul, hrest]
      exact ih (Nat.lt_of_succ_lt_succ hk)

theorem leLong_byte {bs : List Byte} (hlen : bs.length = 4) {k : Nat} (hk : k < 4) :
    (leLong bs).extractLsb' (8 * k) 8 = bs[k] := by
  have hlt : leNat bs < 2 ^ 32 := Nat.lt_of_lt_of_le (leNat_lt bs) (by rw [hlen]; decide)
  rw [BitVec.extractLsb', leLong, BitVec.toNat_ofNat, Nat.mod_eq_of_lt hlt, Nat.shiftRight_eq_div_pow, Nat.pow_mul]
  exact leNat_byte (hlen ▸ hk)

end Sys2Proof

namespace Sys2Proof.Machine

open Sys2Proof

/-- The bytes of a longword in memory, lowest first. -/
theorem State.physicalLong_byte (s : State) (pa : Longword) {k : Nat} (hk : k < 4) :
    (s.physicalLong pa).extractLsb' (8 * k) 8 = s.physicalByte (addrAdd pa k) := by
  rw [State.physicalLong, leLong_byte rfl hk]
  obtain rfl | rfl | rfl | rfl : k = 0 ∨ k = 1 ∨ k = 2 ∨ k = 3 := by omega
  · rw [addrAdd_zero]
    rfl
  all_goals rfl

/-- The four codes of a vector are the four values of its bits 1:0. -/
theorem vectorCode_iff (v : Longword) :
    (vectorCode v = .kernelStack ↔ v.extractLsb' 0 2 = 0#2) ∧ (vectorCode v = .interruptStack ↔ v.extractLsb' 0 2 = 1#2) ∧
    (vectorCode v = .writableControlStore ↔ v.extractLsb' 0 2 = 2#2) ∧
    (vectorCode v = .reserved ↔ v.extractLsb' 0 2 = 3#2) := by
  simp only [vectorCode]
  generalize v.extractLsb' 0 2 = b
  revert b
  decide

/-- An exception that is neither a change mode trap nor an emulation exception enters kernel mode. -/
theorem newMode_of_ordinary {e : Exc} (hchm : ∀ target code, e ≠ .changeMode target code) (hemul : e.isEmulation = false)
    (m : Mode) : e.newMode m = .kernel := by
  cases e with
  | changeMode target code => exact absurd rfl (hchm target code)
  | subsetEmulationTrap | suspendedEmulationFault => cases hemul
  | _ => rfl

/-- It does so on the interrupt stack where that is in use or the vector says so, else on the kernel stack. -/
theorem serviceStack_of_ordinary {e : Exc} (hchm : ∀ target code, e ≠ .changeMode target code)
    (hemul : e.isEmulation = false) (p : Psl) (c : VectorCode) :
    serviceStack e p c = if p.is = true ∨ c = .interruptStack then .interrupt else .kernel := by
  have hstack : serviceStack e p c = if p.is || c == .interruptStack then .interrupt else .kernel := by
    cases e with
    | changeMode target code => exact absurd rfl (hchm target code)
    | subsetEmulationTrap | suspendedEmulationFault => cases hemul
    | _ => rfl
  simpa using hstack

/-- Settles O14: the vector's offset and the parameters by the exception, the vector's code by its two bits, the stack and the
mode by the exception's kind. -/
theorem serviceStackAndMode : Obligations.ServiceStackAndMode := by
  refine ⟨fun s x y va a z code e offset => ?_, vectorCode_iff, fun e pc p s he => ?_, fun s e he => ?_,
    fun s f va a => ⟨fun h => ?_, fun h => ?_⟩, fun _ _ _ => rfl, fun _ _ => ⟨rfl, rfl⟩, fun _ => ⟨rfl, rfl⟩,
    fun _ _ _ _ => ⟨rfl, rfl⟩,
    fun e p c hchm hemul => ⟨newMode_of_ordinary hchm hemul p.cur, serviceStack_of_ordinary hchm hemul p c⟩⟩
  · intro v hmem k hk
    have hoffset : e.offset v = offset :=
      List.map_inj_left (f := fun p : Exc × Longword => p.1.offset v) (g := Prod.snd).1 rfl _ hmem
    rw [← hoffset]
    exact s.physicalLong_byte _ hk
  · cases e with
    | subsetEmulationTrap => exact absurd rfl he
    | _ => rfl
  · revert e
    simp [Exc.params]
  · simp only [Exc.params, h, memoryParams]
  · simp only [Exc.params, h, memoryParams]

end Sys2Proof.Machine
end

section
/-! SUPPORT. The mode after a step (42_instruction_execution_exceptions.md R179; 60_exceptions.md R247): of a step's ways to a next
state (`step_next`), a return is to no more privileged mode, the entry of a routine to no less privileged one, and every other
keeps the mode. -/

namespace Sys2Proof.Machine

open Sys2Proof

theorem morePrivileged_eq_false_iff (a b : Mode) :
    morePrivileged a b = false ↔ (modeBits b).toNat ≤ (modeBits a).toNat := by
  simp only [morePrivileged, decide_eq_false_iff_not, not_lt]

theorem morePrivileged_self (m : Mode) : morePrivileged m m = false :=
  (morePrivileged_eq_false_iff m m).2 (Nat.le_refl _)

/-- The current mode is not more privileged than the one its exception's routine runs in. -/
theorem newMode_not_below (e : Exc) (m : Mode) : morePrivileged m (e.newMode m) = false := by
  cases e with
  | changeMode target code => exact (morePrivileged_eq_false_iff _ _).2 (mostPrivileged_le m target)
  | subsetEmulationTrap | suspendedEmulationFault => exact morePrivileged_self m
  | _ => exact morePrivileged_kernel m

/-- REI returns to no more privileged mode. -/
theorem returnFromException_not_above {s t : State} (h : returnFromException s = .ok (.done t)) :
    morePrivileged t.psl.cur s.psl.cur = false := by
  obtain ⟨newPc, w, -, -, hmode, -, -, hdone⟩ := returnFromException_done h
  cases hdone
  exact hmode

/-- What an instruction other than REI comes to is in the mode of its start, or in an entered routine. -/
theorem ordinaryAnswer.mode {s t : State} (h : ordinaryAnswer s t) :
    t.psl.cur = s.psl.cur ∨
      ∃ e pc p u, p.cur = s.psl.cur ∧ initiate e pc p u = .next t ∧ t.psl.cur = e.newMode s.psl.cur := by
  rcases h with hordinary | ⟨e, pc, p, u, -, hcur, -, hinit⟩
  · exact .inl hordinary.high.cur'
  · exact .inr ⟨e, pc, p, u, hcur, hinit, hcur ▸ (initiate_next hinit).1.cur⟩

/-- Settles O18, by what the step came to: REI's return raises no privilege, an entered routine lowers none, and the rest does
neither. -/
theorem modeChanges : Obligations.ModeChanges := by
  intro s t hstep
  obtain ⟨u, hsame, ⟨hrei, hreturn⟩ | hanswer⟩ := step_next hstep
  · have habove := returnFromException_not_above hreturn
    rw [hsame.cur] at habove
    rw [habove]
    exact ⟨fun _ => ⟨u, hrei⟩, nofun⟩
  · rcases hanswer.mode with hkept | ⟨e, pc, p, v, hcur, hinit, hnew⟩
    · rw [hkept, hsame.cur, morePrivileged_self]
      exact ⟨nofun, nofun⟩
    · rw [hsame.cur] at hcur hnew
      rw [hnew, newMode_not_below]
      exact ⟨nofun, fun _ => ⟨e, pc, p, v, hcur, hinit⟩⟩

end Sys2Proof.Machine
end

section
/-! SUPPORT. Instructions that are an exception (42_instruction_execution_exceptions.md R162 to R170, R180, R184 to R189): the reserved
opcode, XFC, BPT, the compatibility-mode instructions, an omitted string instruction, and the fetch at an odd address. -/

namespace Sys2Proof.Machine

open Sys2Proof

/-! Instructions whose meaning is a fault. -/

/-- The instructions that raise a fault whatever the state, each with its fault and the parameters that it pushes. -/
def faultingRows (code : Byte) : List (Instr × Exc × List Longword) :=
  [(.reservedFFFF, .reservedOrPrivilegedInstruction, []), (.xfc, .customerReservedOpcode, []), (.bpt, .breakpoint, []),
    (.bptCompat, .compatibilityMode .bpt, [1]), (.iotCompat, .compatibilityMode .iot, [2]),
    (.emtCompat code, .compatibilityMode .emt, [3]), (.trapCompat code, .compatibilityMode .trap, [4])]

theorem exec_of_faultingRow {code : Byte} {i : Instr} {e : Exc} {params : List Longword}
    (h : (i, e, params) ∈ faultingRows code) (s : State) :
    exec i s = raiseFault e s ∧ ∀ pc p, e.frame pc p s = p.pack :: pc :: params := by
  simp only [faultingRows, List.mem_cons, Prod.mk.injEq, List.not_mem_nil, or_false] at h
  obtain ⟨rfl, rfl, rfl⟩ | ⟨rfl, rfl, rfl⟩ | ⟨rfl, rfl, rfl⟩ | ⟨rfl, rfl, rfl⟩ | ⟨rfl, rfl, rfl⟩ | ⟨rfl, rfl, rfl⟩ |
    ⟨rfl, rfl, rfl⟩ := h <;> exact ⟨rfl, fun _ _ => rfl⟩

/-- Settles O28: each of these instructions raises its fault (`exec_of_faultingRow`), and a fault that can be entered is. -/
theorem faultingInstructionsEnter : Obligations.FaultingInstructionsEnter := by
  intro s code i e params hrow hcan
  obtain ⟨hexec, hframe⟩ := exec_of_faultingRow hrow s
  rw [hexec, ← hframe]
  refine raiseFault_enters ?_
  rw [hframe, List.length_cons, List.length_cons, Nat.add_assoc, Nat.add_comm]
  exact hcan

/-- Settles O16: the code of each event, read off Table E-2. -/
theorem compatibilityTypeCodes : Obligations.CompatibilityTypeCodes := fun _ => rfl

/-! The reserved opcode in memory. -/

/-- A byte that can be read can be fetched, whichever of its candidates the fetch sees. -/
theorem State.fetchByte_of_canRead {s : State} {n k : Nat} (h : s.canRead s.psl.cur s.pc n) (hk : k < n) :
    ∃ b, s.fetchByte k = .ok b := by
  obtain ⟨pa, hpa⟩ := h k hk
  exact ⟨_, State.fetchByte_eq hpa⟩

/-- Where two bytes can be read at a PC that is not an odd one of compatibility mode, the fetch of the opcode raises nothing. -/
theorem State.fetchFault_of_canRead {s : State} (hodd : s.oddFetch = false) (h : s.canRead s.psl.cur s.pc 2) :
    s.fetchFault = none := by
  obtain ⟨b0, h0⟩ := State.fetchByte_of_canRead h Nat.zero_lt_two
  obtain ⟨b1, h1⟩ := State.fetchByte_of_canRead h Nat.one_lt_two
  simp [State.fetchFault, hodd, h0, h1]

/-- Where a trace is owed and the fetch raises nothing, the step is the trace fault (43_trace.md R209 phase A). -/
theorem step_of_trace {s : State} (htp : s.psl.tp = true) (hfetch : s.fetchFault = none) :
    step s = raiseTrace (s.advanceDraws traceDraws) := by
  simp [step, beginStep, htp, traceOwed, hfetch]

/-- Settles O29: the reserved opcode stands at the PC and runs, or the trace that is owed comes first. -/
theorem opcodeFFFFAlwaysFaults : Obligations.OpcodeFFFFAlwaysFaults := by
  refine ⟨rfl, fun s hcm hstale hbytes => ⟨fun htp => ?_, fun htp => ?_⟩⟩
  · exact step_of_stored (i := .reservedFFFF) rfl htp hstale hcm.symm (by simp [hcm]) hbytes
  · have hodd : s.oddFetch = false := by simp [State.oddFetch, hcm]
    exact step_of_trace htp (State.fetchFault_of_canRead hodd ((State.readBytes_ok_iff s _ 2 _).1 ⟨_, hbytes⟩))

/-! The odd address abort. -/

/-- A step with no trace owed at an odd address of compatibility mode is the abort (R184). -/
theorem step_of_oddFetch {s : State} (htp : s.psl.tp = false) (hodd : s.oddFetch = true) :
    step s = raiseFault (.compatibilityMode .oddAddress) s.sampleTrace := by
  have hsampled : s.sampleTrace.oddFetch = true := hodd
  simp [step, beginStep, fetchInstruction, htp, hsampled]

/-- Settles O9: the step is the abort, and sampling T changes nothing that decides whether its routine can be entered. -/
theorem oddAddressAborts : Obligations.OddAddressAborts := by
  intro s htp hcm hpc hcan
  rw [step_of_oddFetch htp (by simp [State.oddFetch, hcm, hpc])]
  exact raiseFault_enters (s := s.sampleTrace) ⟨hcan.notMicrocode, hcan.code, hcan.pushes⟩

/-! Omitted string instructions. -/

theorem otherOpcode_of_subsetOp {s : State} {code : Word} (h : code ∈ s.config.subsetOps) (opLen : Nat) (rest : List Byte)
    (why : Stop) : otherOpcode code opLen rest why s = emulate s := by
  simp [otherOpcode, h]

theorem emulate_of_fpd_clear {s : State} (h : s.psl.fpd = false) :
    emulate s = initiate .subsetEmulationTrap s.pc s.psl (s.advanceDraws 1) := by
  simp [emulate, h]

theorem emulate_of_fpd_set {s : State} (h : s.psl.fpd = true) : emulate s = raiseFault .suspendedEmulationFault s :=
  if_pos h

/-- Settles O45: an opcode of SUBSET_OPS is emulated, by the exception that FPD chooses; the fault's routine runs in the mode it
was raised in. -/
theorem emulationExceptions : Obligations.EmulationExceptions := by
  intro s code n rest htp hcm hdecode hsubset
  have hstep : step s = emulate s.sampleTrace.afterFetch := by
    rw [step_of_unknownOpcode htp hcm hdecode]
    exact otherOpcode_of_subsetOp (s := s.sampleTrace.afterFetch) hsubset _ _ _
  refine ⟨fun hfpd => ?_, fun hfpd hcan => ?_⟩
  · rw [hstep]
    exact emulate_of_fpd_clear (s := s.sampleTrace.afterFetch) hfpd
  · rw [hstep, emulate_of_fpd_set (s := s.sampleTrace.afterFetch) hfpd]
    obtain ⟨t, ht, hentered⟩ := raiseFault_enters hcan
    exact ⟨t, ht, hentered.cur, hentered⟩

end Sys2Proof.Machine
end

section
/-! SUPPORT. CHMK, CHME, CHMS and CHMU (42_instruction_execution_exceptions.md R174 to R179), and the refusals that an instruction's own
conditions ask for. -/

namespace Sys2Proof.Machine

open Sys2Proof

/-- The change mode instructions, each with its target. -/
def changeModeRows (code : Specifier) : List (Instr × Mode) :=
  [(.chmk code, .kernel), (.chme code, .executive), (.chms code, .supervisor), (.chmu code, .user)]

theorem exec_of_changeModeRow {code : Specifier} {i : Instr} {target : Mode} (h : (i, target) ∈ changeModeRows code)
    (s : State) : exec i s = changeMode target code s := by
  simp only [changeModeRows, List.mem_cons, Prod.mk.injEq, List.not_mem_nil, or_false] at h
  obtain ⟨rfl, rfl⟩ | ⟨rfl, rfl⟩ | ⟨rfl, rfl⟩ | ⟨rfl, rfl⟩ := h <;> rfl

section

variable {target : Mode} {code : Specifier} {s t : State} {a : Evaluated}

theorem changeMode_of_interruptStack (h : s.psl.is = true) :
    changeMode target code s = .refused .changeModeOnInterruptStack := if_pos h

/-- Off the interrupt stack CHMx takes its trap after the operand: the next instruction's address and the PSL it began with are
saved. -/
theorem changeMode_of_operand (his : s.psl.is = false) (ha : evalOperand readWord code (addrAdd s.pc 1) s = .ok a) :
    changeMode target code s = initiate (.changeMode target a.word) a.next s.psl (a.state.setPc a.next) := by
  have hpsl : (a.state.setPc a.next).psl = s.psl := (evalOperand_ok ha).1.psl'
  rw [changeMode, if_neg (by simp [his]), bind_of_ok _ ha, conclude_trap, raiseTrap, hpsl, State.setPc_pc]

/-- A CHMx that answers a next state was not on the interrupt stack. -/
theorem changeMode_next (h : changeMode target code s = .next t) : s.psl.is = false := by
  by_contra his
  rw [changeMode_of_interruptStack (by simpa using his)] at h
  cases h

end

/-- Settles O30: the trap of `changeMode_of_operand` enters its routine, in the more privileged of the current mode and the
target. -/
theorem changeModeEnters : Obligations.ChangeModeEnters := by
  intro code s a i target hrow his ha hcan
  rw [exec_of_changeModeRow hrow, changeMode_of_operand his ha]
  obtain ⟨t, ht⟩ := initiate_of_canEnter (e := .changeMode target a.word) (pc := a.next) (p := s.psl) hcan
  have hentered := (initiate_next ht).1
  exact ⟨t, ht, hentered, hentered.cur⟩

/-- Settles O31: the PSL that is saved is the one the CHMx began with, in which sampling made TP the T of the step's start. -/
theorem changeModeSavesTrace : Obligations.ChangeModeSavesTrace := by
  intro s u t code a i target hrow hbegin ha hexec
  obtain ⟨-, -, rfl, -⟩ := beginStep_run hbegin
  rw [exec_of_changeModeRow hrow] at hexec
  have htrap := changeMode_of_operand (target := target) (changeMode_next hexec) ha
  rw [hexec] at htrap
  obtain ⟨ht, htp⟩ := (initiate_next htrap.symm).1.untraced
  exact ⟨ht, htp, _, htrap.symm, rfl, rfl⟩

/-! Refusals. -/

theorem polyInstruction_of_fpd {s : State} (h : s.psl.fpd = true) (t : FloatType) (opLen : Nat) (x y z : Specifier) :
    polyInstruction t opLen x y z s = .refused .resumeSuspended := if_pos h

/-- Settles O32: `initiate` asks for microcode first, CHMx for the interrupt stack, POLYx for FPD. -/
theorem instructionRefusals : Obligations.InstructionRefusals := by
  refine fun s x y z => ⟨fun hmicro => initiate_of_microcode _ _ ⟨rfl, hmicro⟩, fun his i hi => ?_, fun hfpd i hi => ?_⟩
  · obtain ⟨row, hrow, rfl⟩ : ∃ row ∈ changeModeRows x, row.1 = i := List.mem_map.1 hi
    rw [exec_of_changeModeRow hrow]
    exact changeMode_of_interruptStack his
  · obtain ⟨row, hrow, rfl⟩ : ∃ row ∈ polyRows x y z, row.1 = i := List.mem_map.1 hi
    rw [exec_poly hrow]
    exact polyInstruction_of_fpd hfpd _ _ x y z

end Sys2Proof.Machine
end

section
/-! SUPPORT. The trace mechanism (43_trace.md R202 to R213): what a step does where a trace is owed, and that an instruction other
than REI ends with the sampled T in TP. -/

namespace Sys2Proof.Machine

open Sys2Proof

/-- Settles O4: with no trace owed the step is fetch and decode at the state in which T has been sampled (`step_of_decode`). -/
theorem stepRunsDecodedInstruction : Obligations.StepRunsDecodedInstruction :=
  fun _ _ _ htp hodd hdecode => step_of_decode htp hodd hdecode

/-- Settles O6: the step at a stored NOP is its meaning (`step_of_stored`), and that moves the PC alone. -/
theorem nopAdvances : Obligations.NopAdvances := by
  refine ⟨rfl, fun _ => rfl, fun s htp hcm hstale hbytes => ?_⟩
  exact step_of_stored (i := .nop) rfl htp hstale hcm.symm (by simp [hcm]) hbytes

/-- A routine entered with TP cleared first is the routine entered: TP decides neither vector, stack nor mode. -/
theorem entered.of_clearedTp {e : Exc} {p : Psl} {frame : List Longword} {s t : State}
    (h : entered e p frame (s.setPsl { s.psl with tp := false }) t) : entered e p frame s t := by
  obtain ⟨hdraws, hstale⟩ := h.fetch
  have hold := State.oldCells_congr (s := s) (t := s.setPsl { s.psl with tp := false }) rfl rfl
  exact ⟨h.pc, h.cleared, h.untraced, h.cur, h.prv, h.is, h.ipl, h.sp, h.otherStacks, h.regs, h.setting,
    ⟨hdraws, hstale.trans (congrArg (· ++ s.staleCode) (hold _ _ _))⟩, h.outside, h.contents⟩

/-- Settles O7: the step is the trace fault (`step_of_trace`), whose routine is entered. -/
theorem pendingTraceIsTakenFirst : Obligations.PendingTraceIsTakenFirst := by
  intro s htp hfetch hcan
  rw [step_of_trace htp hfetch]
  obtain ⟨t, ht⟩ := initiate_of_canEnter (e := .traceFault) (pc := s.pc) (p := { s.psl with tp := false })
    (s := (s.advanceDraws traceDraws).setPsl { s.psl with tp := false }) ⟨hcan.notMicrocode, hcan.code, hcan.pushes⟩
  exact ⟨t, ht, entered.of_clearedTp (initiate_next ht).1⟩

/-- Settles O8: where the fetch would raise an exception too, the draw of `traceOwed` takes one of the two. -/
theorem traceAndFetchFaultInEitherOrder : Obligations.TraceAndFetchFaultInEitherOrder := by
  intro s e htp hfetch
  have howed : step s = traceOwed s := by simp [step, beginStep, htp]
  rw [howed, traceOwed, hfetch]
  rfl

/-- An instruction other than REI ends with TP as it began, or in an exception's routine. -/
theorem exec_keepsTp {i : Instr} {s t : State} (hi : i ≠ .rei) (h : exec i s = .next t) :
    t.psl.tp = s.psl.tp ∨ ∃ e pc p u, initiate e pc p u = .next t := by
  obtain ⟨hrei, -⟩ | hordinary | ⟨e, pc, p, u, -, -, -, hinit⟩ := exec_next h
  · exact absurd hrei hi
  · exact .inl hordinary.high.tp'
  · exact .inr ⟨e, pc, p, u, hinit⟩

/-- Settles O19: TP is the T that was sampled (`exec_keepsTp`), or a routine has been entered, which clears T and TP. -/
theorem tracePendingIsSampledT : Obligations.TracePendingIsSampledT := by
  intro s t u i hbegin hi hexec
  obtain ⟨-, -, rfl, -⟩ := beginStep_run hbegin
  refine (exec_keepsTp hi hexec).imp_right fun ⟨e, pc, p, v, hinit⟩ => ?_
  obtain ⟨ht, htp⟩ := (initiate_next hinit).1.untraced
  exact ⟨htp, ht, e, pc, p, v, hinit⟩

end Sys2Proof.Machine
end

section
/-! SUPPORT. REI of a PSL that is not accepted, and BISPSW (43_trace.md R215, R218, R219): the mask ored into the PSL as a
longword, and the instruction from which a T that it sets is traced. -/

namespace Sys2Proof.Machine

open Sys2Proof

/-- REI of a PSL with a more privileged mode is backed up. -/
theorem returnFromException_of_morePrivileged {s : State} {newPc w : Longword} (hpc : s.readLong s.sp = .ok newPc)
    (hw : s.readLong (s.sp + 4) = .ok w) (h : morePrivileged (Psl.unpack w).cur s.psl.cur = true) :
    returnFromException s = .error (.fault .reservedOperand) := by
  simp only [returnFromException, hpc, hw, h, if_true]

/-- REI of a PSL with IS or IPL set, where the mode is acceptable, is refused. -/
theorem returnFromException_of_interruptState {s : State} {newPc w : Longword} (hpc : s.readLong s.sp = .ok newPc)
    (hw : s.readLong (s.sp + 4) = .ok w) (hmode : morePrivileged (Psl.unpack w).cur s.psl.cur = false)
    (h : (Psl.unpack w).is = true ∨ (Psl.unpack w).ipl ≠ 0) :
    returnFromException s = .error (.refused .reiInterruptState) := by
  have hrefused : ((Psl.unpack w).is || (Psl.unpack w).ipl != 0) = true := by simpa using h
  simp only [returnFromException, hpc, hw, hmode, hrefused, Bool.false_eq_true, if_false, if_true]

/-- Settles O24: both stops come after the reads and before the pops, and `conclude` raises the fault from the start. -/
theorem reiChecksSavedPsl : Obligations.ReiChecksSavedPsl := by
  intro s newPc w hpc hw
  refine ⟨fun hmode hcan => ?_, fun hmode hstate => ?_⟩
  · have hfault : exec .rei s = raiseFault .reservedOperand s :=
      congrArg (conclude s) (returnFromException_of_morePrivileged hpc hw hmode)
    rw [hfault]
    exact raiseFault_enters hcan
  · exact congrArg (conclude s) (returnFromException_of_interruptState hpc hw hmode hstate)

/-- A mask whose bits 15:8 are zero, ored into the PSW, is ored into the PSL as a longword: bit by bit in the low byte
(`pslLayout_pack`), and above it there is nothing to or. -/
theorem Psl.pack_orPsw (p : Psl) {mask : Word} (h : mask.extractLsb' 8 8 = 0#8) :
    (p.orPsw mask).pack = p.pack ||| mask.setWidth 32 := by
  have hlayout := pslLayout_pack p
  have hlayoutOr := pslLayout_pack (p.orPsw mask)
  have hhigh : (p.orPsw mask).highWord = p.highWord := rfl
  ext i hi
  simp only [← BitVec.getLsbD_eq_getElem, BitVec.getLsbD_or, BitVec.getLsbD_setWidth, hi, decide_true, Bool.true_and]
  by_cases hlow : i < 8
  · have hcases : i = 0 ∨ i = 1 ∨ i = 2 ∨ i = 3 ∨ i = 4 ∨ i = 5 ∨ i = 6 ∨ i = 7 := by omega
    obtain rfl | rfl | rfl | rfl | rfl | rfl | rfl | rfl := hcases
    · rw [hlayout.c, hlayoutOr.c]; rfl
    · rw [hlayout.v, hlayoutOr.v]; rfl
    · rw [hlayout.z, hlayoutOr.z]; rfl
    · rw [hlayout.n, hlayoutOr.n]; rfl
    · rw [hlayout.t, hlayoutOr.t]; rfl
    · rw [hlayout.iv, hlayoutOr.iv]; rfl
    · rw [hlayout.fu, hlayoutOr.fu]; rfl
    · rw [hlayout.dv, hlayoutOr.dv]; rfl
  · have hzero : mask.getLsbD i = false := by
      by_cases hin : i < 16
      · have hbit := congrArg (fun b => b.getLsbD (i - 8)) h
        simpa [BitVec.getLsbD_extractLsb', show i - 8 < 8 by omega, show 8 + (i - 8) = i by omega] using hbit
      · exact BitVec.getLsbD_of_ge mask i (by omega)
    rw [Psl.pack_getLsbD, Psl.pack_getLsbD, hhigh, if_neg hlow, if_neg hlow, hzero, Bool.or_false]

section

variable {mask : Specifier} {s : State} {a : Evaluated}

/-- BISPSW of a mask whose bits 15:8 are zero. -/
theorem exec_bispsw (ha : evalOperand readWord mask (addrAdd s.pc 1) s = .ok a) (h : a.word.extractLsb' 8 8 = 0#8) :
    exec (.bispsw mask) s = .next ((a.state.setPsl (s.psl.orPsw a.word)).setPc a.next) := by
  rw [← (evalOperand_ok ha).1.psl']
  simp [exec, execBispsw, bind_of_ok _ ha, h, conclude]

/-- BISPSW of a mask that has a bit of 15:8 set is backed up. -/
theorem exec_bispsw_of_reserved (ha : evalOperand readWord mask (addrAdd s.pc 1) s = .ok a)
    (h : a.word.extractLsb' 8 8 ≠ 0#8) : exec (.bispsw mask) s = raiseFault .reservedOperand s := by
  simp [exec, execBispsw, bind_of_ok _ ha, h, conclude_error, raiseStop]

end

/-- Settles O25: the next state is that of `exec_bispsw`, and its PSL as a longword is `Psl.pack_orPsw`. -/
theorem bispswSetsBits : Obligations.BispswSetsBits := by
  intro mask s a ha h
  have honly := (evalOperand_ok ha).1
  exact ⟨_, exec_bispsw ha h, rfl, Psl.pack_orPsw s.psl h, rfl, rfl, honly.mem', honly.staleCode', honly.setting,
    honly.draws'⟩

/-- Settles O26: the fault of `exec_bispsw_of_reserved` enters its routine. -/
theorem bispswReservedMask : Obligations.BispswReservedMask := by
  intro mask s a ha h hcan
  rw [exec_bispsw_of_reserved ha h]
  exact raiseFault_enters hcan

/-- Settles O27: BISPSW leaves TP as sampling made it, clear, and sets T; the next instruction samples T into TP and keeps it
(`exec_keepsTp`); the step after it takes the trace (`step_of_trace`). -/
theorem bispswTracesFromSecondInstruction : Obligations.BispswTracesFromSecondInstruction := by
  intro s t u v w mask a i hclear hbegin ha hzero hbit hexec
  obtain ⟨-, -, rfl, -⟩ := beginStep_run hbegin
  rw [exec_bispsw ha hzero] at hexec
  cases hexec
  have hset : (s.sampleTrace.afterFetch.psl.orPsw a.word).t = true := by simp [Psl.orPsw, hbit]
  refine ⟨hclear, hset, fun hnext hi hrun => ?_⟩
  obtain ⟨-, -, rfl, -⟩ := beginStep_run hnext
  refine (exec_keepsTp hi hrun).symm.imp_right fun htp => ?_
  have howed : w.psl.tp = true := htp.trans hset
  exact ⟨howed, fun hfetch => step_of_trace howed hfetch⟩

end Sys2Proof.Machine
end

section
/-! SUPPORT. The parts of a state that a call and its return look at: R0 to R13, the stack pointers, the status longword of a
frame (43_trace.md R216, R220, R222; log 33). -/

namespace Sys2Proof.Machine

open Sys2Proof

/-! Registers and stack pointers. -/

/-- R0 to R13 are read from the general registers alone. -/
theorem State.getReg_congr {s t : State} (h : t.regs = s.regs) {q : Reg} (hq : q.val < 14) : t.getReg q = s.getReg q := by
  simp only [State.getReg, dif_pos hq, h]

/-- The general registers are R0 to R13. -/
theorem State.regs_eq_of_getReg {s t : State} (h : ∀ q : Reg, q.val < 14 → t.getReg q = s.getReg q) : t.regs = s.regs := by
  refine Vector.ext fun i hi => ?_
  have hreg := h ⟨i, by omega⟩ hi
  simpa only [State.getReg, dif_pos hi] using hreg

theorem State.getReg_setSp (s : State) (v : Longword) {q : Reg} (hq : q.val < 14) : (s.setSp v).getReg q = s.getReg q :=
  State.getReg_congr (State.setSp_regs s v) hq

/-- The registers of a state in which a call or a return has written FP and AP, and then nothing but other fields. -/
theorem getReg_of_pointers_written {u w : State} {ap fp : Longword}
    (h : w.regs = ((u.setReg fpReg fp).setReg apReg ap).regs) :
    w.getReg apReg = ap ∧ w.getReg fpReg = fp ∧ ∀ q : Reg, q.val < 12 → w.getReg q = u.getReg q := by
  refine ⟨?_, ?_, fun q hq => ?_⟩
  · rw [State.getReg_congr h (by decide), State.getReg_setReg_same]
  · rw [State.getReg_congr h (by decide), State.getReg_setReg_other _ _ _ _ (by decide), State.getReg_setReg_same]
  · have hne : ∀ r : Reg, 12 ≤ r.val → q ≠ r := fun r hr heq => by rw [heq] at hq; omega
    rw [State.getReg_congr h (by omega), State.getReg_setReg_other _ _ _ _ (hne apReg (by decide)),
      State.getReg_setReg_other _ _ _ _ (hne fpReg (by decide))]

theorem reg_ofNat_val {i : Nat} (hi : i < 16) : (Fin.ofNat 16 i : Reg).val = i := Nat.mod_eq_of_lt hi

theorem State.setSp_setSp (s : State) (v w : Longword) : (s.setSp v).setSp w = s.setSp w :=
  congrArg (fun p => { s with sps := p }) (StackPointers.set_set s.sps s.psl.stack v w)

theorem StackPointers.eq_of_get {p q : StackPointers} (h : ∀ i, p.get i = q.get i) : p = q := by
  have hk := h .kernel
  have he := h .executive
  have hs := h .supervisor
  have hu := h .user
  have hi := h .interrupt
  cases p
  cases q
  simp only [StackPointers.get] at hk he hs hu hi
  simp only [hk, he, hs, hu, hi]

/-- The stack pointers of `t` are those of `s` but for the one in use. -/
theorem sps_eq_set {s t : State} {v : Longword} (hother : sameOtherStacks s t) (h : t.sps.get s.psl.stack = v) :
    t.sps = s.sps.set s.psl.stack v := by
  refine StackPointers.eq_of_get fun i => ?_
  by_cases hi : i = s.psl.stack
  · rw [hi, h, StackPointers.get_set_same]
  · rw [hother i hi, StackPointers.get_set_other _ _ _ _ hi]

/-- Aligning a stack pointer clears the two bits that the status longword saves. -/
theorem align_add_low (a : Longword) : (a &&& 0xFFFFFFFC) + (a.extractLsb' 0 2).setWidth 32 = a := by
  have hmask : ∀ i : Fin 32, (0xFFFFFFFC#32).getLsbD i = decide (2 ≤ i.val) := by decide
  have hhigh : ∀ i < 32, (a &&& 0xFFFFFFFC).getLsbD i = (a.getLsbD i && decide (2 ≤ i)) := fun i hi => by
    rw [BitVec.getLsbD_and]
    exact congrArg _ (hmask ⟨i, hi⟩)
  have hlow : ∀ i < 32, ((a.extractLsb' 0 2).setWidth 32).getLsbD i = (decide (i < 2) && a.getLsbD i) := fun i hi => by
    rw [BitVec.getLsbD_setWidth, BitVec.getLsbD_extractLsb', Nat.zero_add, decide_eq_true hi, Bool.true_and]
  have hdisjoint : (a &&& 0xFFFFFFFC) &&& (a.extractLsb' 0 2).setWidth 32 = 0#32 := by
    refine BitVec.eq_of_getLsbD_eq fun i hi => ?_
    rw [BitVec.getLsbD_and, hhigh i hi, hlow i hi, BitVec.getLsbD_zero]
    by_cases h2 : i < 2 <;> simp [h2]
  rw [BitVec.add_eq_or_of_and_eq_zero _ _ hdisjoint]
  refine BitVec.eq_of_getLsbD_eq fun i hi => ?_
  rw [BitVec.getLsbD_or, hhigh i hi, hlow i hi]
  by_cases h2 : i < 2
  · simp [h2]
  · simp [h2, show 2 ≤ i by omega]

/-! The registers of a mask. -/

/-- Masks that agree on bits 11:0 name the same registers. -/
theorem maskRegs_congr {m m' : Word} (h : ∀ i < 12, m.getLsbD i = m'.getLsbD i) : maskRegs m = maskRegs m' :=
  congrArg (List.map _) (List.filter_congr fun i hi => h i (List.mem_range.1 hi))

theorem maskRank_congr {m m' : Word} (h : ∀ i < 12, m.getLsbD i = m'.getLsbD i) {i : Nat} (hi : i ≤ 12) :
    maskRank m i = maskRank m' i :=
  congrArg List.length (List.filter_congr fun j hj => h j (Nat.lt_of_lt_of_le (List.mem_range.1 hj) hi))

/-- A register the mask names is at the place its rank says. -/
theorem maskRegs_getElem? {mask : Word} {i : Nat} (hi : i < 12) (hbit : mask.getLsbD i = true) :
    (maskRegs mask)[maskRank mask i]? = some (Fin.ofNat 16 i) := by
  have hsplit : List.range 12 = List.range i ++ (List.range (11 - i + 1)).map (i + ·) := by
    rw [← List.range_add, show i + (11 - i + 1) = 12 by omega]
  simp only [maskRegs, maskRank, hsplit, List.filter_append, List.map_append, List.range_succ_eq_map, List.map_cons,
    Nat.add_zero, List.filter_cons, hbit, if_true]
  rw [List.getElem?_append_right (by simp)]
  simp

/-- A mask names registers below R12. -/
theorem val_lt_of_mem_maskRegs {mask : Word} {q : Reg} (h : q ∈ maskRegs mask) : q.val < 12 := by
  simp only [maskRegs, List.mem_map, List.mem_filter, List.mem_range] at h
  obtain ⟨i, ⟨hi, -⟩, rfl⟩ := h
  rw [reg_ofNat_val (by omega)]
  exact hi

/-- A mask names at most 12 registers. -/
theorem maskRegs_length_le (mask : Word) : (maskRegs mask).length ≤ 12 := by
  rw [maskRegs, List.length_map]
  exact List.length_filter_le _ _

/-! The status longword, field by field. -/

/-- The status by its fields: the alignment, whether CALLS, bit 28, the mask, bits 15:8, DV, FU and IV, bits 4:0. -/
theorem callStatus_getLsbD (isCalls : Bool) (align : BitVec 2) (mask : Word) (p : Psl) (i : Nat) :
    (callStatus isCalls align mask p).getLsbD i =
      if i < 5 then false else if i < 8 then p.pack.getLsbD i else if i < 16 then false
      else if i < 28 then mask.getLsbD (i - 16) else if i = 28 then false else if i = 29 then isCalls
      else align.getLsbD (i - 30) := by
  simp only [callStatus, BitVec.getLsbD_append, Psl.pack_getLsbD, BitVec.getLsbD_extractLsb', BitVec.getLsbD_ofBool,
    Nat.sub_sub]
  by_cases h5 : i < 5
  · simp [h5]
  by_cases h8 : i < 8
  · simp [h5, h8, show i - 5 < 3 by omega, show 5 + (i - 5) = i by omega]
  by_cases h16 : i < 16
  · simp [h5, h8, h16, show ¬ i - 5 < 3 by omega, show i - 8 < 8 by omega]
  by_cases h28 : i < 28
  · simp [h5, h8, h16, h28, show ¬ i - 5 < 3 by omega, show ¬ i - 8 < 8 by omega, show i - 16 < 12 by omega]
  by_cases h30 : i < 30
  · obtain rfl | rfl : i = 28 ∨ i = 29 := by omega
    · rfl
    · simp
  · simp [h5, h8, h16, h28, show ¬ i - 5 < 3 by omega, show ¬ i - 8 < 8 by omega, show ¬ i - 16 < 12 by omega,
      show ¬ i - 28 < 1 by omega, show ¬ i - 29 < 1 by omega, show i ≠ 28 by omega, show i ≠ 29 by omega]

section

variable (isCalls : Bool) (align : BitVec 2) (mask : Word) (p : Psl)

/-- RET accepts the status of a call: bits 15:8 and bit 28 are zero. -/
theorem callStatus_reserved : (callStatus isCalls align mask p).extractLsb' 8 8 = 0#8 ∧
    (callStatus isCalls align mask p).getLsbD 28 = false := by
  refine ⟨BitVec.eq_of_getLsbD_eq fun i hi => ?_, ?_⟩
  · rw [BitVec.getLsbD_extractLsb', callStatus_getLsbD]
    simp [show ¬ 8 + i < 5 by omega, show 8 + i < 16 by omega]
  · rw [callStatus_getLsbD]
    rfl

theorem callStatus_isCalls : (callStatus isCalls align mask p).getLsbD 29 = isCalls := by
  rw [callStatus_getLsbD]
  rfl

theorem callStatus_align : (callStatus isCalls align mask p).extractLsb' 30 2 = align := by
  refine BitVec.eq_of_getLsbD_eq fun i hi => ?_
  rw [BitVec.getLsbD_extractLsb', callStatus_getLsbD]
  simp [hi, show ¬ 30 + i < 5 by omega, show ¬ 30 + i < 8 by omega, show ¬ 30 + i < 16 by omega,
    show ¬ 30 + i < 28 by omega, show 30 + i ≠ 28 by omega, show 30 + i ≠ 29 by omega]

/-- The saved mask names the registers of the entry mask. -/
theorem callStatus_mask {i : Nat} (hi : i < 12) :
    (((callStatus isCalls align mask p).extractLsb' 16 12).setWidth 16).getLsbD i = mask.getLsbD i := by
  rw [BitVec.getLsbD_setWidth, BitVec.getLsbD_extractLsb', callStatus_getLsbD]
  simp [hi, show i < 16 by omega, show ¬ 16 + i < 5 by omega, show ¬ 16 + i < 8 by omega, show 16 + i < 28 by omega]

/-- The PSW that RET takes from the status of a call: IV, FU and DV of the caller, T and the condition codes clear. -/
theorem withPsw_callStatus (q : Psl) :
    q.withPsw ((callStatus isCalls align mask p).setWidth 16) =
      { q with c := false, v := false, z := false, n := false, t := false, iv := p.iv, fu := p.fu, dv := p.dv } := by
  have hbit : ∀ i, i < 16 → ((callStatus isCalls align mask p).setWidth 16).getLsbD i =
      if i < 5 then false else if i < 8 then p.pack.getLsbD i else false := fun i hi => by
    rw [BitVec.getLsbD_setWidth, callStatus_getLsbD, if_pos hi, decide_eq_true hi, Bool.true_and]
  have hlayout := pslLayout_pack p
  simp only [Psl.withPsw, hbit, Nat.reduceLT, if_true, if_false, hlayout.iv, hlayout.fu, hlayout.dv]

end

/-- Settles O51: bit 4 of the status is one of its zeros (`callStatus_getLsbD`), and RET takes T from it. -/
theorem callSavesClearTrace : Obligations.CallSavesClearTrace := by
  intro isCalls align mask p q
  refine ⟨?_, rfl, ?_⟩
  · rw [callStatus_getLsbD]
    rfl
  · rw [withPsw_callStatus]

end Sys2Proof.Machine
end

section
/-! SUPPORT. CALLG and CALLS (43_trace.md R216, R220, R221; the frame is log 33): the frame is pushed as one list of longwords, and
the procedure is entered with the stack pointer at its lowest address. -/

namespace Sys2Proof.Machine

open Sys2Proof

theorem callFrame_length (isCalls : Bool) (mask : Word) (next : Longword) (s : State) :
    (callFrame isCalls mask next s).length = 5 + (maskRegs mask).length := by
  simp only [callFrame, List.length_append, List.length_cons, List.length_nil, List.length_map]

/-- The state in which a procedure begins once its frame has been pushed. -/
def enterProcedure (ap dst : Longword) (mask : Word) (p : Psl) (framed : State) : State :=
  (((framed.setReg fpReg framed.sp).setReg apReg ap).setPsl (procedurePsl mask p)).setPc (addrAdd dst 2)

/-- A procedure call pushes its frame, the highest longword first, and enters the procedure. -/
theorem callProcedure_of_pushAll {isCalls : Bool} {ap dst next : Longword} {mask : Word} {s framed : State}
    (h : pushAll (callFrame isCalls mask next s).reverse (s.setSp (s.sp &&& 0xFFFFFFFC)) = .ok framed) :
    callProcedure isCalls ap dst next mask s = .ok (.done (enterProcedure ap dst mask s.psl framed)) := by
  have hpushed : (callFrame isCalls mask next s).reverse =
      (pushedRegs mask 12).map (s.setSp (s.sp &&& 0xFFFFFFFC)).getReg ++
        [next, s.getReg fpReg, s.getReg apReg, callStatus isCalls (s.sp.extractLsb' 0 2) mask s.psl, 0] := by
    have hregs : (pushedRegs mask 12).map (s.setSp (s.sp &&& 0xFFFFFFFC)).getReg =
        ((maskRegs mask).map s.getReg).reverse := by
      rw [pushedRegs_eq, List.map_reverse]
      refine congrArg List.reverse (List.map_congr_left fun q hq => State.getReg_setSp s _ ?_)
      exact Nat.lt_trans (val_lt_of_mem_maskRegs hq) (by decide)
    rw [hregs, callFrame, List.reverse_append]
    rfl
  rw [hpushed, pushAll_append] at h
  rw [callProcedure, pushRegisters_eq mask 12 le_rfl]
  cases hsaved : pushAll ((pushedRegs mask 12).map (s.setSp (s.sp &&& 0xFFFFFFFC)).getReg)
      (s.setSp (s.sp &&& 0xFFFFFFFC)) with
  | error e => rw [hsaved] at h; cases h
  | ok saved =>
    rw [hsaved] at h
    exact (bind_of_ok _ rfl).trans ((bind_of_ok _ h).trans rfl)

/-- A procedure entered on a frame that holds what a call pushes; the frame is the memory that changes. -/
structure calledWithFrame (isCalls : Bool) (ap dst next : Longword) (mask : Word) (s t : State) : Prop where
  called : calledFrom ap dst mask s t
  outside : memorySameOutside s.psl.cur (callBottom mask s) (4 * (5 + (maskRegs mask).length)) s t
  contents : s.wf → s.separate s.psl.cur (callBottom mask s) (4 * (5 + (maskRegs mask).length)) →
    memoryHolds s.psl.cur (callBottom mask s) ((callFrame isCalls mask next s).flatMap fun v => leBytes 4 v.toNat) s t

/-- What a procedure begins with: the frame's address in FP and SP, the argument list in AP, every other register and the
setting as they were. -/
theorem calledFrom_of_pushed {ap dst : Longword} {mask : Word} {s framed : State} (hregs : framed.regs = s.regs)
    (hsps : framed.sps = s.sps.set s.psl.stack (callBottom mask s)) (hpsl : framed.psl = s.psl)
    (hsetting : sameSetting s framed) (hdraws : framed.draws = s.draws) :
    calledFrom ap dst mask s (enterProcedure ap dst mask s.psl framed) := by
  have hsp : framed.sp = callBottom mask s := by
    rw [State.sp, hsps, hpsl, StackPointers.get_set_same]
  obtain ⟨hap, hfp, hlow⟩ := getReg_of_pointers_written (w := enterProcedure ap dst mask s.psl framed) (u := framed) rfl
  have hsps' : (enterProcedure ap dst mask s.psl framed).sps = s.sps.set s.psl.stack (callBottom mask s) := hsps
  refine ⟨rfl, rfl, hap, hfp.trans hsp, ?_, fun q hq => ?_, fun i hi => ?_, hsetting, hdraws⟩
  · rw [State.sp, hsps']
    exact StackPointers.get_set_same s.sps s.psl.stack _
  · rw [hlow q hq, State.getReg_congr hregs (by omega)]
  · rw [hsps']
    exact StackPointers.get_set_other _ _ _ _ hi

/-- Where its frame can be written, a procedure call enters the procedure on it. -/
theorem callProcedure_of_canWrite {mask : Word} {s : State} (isCalls : Bool) (ap dst next : Longword)
    (h : s.canWrite s.psl.cur (callBottom mask s) (4 * (5 + (maskRegs mask).length))) :
    ∃ t, callProcedure isCalls ap dst next mask s = .ok (.done t) ∧ calledWithFrame isCalls ap dst next mask s t := by
  have hlen : (callFrame isCalls mask next s).reverse.length = 5 + (maskRegs mask).length := by
    rw [List.length_reverse, callFrame_length]
  obtain ⟨framed, hframed⟩ := (pushAll_ok_iff (callFrame isCalls mask next s).reverse (s.setSp (s.sp &&& 0xFFFFFFFC))).2
    (by rw [hlen, State.setSp_sp]; exact h)
  obtain ⟨heq, -, houtside, hholds⟩ := pushAll_spec hframed
  rw [hlen, State.setSp_sp] at heq houtside hholds
  rw [frameBytes, List.reverse_reverse] at hholds
  refine ⟨_, callProcedure_of_pushAll hframed, calledFrom_of_pushed ?_ ?_ ?_ ?_ ?_, houtside, hholds⟩
  · rw [heq]; rfl
  · rw [heq]; exact StackPointers.set_set _ _ _ _
  · rw [heq]; rfl
  · rw [heq]; exact ⟨rfl, rfl, rfl⟩
  · rw [heq]; rfl

/-- CALLG where its frame can be written. -/
theorem exec_callg_of_canWrite {x dst : Specifier} {s : State} {a d : Evaluated} {mask : Word}
    (ha : evalOperand addressByte x (addrAdd s.pc 1) s = .ok a) (hd : evalOperand addressByte dst a.next a.state = .ok d)
    (hmask : d.state.readWord d.long = .ok mask) (hclear : mask.extractLsb' 12 2 = 0#2)
    (h : d.state.canWrite d.state.psl.cur (callBottom mask d.state) (4 * (5 + (maskRegs mask).length))) :
    ∃ t, exec (.callg x dst) s = .next t ∧ calledWithFrame false a.long d.long d.next mask d.state t := by
  obtain ⟨t, hcall, hentered⟩ := callProcedure_of_canWrite false a.long d.long d.next h
  refine ⟨t, ?_, hentered⟩
  rw [exec_callg ha hd, bind_of_ok _ (entryMask_of_ok hmask hclear), hcall]
  rfl

/-- Settles O49: the frame is pushed on the state the operands leave, which differs from the start in registers alone. -/
theorem callgEnters : Obligations.CallgEnters := by
  intro x dst s a d mask ha hd hmask hclear hcan
  have honly := (evalOperand_ok ha).1.trans' (evalOperand_ok hd).1
  rw [← honly.psl'] at hcan ⊢
  obtain ⟨t, hexec, hentered⟩ := exec_callg_of_canWrite ha hd hmask hclear hcan
  refine ⟨t, hexec, hentered.called, by rw [hentered.called.psl], hentered.outside, fun hw hseparate => ?_⟩
  refine hentered.contents (honly.wf' hw) ?_
  rwa [State.separate, State.physical_congr honly.translation']

/-! CALLS. -/

/-- Of the state a procedure is called from, registers, PSL and setting count, not memory. -/
theorem calledFrom.congr {ap dst : Longword} {mask : Word} {s s' t : State} (h : calledFrom ap dst mask s' t)
    (heq : s' = { s with mem := s'.mem, staleCode := s'.staleCode }) : calledFrom ap dst mask s t := by
  rw [heq] at h
  exact ⟨h.pc, h.psl, h.argumentPointer, h.framePointer, h.stackPointer, h.registers, h.otherStacks, h.setting, h.draws⟩

/-- Where bytes are held depends on the page table alone. -/
theorem memoryHolds_congr {s s' t : State} (h : s'.translation = s.translation) (m : Mode) (va : Longword) (bs : List Byte) :
    memoryHolds m va bs s' t ↔ memoryHolds m va bs s t := by
  rw [memoryHolds, memoryHolds, State.physical_congr h]

/-- The frame of a call ends below the longword that the stack pointer points to. -/
theorem callBottom_disjoint (mask : Word) (s : State) {i j : Nat} (hi : i < 4)
    (hj : j < 4 * (5 + (maskRegs mask).length)) : addrAdd s.sp i ≠ addrAdd (callBottom mask s) j := by
  have hlen := maskRegs_length_le mask
  have halign := align_add_low s.sp
  have hlow : ((s.sp.extractLsb' 0 2).setWidth 32).toNat < 4 := by
    rw [BitVec.toNat_setWidth]
    have := (s.sp.extractLsb' 0 2).isLt
    omega
  rw [callBottom]
  generalize s.sp &&& 0xFFFFFFFC = aligned at *
  generalize (s.sp.extractLsb' 0 2).setWidth 32 = low at *
  generalize (maskRegs mask).length = n at *
  rw [← halign]
  simp only [addrAdd]
  intro heq
  have := congrArg BitVec.toNat heq
  simp only [BitVec.toNat_add, BitVec.toNat_sub, BitVec.toNat_ofNat] at this
  omega

/-- What CALLS leaves: the procedure entered from the state with the count pushed, memory changed in the count and the frame
alone, and where every address translates to itself both held. -/
theorem exec_calls_of_canWrite {x dst : Specifier} {s : State} {a d : Evaluated} {mask : Word} {counted : State}
    (ha : evalOperand readLong x (addrAdd s.pc 1) s = .ok a) (hd : evalOperand addressByte dst a.next a.state = .ok d)
    (hmask : d.state.readWord d.long = .ok mask) (hclear : mask.extractLsb' 12 2 = 0#2)
    (hcounted : counted = d.state.setSp (d.state.sp - 4))
    (hcount : d.state.canWrite d.state.psl.cur (d.state.sp - 4) 4)
    (hframe : d.state.canWrite d.state.psl.cur (callBottom mask counted) (4 * (5 + (maskRegs mask).length))) :
    ∃ t, exec (.calls x dst) s = .next t ∧ calledFrom (d.state.sp - 4) d.long mask counted t ∧
      (∀ pa, (∀ i < 4, d.state.physical d.state.psl.cur .write (addrAdd (d.state.sp - 4) i) ≠ .ok pa) →
        (∀ i < 4 * (5 + (maskRegs mask).length),
          d.state.physical d.state.psl.cur .write (addrAdd (callBottom mask counted) i) ≠ .ok pa) →
        t.physicalByte pa = d.state.physicalByte pa) ∧
      (d.state.wf → d.state.flat →
        memoryHolds d.state.psl.cur (d.state.sp - 4) (leBytes 4 a.long.toNat) d.state t ∧
        memoryHolds d.state.psl.cur (callBottom mask counted)
          ((callFrame true mask d.next counted).flatMap fun v => leBytes 4 v.toNat) d.state t) := by
  obtain ⟨pushed, hpush⟩ := (State.push_ok_iff d.state a.long).2 hcount
  obtain ⟨heq, hwf, hpushOutside, hpushHolds⟩ := State.push_spec hpush
  have hpushed : pushed = { counted with mem := pushed.mem, staleCode := pushed.staleCode } := by rw [hcounted, heq]; rfl
  have htranslation : pushed.translation = d.state.translation := by rw [heq]
  have hcur : pushed.psl.cur = d.state.psl.cur := by rw [heq]
  have hsp : pushed.sp = d.state.sp - 4 := by rw [heq]; exact StackPointers.get_set_same _ _ _
  have hbottom : callBottom mask pushed = callBottom mask counted := by rw [hpushed]; rfl
  have hcontents : callFrame true mask d.next pushed = callFrame true mask d.next counted := by rw [hpushed]; rfl
  have hcan : pushed.canWrite pushed.psl.cur (callBottom mask pushed) (4 * (5 + (maskRegs mask).length)) := by
    rwa [hbottom, hcur, State.canWrite_congr htranslation]
  obtain ⟨t, hcall, hcalled, houtside, hholds⟩ := callProcedure_of_canWrite true pushed.sp d.long d.next hcan
  have hexec : exec (.calls x dst) s = .next t := by
    rw [exec_calls ha hd, bind_of_ok _ (entryMask_of_ok hmask hclear), bind_of_ok _ hpush, hcall]
    rfl
  have hlen := maskRegs_length_le mask
  refine ⟨t, hexec, hsp ▸ hcalled.congr hpushed, fun pa hoff hoff' => ?_, fun hw hflat => ⟨fun i hi pa hpa => ?_, ?_⟩⟩
  · rw [← hpushOutside pa hoff]
    refine houtside pa ?_
    rwa [hcur, hbottom, State.physical_congr htranslation]
  · rw [← hpushHolds hw (State.separate_flat hflat _ _ _ (by decide)) i hi pa hpa]
    refine houtside pa fun j hj hpa' => ?_
    have hflat' : pushed.flat := htranslation.trans hflat
    rw [State.physical_flat hflat] at hpa
    rw [State.physical_flat hflat', ← hpa, ← hsp] at hpa'
    exact callBottom_disjoint mask pushed hi hj (Except.ok.inj hpa').symm
  · rw [← memoryHolds_congr htranslation, ← hcur, ← hbottom, ← hcontents]
    exact hholds (hwf hw) (State.separate_flat (htranslation.trans hflat) _ _ _ (by omega))

/-- Settles O50: the operands have changed registers alone, so that what `exec_calls_of_canWrite` says of the state they leave
holds of the start. -/
theorem callsEnters : Obligations.CallsEnters := by
  intro x dst s a d mask ha hd hmask hclear hcount hcan
  have honly := (evalOperand_ok ha).1.trans' (evalOperand_ok hd).1
  rw [← honly.psl'] at hcount hcan ⊢
  obtain ⟨t, hexec, hcalled, houtside, hholds⟩ := exec_calls_of_canWrite ha hd hmask hclear rfl hcount hcan
  rw [State.physical_congr honly.translation'] at houtside
  refine ⟨t, hexec, hcalled, by rw [hcalled.psl]; rfl, fun pa hoff hoff' => ?_, fun hw hflat => ?_⟩
  · rw [houtside pa hoff hoff', State.physicalByte, State.physicalByte, honly.mem']
  · rw [← memoryHolds_congr honly.translation', ← memoryHolds_congr honly.translation']
    exact hholds (honly.wf' hw) (honly.translation'.trans hflat)

end Sys2Proof.Machine
end

section
/-! SUPPORT. RET (43_trace.md R222; the frame is log 34): its pops, one after another, each where the longword at the stack pointer
can be read; a pop changes registers alone, so that every read is one of the state RET began in. -/

namespace Sys2Proof.Machine

open Sys2Proof

/-- Bytes that can be read can be read in parts. -/
theorem State.canRead_add {s : State} {m : Mode} {va : Longword} {a b : Nat} (h : s.canRead m va (a + b)) :
    s.canRead m va a ∧ s.canRead m (addrAdd va a) b := by
  refine ⟨fun i hi => h i (Nat.lt_of_lt_of_le hi (Nat.le_add_right a b)), fun i hi => ?_⟩
  rw [addrAdd, addrAdd, BitVec.add_assoc, ← BitVec.ofNat_add]
  exact h (a + i) (Nat.add_lt_add_left hi a)

theorem State.readLong_of_canRead {s : State} {va : Longword} (h : s.canRead s.psl.cur va 4) :
    ∃ v, s.readLong va = .ok v := by
  obtain ⟨bs, hbs⟩ := (State.readBytes_ok_iff s s.psl.cur 4 va).2 h
  exact ⟨leLong bs, by rw [State.readLong, hbs]; rfl⟩

/-- A pop where registers alone have changed reads a longword of the start. -/
theorem State.pop_of_onlyRegisters {s u : State} {a v : Longword} (hu : onlyRegisters s u) (hsp : u.sp = a)
    (h : s.readLong a = .ok v) : u.pop = .ok (v, u.setSp (a + 4)) := by
  subst hsp
  exact State.pop_of_readLong ((readLong_congr hu _).trans h)

/-- A register other than the stack pointer, once popped, leaves the stack pointer where the pop has moved it. -/
theorem State.setSp_setReg_sp (u : State) (a v : Longword) {r : Reg} (h : r.val ≠ 14) : ((u.setSp a).setReg r v).sp = a := by
  rw [State.sp, State.setReg_sps _ _ _ h, State.setReg_psl]
  exact State.setSp_sp u a

theorem maskRank_eq_maskCount (mask : Word) (i : Nat) : maskRank mask i = maskCount mask i 0 := by
  rw [maskRank, maskCount, List.range_eq_range']

/-- `w` is `u` with the registers that a mask names among R`i` to R`(i+n-1)` popped, the lowest first. -/
structure poppedFrom (mask : Word) (n i : Nat) (u w : State) : Prop where
  only : onlyRegisters u w
  sp : w.sp = u.sp + BitVec.ofNat 32 (4 * maskCount mask n i)
  otherStacks : sameOtherStacks u w
  named : ∀ k < n, mask.getLsbD (i + k) = true →
    u.readLong (u.sp + BitVec.ofNat 32 (4 * maskCount mask k i)) = .ok (w.getReg (Fin.ofNat 16 (i + k)))
  kept : ∀ q : Reg, q.val < 14 → (q.val < i ∨ i + n ≤ q.val ∨ mask.getLsbD q.val = false) → w.getReg q = u.getReg q

/-- A register popped, then the pops after it. -/
theorem poppedFrom_named {mask : Word} {n i : Nat} {u w : State} {v : Longword} (hi : i < 12)
    (hbit : mask.getLsbD i = true) (hv : u.readLong u.sp = .ok v)
    (h : poppedFrom mask n (i + 1) ((u.setSp (u.sp + 4)).setReg (Fin.ofNat 16 i) v) w) :
    poppedFrom mask (n + 1) i u w := by
  have hval : (Fin.ofNat 16 i : Reg).val = i := reg_ofNat_val (by omega)
  generalize hr : (Fin.ofNat 16 i : Reg) = r at h hval
  have hne : r ≠ 15 := Fin.ne_of_lt (Nat.lt_trans (hval ▸ hi) (by decide))
  obtain ⟨honly, hsp, hother, hnamed, hkept⟩ := h
  have hu : onlyRegisters u ((u.setSp (u.sp + 4)).setReg r v) :=
    (onlyRegisters_setSp u _).trans' (onlyRegisters_setReg _ r v hne)
  rw [State.setSp_setReg_sp _ _ _ (by omega)] at hsp hnamed
  have hcount : ∀ k, maskCount mask (k + 1) i = maskCount mask k (i + 1) + 1 := fun k => by
    rw [maskCount_succ, if_pos hbit]
  refine ⟨hu.trans' honly, by rw [hsp, hcount, add_four_mul_succ], fun j hj => ?_, fun k hk hk' => ?_, fun q hq hout => ?_⟩
  · rw [hother j (by rwa [hu.psl']), State.setReg_sps _ _ _ (by omega)]
    exact StackPointers.get_set_other _ _ _ _ hj
  · cases k with
    | zero =>
      have hfirst := hkept r (by omega) (.inl (by omega))
      rw [State.getReg_setReg_same] at hfirst
      rw [Nat.add_zero, hr, hfirst, ← hv]
      exact congrArg u.readLong (BitVec.add_zero u.sp)
    | succ k =>
      have hindex : i + (k + 1) = i + 1 + k := by omega
      rw [hindex] at hk' ⊢
      rw [hcount, add_four_mul_succ, ← readLong_congr hu]
      exact hnamed k (by omega) hk'
  · have hqr : q ≠ r := by
      intro heq
      rw [heq, hval, hbit] at hout
      obtain hlt | hle | hclear := hout
      · omega
      · omega
      · cases hclear
    have hout' := hout.imp (fun h => Nat.lt_succ_of_lt h) (Or.imp_left fun h => (by omega : i + 1 + n ≤ q.val))
    rw [hkept q hq hout', State.getReg_setReg_other _ _ _ _ hqr, State.getReg_setSp _ _ hq]

/-- A register that the mask does not name is passed over. -/
theorem poppedFrom_unnamed {mask : Word} {n i : Nat} {u w : State} (hbit : mask.getLsbD i = false)
    (h : poppedFrom mask n (i + 1) u w) : poppedFrom mask (n + 1) i u w := by
  obtain ⟨honly, hsp, hother, hnamed, hkept⟩ := h
  have hcount : ∀ k, maskCount mask (k + 1) i = maskCount mask k (i + 1) := fun k => by
    rw [maskCount_succ, hbit]
    rfl
  refine ⟨honly, by rw [hsp, hcount], hother, fun k hk hk' => ?_, fun q hq hout => hkept q hq ?_⟩
  · cases k with
    | zero => rw [Nat.add_zero, hbit] at hk'; cases hk'
    | succ k =>
      have hindex : i + (k + 1) = i + 1 + k := by omega
      rw [hindex] at hk' ⊢
      rw [hcount]
      exact hnamed k (by omega) hk'
  · exact hout.imp (fun h => Nat.lt_succ_of_lt h) (Or.imp_left fun h => by omega)

/-- Where the longwords of the registers can be read, the registers are popped. -/
theorem popRegisters_of_canRead {mask : Word} {n i : Nat} {u : State} (hin : i + n ≤ 12)
    (h : u.canRead u.psl.cur u.sp (4 * maskCount mask n i)) :
    ∃ w, popRegisters mask n i u = .ok w ∧ poppedFrom mask n i u w := by
  induction n generalizing u i with
  | zero =>
    exact ⟨u, rfl, onlyRegisters.refl' u, (BitVec.add_zero u.sp).symm, fun _ _ => rfl,
      fun k hk => absurd hk (Nat.not_lt_zero k), fun _ _ _ => rfl⟩
  | succ n ih =>
    rw [maskCount_succ] at h
    cases hbit : mask.getLsbD i with
    | true =>
      rw [hbit, if_pos rfl, Nat.mul_succ, Nat.add_comm] at h
      obtain ⟨hfirst, hlater⟩ := State.canRead_add h
      obtain ⟨v, hv⟩ := State.readLong_of_canRead hfirst
      have hval : (Fin.ofNat 16 i : Reg).val = i := reg_ofNat_val (by omega)
      obtain ⟨w, hw, hpopped⟩ := ih (i := i + 1) (u := (u.setSp (u.sp + 4)).setReg (Fin.ofNat 16 i) v) (by omega) (by
        rw [State.setSp_setReg_sp _ _ _ (by omega), State.setReg_psl]
        exact (State.canRead_congr (s := u) (by rw [State.setReg_translation]; rfl) _ _ _).2 hlater)
      refine ⟨w, ?_, poppedFrom_named (by omega) hbit hv hpopped⟩
      rw [popRegisters, if_pos hbit, State.pop_of_readLong hv]
      exact hw
    | false =>
      rw [hbit] at h
      obtain ⟨w, hw, hpopped⟩ := ih (i := i + 1) (by omega) h
      exact ⟨w, (popRegisters_unnamed (by simp [hbit]) n u).trans hw, poppedFrom_unnamed hbit hpopped⟩

/-- The registers of a mask popped from the longwords at `a` up. -/
theorem popRegisters_from {mask : Word} {s : State} {a : Longword}
    (h : s.canRead s.psl.cur a (4 * (maskRegs mask).length)) :
    ∃ w, popRegisters mask 12 0 (s.setSp a) = .ok w ∧ onlyRegisters s w ∧
      w.sp = a + BitVec.ofNat 32 (4 * (maskRegs mask).length) ∧ sameOtherStacks s w ∧
      ∀ i < 12, if mask.getLsbD i then
          s.readLong (a + BitVec.ofNat 32 (4 * maskRank mask i)) = .ok (w.getReg (Fin.ofNat 16 i))
        else w.getReg (Fin.ofNat 16 i) = s.getReg (Fin.ofNat 16 i) := by
  have hsp : (s.setSp a).sp = a := State.setSp_sp s a
  have honly0 := onlyRegisters_setSp s a
  obtain ⟨w, hw, honly, hwsp, hother, hnamed, hkept⟩ :=
    popRegisters_of_canRead (mask := mask) (n := 12) (i := 0) (u := s.setSp a) (by decide)
      (by rw [hsp, maskCount_eq]; exact h)
  rw [hsp, maskCount_eq] at hwsp
  refine ⟨w, hw, honly0.trans' honly, hwsp, fun j hj => ?_, fun i hi => ?_⟩
  · rw [hother j hj]
    exact StackPointers.get_set_other _ _ _ _ hj
  · have hval : (Fin.ofNat 16 i : Reg).val = i := reg_ofNat_val (by omega)
    split
    next hbit =>
      have hread := hnamed i hi (by rwa [Nat.zero_add])
      rwa [hsp, Nat.zero_add, ← maskRank_eq_maskCount, readLong_congr honly0] at hread
    next hbit =>
      rw [hkept _ (by omega) (.inr (.inr (by rw [hval]; simpa using hbit))), State.getReg_setSp s a (by omega)]

/-- The argument list of a CALLS frame removed. -/
theorem removeArguments_of_readLong {s u : State} {a count : Longword} (hu : onlyRegisters s u)
    (h : s.readLong a = .ok count) :
    removeArguments (u.setSp a) = .ok (u.setSp (a + 4 + 4 * (count.extractLsb' 0 8).setWidth 32)) := by
  rw [removeArguments, State.pop_of_onlyRegisters (hu.trans' (onlyRegisters_setSp u a)) (State.setSp_sp u a) h]
  simp only [State.setSp_sp, State.setSp_setSp]

/-- The state RET ends in, once the registers of the mask are popped and the stack pointer is past the frame. -/
def returnTo (status ap fp pc : Longword) (u : State) : State :=
  (((u.setReg fpReg fp).setReg apReg ap).setPsl (u.psl.withPsw (status.setWidth 16))).setPc pc

/-- What RET answers where its reads can be made: `popped` is the state with the registers of the mask popped, `base` the stack
pointer once the alignment is undone. -/
theorem exec_ret_of_popped {s popped : State} {f status ap fp pc base count : Longword} (hf : s.getReg fpReg = f)
    (hstatus : s.readLong (f + 4) = .ok status) (hap : s.readLong (f + 8) = .ok ap) (hfp : s.readLong (f + 12) = .ok fp)
    (hpc : s.readLong (f + 16) = .ok pc) (hok : acceptableStatus status = true)
    (hpopped : popRegisters ((status.extractLsb' 16 12).setWidth 16) 12 0 (s.setSp (f + 20)) = .ok popped)
    (hbase : popped.sp + (status.extractLsb' 30 2).setWidth 32 = base)
    (honly : onlyRegisters s popped) (hcount : status.getLsbD 29 = true → s.readLong base = .ok count) :
    exec .ret s = .next (returnTo status ap fp pc
      (popped.setSp (if status.getLsbD 29 then base + 4 + 4 * (count.extractLsb' 0 8).setWidth 32 else base))) := by
  have hpop : ∀ {a v : Longword}, s.readLong a = .ok v → (s.setSp a).pop = .ok (v, s.setSp (a + 4)) := fun h => by
    rw [State.pop_of_onlyRegisters (onlyRegisters_setSp s _) (State.setSp_sp s _) h, State.setSp_setSp]
  have h8 : f + 4 + 4 = f + 8 := BitVec.add_assoc f 4 4
  have h12 : f + 8 + 4 = f + 12 := BitVec.add_assoc f 8 4
  have h16 : f + 12 + 4 = f + 16 := BitVec.add_assoc f 12 4
  have h20 : f + 16 + 4 = f + 20 := BitVec.add_assoc f 16 4
  have hstatus' := hpop hstatus
  have hap' := hpop hap
  have hfp' := hpop hfp
  have hpc' := hpop hpc
  rw [h8] at hstatus'
  rw [h12] at hap'
  rw [h16] at hfp'
  rw [h20] at hpc'
  subst hf hbase
  refine (congrArg (conclude s) (bind_of_ok _ hstatus')).trans ?_
  simp only [hok, Bool.not_true, Bool.false_eq_true, if_false]
  refine (congrArg (conclude s) ((bind_of_ok _ hap').trans ((bind_of_ok _ hfp').trans ((bind_of_ok _ hpc').trans
    (bind_of_ok _ hpopped))))).trans ?_
  cases hcalls : status.getLsbD 29 with
  | true =>
    simp only [if_true]
    rw [bind_of_ok _ (removeArguments_of_readLong honly (hcount hcalls))]
    rfl
  | false => rfl

/-- Settles O53: the pops answer (`exec_ret_of_popped`), each register is the longword that `popRegisters_from` says, and nothing
but registers and the PSL is written. -/
theorem retReturns : Obligations.RetReturns := by
  intro s status ap fp pc base count mask hstatus hap hfp hpc hclear h28 hmask hcan hbase hcount
  generalize hf : s.getReg fpReg = f at *
  obtain ⟨popped, hpopped, honly, hpoppedSp, hother, hregs⟩ := popRegisters_from hcan
  have hexec := exec_ret_of_popped hf hstatus hap hfp hpc (acceptableStatus_of_clear hclear h28) (hmask ▸ hpopped)
    (by rw [hpoppedSp, hbase]) honly hcount
  generalize (if status.getLsbD 29 then base + 4 + 4 * (count.extractLsb' 0 8).setWidth 32 else base) = sp at hexec ⊢
  obtain ⟨hapReg, hfpReg, hreturned⟩ := getReg_of_pointers_written (u := popped.setSp sp)
    (w := returnTo status ap fp pc (popped.setSp sp)) rfl
  have hpsl : (returnTo status ap fp pc (popped.setSp sp)).psl = s.psl.withPsw (status.setWidth 16) := by
    rw [← honly.psl']
    rfl
  have hsps : (returnTo status ap fp pc (popped.setSp sp)).sps = popped.sps.set s.psl.stack sp := by
    rw [← honly.psl']
    rfl
  refine ⟨_, hexec, rfl, hapReg, hfpReg, fun i hi => ?_, ?_, hpsl, fun j hj => ?_, honly.mem', honly.staleCode',
    honly.setting, honly.draws'⟩
  · have hval : (Fin.ofNat 16 i : Reg).val = i := reg_ofNat_val (by omega)
    rw [hreturned _ (by omega), State.getReg_setSp _ _ (by omega)]
    exact hregs i hi
  · rw [State.sp, hsps, hpsl]
    exact StackPointers.get_set_same _ _ _
  · rw [hsps, StackPointers.get_set_other _ _ _ _ hj, hother j hj]

end Sys2Proof.Machine
end

section
/-! SUPPORT. RET at a procedure's entry (43_trace.md R216, R220 to R222; log 33, 34): where every address translates to itself it reads
back the frame that the call has pushed. -/

namespace Sys2Proof.Machine

open Sys2Proof

/-- Byte `i` of longword `k` of a list of longwords. -/
theorem longwordBytes_getElem? {vs : List Longword} {k i : Nat} {v : Longword} (hk : vs[k]? = some v) (hi : i < 4) :
    (vs.flatMap fun v => leBytes 4 v.toNat)[4 * k + i]? = (leBytes 4 v.toNat)[i]? := by
  induction vs generalizing k with
  | nil => simp at hk
  | cons w vs ih =>
    rw [List.flatMap_cons]
    cases k with
    | zero =>
      cases hk
      rw [Nat.mul_zero, Nat.zero_add, List.getElem?_append_left (by rwa [leBytes_length])]
    | succ k =>
      rw [List.getElem?_append_right (by rw [leBytes_length]; omega), leBytes_length,
        show 4 * (k + 1) + i - 4 = 4 * k + i by omega]
      exact ih hk

/-- Where every address translates to itself, a longword is read back from the longwords that memory holds. -/
theorem readLong_of_memoryHolds {s t : State} {m : Mode} {va : Longword} {vs : List Longword} (hflat : s.flat)
    (hflat' : t.flat) (h : memoryHolds m va (vs.flatMap fun v => leBytes 4 v.toNat) s t) {k : Nat} {v : Longword}
    (hk : vs[k]? = some v) : t.readLong (va + BitVec.ofNat 32 (4 * k)) = .ok v := by
  obtain ⟨bs, hbs⟩ := (State.readBytes_ok_iff t t.psl.cur 4 (va + BitVec.ofNat 32 (4 * k))).2
    (State.canRead_flat hflat' _ _ _)
  have hlen := State.readBytes_length hbs
  have hbytes : bs = leBytes 4 v.toNat := by
    refine List.ext_getElem (by rw [hlen, leBytes_length]) fun i hi hi' => ?_
    have hi4 : i < 4 := hlen ▸ hi
    have hbyte := longwordBytes_getElem? hk hi4
    rw [List.getElem?_eq_getElem hi'] at hbyte
    obtain ⟨hin, hbyte⟩ := List.getElem?_eq_some_iff.1 hbyte
    rw [State.readBytes_getElem hbs hi (State.physical_flat hflat' _ _ _), ← hbyte]
    refine h _ hin _ ?_
    rw [State.physical_flat hflat, addrAdd, addrAdd, BitVec.add_assoc, ← BitVec.ofNat_add]
  rw [State.readLong, hbs, hbytes]
  exact congrArg Except.ok (leLong_leBytes v)

/-- The longword of a frame that holds a register of the mask. -/
theorem callFrame_register {isCalls : Bool} {mask : Word} {next : Longword} {s : State} {i : Nat} (hi : i < 12)
    (hbit : mask.getLsbD i = true) :
    (callFrame isCalls mask next s)[5 + maskRank mask i]? = some (s.getReg (Fin.ofNat 16 i)) := by
  rw [callFrame, List.getElem?_append_right (by simp)]
  simp [maskRegs_getElem? hi hbit]

/-- Past the frame and the alignment is where the stack pointer was. -/
theorem callBottom_top (mask : Word) (s : State) :
    callBottom mask s + 20 + BitVec.ofNat 32 (4 * (maskRegs mask).length) + (s.sp.extractLsb' 0 2).setWidth 32 = s.sp := by
  conv => rhs; rw [← align_add_low s.sp]
  rw [callBottom]
  generalize s.sp &&& 0xFFFFFFFC = aligned
  congr 1
  rw [BitVec.add_assoc, Nat.mul_add, BitVec.ofNat_add]
  exact BitVec.sub_add_cancel aligned _

/-- RET at the entry of a procedure called from `s`, the stack pointer going to `sp`. -/
theorem exec_ret_of_called {isCalls : Bool} {ap dst next count : Longword} {mask : Word} {s t : State} (hflat : s.flat)
    (hcalled : calledFrom ap dst mask s t)
    (hframe : memoryHolds s.psl.cur (callBottom mask s)
      ((callFrame isCalls mask next s).flatMap fun v => leBytes 4 v.toNat) s t)
    (hcount : isCalls = true → t.readLong s.sp = .ok count) :
    ∃ u, exec .ret t = .next u ∧ u.pc = next ∧ u.regs = s.regs ∧
      u.sps = s.sps.set s.psl.stack (if isCalls then s.sp + 4 + 4 * (count.extractLsb' 0 8).setWidth 32 else s.sp) ∧
      u.psl = { s.psl with n := false, z := false, v := false, c := false, t := false } := by
  have hflat' : t.flat := hcalled.setting.2.2.trans hflat
  have hread : ∀ {k : Nat} {v : Longword}, (callFrame isCalls mask next s)[k]? = some v →
      t.readLong (t.getReg fpReg + BitVec.ofNat 32 (4 * k)) = .ok v := fun hk => by
    rw [hcalled.framePointer]
    exact readLong_of_memoryHolds hflat hflat' hframe hk
  generalize hstatus : callStatus isCalls (s.sp.extractLsb' 0 2) mask s.psl = status
  obtain ⟨hbyte1, hbit28⟩ := hstatus ▸ callStatus_reserved isCalls (s.sp.extractLsb' 0 2) mask s.psl
  have hisCalls : status.getLsbD 29 = isCalls := hstatus ▸ callStatus_isCalls isCalls _ mask s.psl
  have halign : status.extractLsb' 30 2 = s.sp.extractLsb' 0 2 := hstatus ▸ callStatus_align isCalls _ mask s.psl
  have hbits : ∀ i < 12, ((status.extractLsb' 16 12).setWidth 16).getLsbD i = mask.getLsbD i :=
    fun i hi => hstatus ▸ callStatus_mask isCalls _ mask s.psl hi
  have hbase : s.sp = t.getReg fpReg + 20 +
      BitVec.ofNat 32 (4 * (maskRegs ((status.extractLsb' 16 12).setWidth 16)).length) +
      (status.extractLsb' 30 2).setWidth 32 := by
    rw [hcalled.framePointer, maskRegs_congr hbits, halign, callBottom_top]
  obtain ⟨u, hexec, hpc, hap, hfp, hregs, hsp, hpsl, hother, -⟩ := retReturns t status (s.getReg apReg) (s.getReg fpReg) next
    s.sp count _ (hread (k := 1) (by rw [← hstatus]; rfl)) (hread (k := 2) rfl) (hread (k := 3) rfl) (hread (k := 4) rfl)
    hbyte1 hbit28 rfl (State.canRead_flat hflat' _ _ _) hbase (hisCalls ▸ hcount)
  have hregister : ∀ i < 12, u.getReg (Fin.ofNat 16 i) = s.getReg (Fin.ofNat 16 i) := fun i hi => by
    have hval : (Fin.ofNat 16 i : Reg).val = i := reg_ofNat_val (by omega)
    have hpopped := hregs i hi
    rw [hbits i hi, maskRank_congr hbits (Nat.le_of_lt hi)] at hpopped
    split at hpopped
    next hbit =>
      have hsaved := hread (callFrame_register hi hbit)
      rw [Nat.mul_add, BitVec.ofNat_add, ← BitVec.add_assoc] at hsaved
      exact Except.ok.inj (hpopped.symm.trans hsaved)
    next hbit => rw [hpopped, hcalled.registers _ (by omega)]
  have hreturned : u.psl = { s.psl with n := false, z := false, v := false, c := false, t := false } := by
    rw [hpsl, ← hstatus, withPsw_callStatus, hcalled.psl]
  have hstack : t.psl.stack = s.psl.stack := by rw [hcalled.psl]; rfl
  have hstackReturned : u.psl.stack = s.psl.stack := by rw [hreturned]; rfl
  refine ⟨u, hexec, hpc, State.regs_eq_of_getReg fun q hq => ?_, sps_eq_set (fun i hi => ?_) ?_, hreturned⟩
  · by_cases hlow : q.val < 12
    · rw [← Fin.ofNat_val_eq_self q]
      exact hregister q.val hlow
    · obtain rfl | rfl : q = apReg ∨ q = fpReg := by
        rcases Nat.lt_succ_iff_lt_or_eq.1 hq with h | h
        · exact .inl (Fin.ext (by show q.val = 12; omega))
        · exact .inr (Fin.ext h)
      · exact hap
      · exact hfp
  · rw [hother i (hstack ▸ hi), hcalled.otherStacks i hi]
  · rw [← hstackReturned, ← hisCalls]
    exact hsp

/-- Settles O54: CALLG and CALLS have left a frame that memory holds (`callgEnters`, `callsEnters`), from which RET comes back
(`exec_ret_of_called`). -/
theorem retUndoesCallg : Obligations.RetUndoesCallg := by
  refine ⟨fun x dst s t a d mask hw hflat ha hd hmask hclear hexec => ?_,
    fun x dst s t a d mask hw hflat ha hd hmask hclear hexec => ?_⟩
  · have honly := (evalOperand_ok ha).1.trans' (evalOperand_ok hd).1
    have hflat' : d.state.flat := honly.translation'.trans hflat
    obtain ⟨t', hexec', hcalled, -, -, hholds⟩ := callsEnters x dst s a d mask ha hd hmask hclear
      (State.canWrite_flat hflat' _ _ _) (State.canWrite_flat hflat' _ _ _)
    cases hexec.symm.trans hexec'
    obtain ⟨hcount, hframe⟩ := hholds hw hflat
    rw [← memoryHolds_congr (s' := d.state.setSp (d.state.sp - 4)) honly.translation', ← honly.psl'] at hframe
    have hflatReturned : t.flat := hcalled.setting.2.2.trans hflat'
    have hread : t.readLong (d.state.setSp (d.state.sp - 4)).sp = .ok a.long := by
      rw [State.setSp_sp, ← BitVec.add_zero (d.state.sp - 4)]
      exact readLong_of_memoryHolds (vs := [a.long]) (k := 0) hflat hflatReturned (by simpa using hcount) rfl
    obtain ⟨u, hret, hpc, hregs, hsps, hpsl⟩ := exec_ret_of_called (s := d.state.setSp (d.state.sp - 4)) hflat' hcalled
      hframe fun _ => hread
    rw [← honly.psl']
    refine ⟨u, hret, hpc, hregs, hsps.trans ?_, hpsl⟩
    rw [if_pos rfl, State.setSp_sp, BitVec.sub_add_cancel]
    exact StackPointers.set_set _ _ _ _
  · have honly := (evalOperand_ok ha).1.trans' (evalOperand_ok hd).1
    have hflat' : d.state.flat := honly.translation'.trans hflat
    obtain ⟨t', hexec', hcalled, -, -, hholds⟩ := callgEnters x dst s a d mask ha hd hmask hclear
      (State.canWrite_flat hflat' _ _ _)
    cases hexec.symm.trans hexec'
    have hframe := hholds hw (State.separate_flat hflat _ _ _ (by have := maskRegs_length_le mask; omega))
    rw [← honly.psl'] at hframe ⊢
    obtain ⟨u, hret, hpc, hregs, hsps, hpsl⟩ := exec_ret_of_called (count := 0) hflat' hcalled hframe nofun
    exact ⟨u, hret, hpc, hregs, hsps.trans (StackPointers.set_get_self _ _), hpsl⟩

end Sys2Proof.Machine
end

section
/-! SUPPORT. REI at an exception's routine (60_exceptions.md R237 to R239, R244; 43_trace.md R218): the routine's PSL selects the stack
that holds the frame, and where every address translates to itself REI reads the saved PC and PSL back from it. -/

namespace Sys2Proof.Machine

open Sys2Proof

/-- Where the vector leaves the choice to the mode, an exception off the interrupt stack is served on the stack of the mode it
enters. -/
theorem serviceStack_kernelStack (e : Exc) {p : Psl} (his : p.is = false) :
    serviceStack e p .kernelStack = stackOfMode (e.newMode p.cur) := by
  have hcurrent : p.stack = stackOfMode p.cur := by rw [Psl.stack, his]; rfl
  cases e with
  | changeMode target code => rfl
  | subsetEmulationTrap | suspendedEmulationFault => exact hcurrent
  | _ => simp only [serviceStack, his]; rfl

/-- The PSL of the routine selects the stack that its frame is on (60_exceptions.md R238, R239), short of a vector code 1 with CHMx
or emulation, which sets IS and keeps the stack (log 23). -/
theorem entered.stack {e : Exc} {p : Psl} {frame : List Longword} {s t : State} (h : entered e p frame s t)
    (hcur : p.cur = s.psl.cur) (hpis : p.is = false) (his : s.psl.is = false)
    (hcode : vectorCode (s.vector e) = .kernelStack ∨ ((∀ m c, e ≠ .changeMode m c) ∧ e.isEmulation = false)) :
    t.psl.stack = serviceStack e s.psl (vectorCode (s.vector e)) := by
  have htis := h.is
  rw [hpis, Bool.false_or] at htis
  rw [Psl.stack, htis, h.cur, hcur]
  rcases hcode with hkernel | ⟨hchm, hemul⟩
  · rw [hkernel, serviceStack_kernelStack e his]
    rfl
  · rw [newMode_of_ordinary hchm hemul, serviceStack_of_ordinary hchm hemul, his]
    simp [stackOfMode]

/-- The longwords above the parameters of a frame, from its lowest address up: the saved PC, then the saved PSL. -/
theorem frame_getElem? (psl pc : Longword) (params : List Longword) :
    (psl :: pc :: params).reverse[params.length]? = some pc ∧
      (psl :: pc :: params).reverse[params.length + 1]? = some psl := by
  constructor <;> simp

/-- With the parameters removed from its stack, the routine reads the saved PC and, above it, the saved PSL. -/
theorem readLong_of_frame {psl pc sp : Longword} {params : List Longword} {m : Mode} {s t : State} (hflat : s.flat)
    (hflat' : t.flat) (h : memoryHolds m sp (frameBytes (psl :: pc :: params)) s t)
    (hsp : t.sp = sp + BitVec.ofNat 32 (4 * params.length)) :
    t.readLong t.sp = .ok pc ∧ t.readLong (t.sp + 4) = .ok psl := by
  obtain ⟨hpc, hpsl⟩ := frame_getElem? psl pc params
  rw [hsp]
  refine ⟨readLong_of_memoryHolds hflat hflat' h hpc, ?_⟩
  have habove := readLong_of_memoryHolds hflat hflat' h hpsl
  rwa [Nat.mul_succ, BitVec.ofNat_add, ← BitVec.add_assoc] at habove

/-- Removing the parameters, then popping PC and PSL, takes the stack pointer back to where the pushes began. -/
theorem frame_popped (top : Longword) (n : Nat) :
    top - BitVec.ofNat 32 (4 * (n + 2)) + BitVec.ofNat 32 (4 * n) + 8 = top := by
  rw [Nat.mul_add, BitVec.ofNat_add, BitVec.add_assoc]
  exact BitVec.sub_add_cancel top _

/-- REI of a saved PSL that it accepts, with no trace owed: the saved PC and PSL are taken as they were saved. -/
theorem exec_rei_of_saved {t : State} {pc : Longword} {p : Psl} (hpc : t.readLong t.sp = .ok pc)
    (hpsl : t.readLong (t.sp + 4) = .ok p.pack) (hmode : morePrivileged p.cur t.psl.cur = false) (his : p.is = false)
    (hipl : p.ipl = 0) (htp : t.psl.tp = false) :
    ∃ u, exec .rei t = .next u ∧ u.pc = pc ∧ u.psl = p ∧ u.regs = t.regs ∧
      u.sps = t.sps.set t.psl.stack (t.sp + 8) ∧ u.staleCode = [] ∧ sameSetting t u ∧ u.mem = t.mem := by
  rw [← Psl.unpack_pack p] at hmode his hipl
  obtain ⟨u, hexec, hupc, hupsl, hsp, hother, hregs, hmem, hstale, hsetting, -⟩ :=
    reiReturns.2 t pc p.pack hpc hpsl hmode his hipl
  refine ⟨u, hexec, hupc, ?_, hregs, sps_eq_set hother hsp, hstale, hsetting, hmem⟩
  rw [hupsl, Psl.unpack_pack, htp, Bool.or_false]

/-- Settles O17: the frame is on the stack that the routine's PSL selects (`entered.stack`), REI finds the saved PC and PSL there
(`readLong_of_frame`) and accepts them, since the routine's mode is at least as privileged as the saved one
(`newMode_not_below`); the pops end where the pushes began (`frame_popped`). -/
theorem reiUndoesException : Obligations.ReiUndoesException := by
  intro e pc p s t hw hflat hinit he hcur hpis his hipl hcode hlen
  obtain ⟨-, -, hframe, -⟩ := serviceStackAndMode
  have hentered := (initiate_next hinit).1
  have hheld := hentered.contents hw (State.separate_flat hflat _ _ _ (by omega))
  rw [hframe e pc p s he] at hentered hheld
  have hstack := hentered.stack hcur hpis his hcode
  have hsp : t.sp = s.sps.get t.psl.stack - BitVec.ofNat 32 (4 * (p.pack :: pc :: e.params s).length) := by
    rw [State.sp, hstack]
    exact hentered.sp
  rw [← hstack, ← hsp] at hheld
  have htop : t.sp + BitVec.ofNat 32 (4 * (e.params s).length) + 8 = s.sps.get t.psl.stack := by
    rw [hsp]
    exact frame_popped _ _
  obtain ⟨hpc, hpsl⟩ := readLong_of_frame (t := t.setSp _) hflat (hentered.setting.2.2.trans hflat) hheld (State.setSp_sp t _)
  have hmode : morePrivileged p.cur t.psl.cur = false := by
    rw [hentered.cur]
    exact newMode_not_below e p.cur
  obtain ⟨u, hexec, hupc, hupsl, hregs, hsps, hstale, hsetting, hmem⟩ :=
    exec_rei_of_saved hpc hpsl hmode hpis hipl hentered.untraced.2
  refine ⟨u, hexec, hupc, hupsl, hregs.trans hentered.regs, StackPointers.eq_of_get fun i => ?_, hstale,
    hentered.setting.trans' hsetting, hmem⟩
  rw [hsps, State.setSp_sp, htop, State.setSp_psl]
  by_cases hi : i = t.psl.stack
  · rw [hi, StackPointers.get_set_same]
  · rw [StackPointers.get_set_other _ _ _ _ hi, ← hentered.otherStacks i (hstack ▸ hi)]
    exact StackPointers.get_set_other _ _ _ _ hi

end Sys2Proof.Machine
end
